-- ==== Sys2Proof/Word.lean ====
section
/-! DEFINITION. The word types of the Radian read-out block (spec/00_scope.md R11). -/

namespace Sys2Proof

/-- The 32-bit host data word: registers, command words and operand words (R11). -/
abbrev Word := BitVec 32

/-- One transport or RAM byte (R11). -/
abbrev Byte := BitVec 8

/-- A 6-bit chip register address or strobe code (R11). -/
abbrev ChipAddr := BitVec 6

/-- A byte sequence of a known length: what a read of `n` bytes, or an exchange, gives. -/
abbrev Bytes (n : Nat) := { l : List Byte // l.length = n }

end Sys2Proof
end

