-- ==== Sys2Proof/Syntax.lean ====
section
/-! DEFINITION. The RRB-CMD v1 commands as syntax: one constructor per row of spec/opcode_table.json
(spec/30_encoding.md R112, R114). An instruction is the command word alone: ARG0 and ARG1 are operand registers,
not parts of it (R111). -/

namespace Sys2Proof

/-- The register tables PRESET names (R112 row PRESET, R149). -/
inductive PresetId where
  | default
  | sync
  | data
  | txcfg
deriving DecidableEq, Repr

/-- The oversampling ratios DECODE's osr code names; code 3 is reserved (R112, R211). -/
inductive Osr where
  | x1
  | x2
  | x4
deriving DecidableEq, Repr

/-- A command word whose opcode, reserved bits and enumerated subfield pass steps (1) and (2) of the dispatch (R115). -/
inductive Instr where
  /-- WREG: write one chip register (R151) -/
  | wreg (addr : ChipAddr) (bst : Bool) (value : Byte)
  /-- RREG: read one chip register (R152) -/
  | rreg (addr : ChipAddr) (bst : Bool)
  /-- WBURST: burst-write `n` RAM bytes to the chip (R153) -/
  | wburst (addr : ChipAddr) (n : Byte)
  /-- RBURST: burst-read `n` chip bytes into RAM (R154) -/
  | rburst (addr : ChipAddr) (n : Byte)
  /-- STROBE: send a command strobe (R155) -/
  | strobe (code : ChipAddr)
  /-- WAITST: wait for an operating state (R156) -/
  | waitst (target : BitVec 3)
  /-- WAITEDGE: wait for a GDO level (R157) -/
  | waitedge (level : Bool)
  /-- DRAIN: drain the chip's RX FIFO into RAM (R159) -/
  | drain
  /-- SETFREQ: compute and apply a frequency word (R160) -/
  | setfreq
  /-- RSSI: convert a raw RSSI byte to dBm (R161) -/
  | rssi (raw : Byte)
  /-- RRESET: reset the chip and flush its FIFOs (R162) -/
  | rreset
  /-- PRESET: apply a named register table (R163) -/
  | preset (id : PresetId)
  /-- ENCODE: line-encode RAM bytes (R203) -/
  | encode
  /-- DECODE: line-decode RAM bytes (R212) -/
  | decode (osr : Osr)
  /-- CRC: compute the CRC of RAM bytes (R232) -/
  | crc
  /-- BUILDREQ: build the request frame in RAM (R241) -/
  | buildreq
  /-- EXTRACT: extract a MeterReading from RAM (R251) -/
  | extract
  /-- RINIT: reset and tune the chip to FREQ_MHZ (R260) -/
  | rinit
  /-- ATTEMPT: run one read-out attempt (R262) -/
  | attempt
  /-- DISCOVER: scan for the meter's carrier (R275) -/
  | discover
  /-- BOOT: start-up frequency selection (R281) -/
  | boot
deriving DecidableEq, Repr

end Sys2Proof
end

