-- ==== Sys2Proof/Config.lean ====
section
/-! DEFINITION. What an implementation fixes: the configuration record CFG (spec/00_scope.md R12), and the
free values the spec leaves to the chip, the GDO line, the store and unwritten RAM (R8, R81). -/

namespace Sys2Proof

/-- The configuration record `CFG` (R12), held in State and changed by no step (R30, R95): every field of R12, in the
order of its table. A field's type holds what R13 says of its range by itself; `cfgWf` checks the rest, and with it the
values that R11, R80 and R150 fix (log 6). -/
structure Cfg where
  /-- RAM_SIZE, bytes of buffer RAM -/
  ramSize : Nat
  /-- TXR_BASE, the transmit staging region -/
  txrBase : Nat
  /-- TXR_SIZE -/
  txrSize : Nat
  /-- DECR_BASE, the decoded-bytes region -/
  decrBase : Nat
  /-- DEC_CAP, the size of the decoded-bytes region -/
  decCap : Nat
  /-- RXR_BASE, the raw capture region -/
  rxrBase : Nat
  /-- RXR_SIZE -/
  rxrSize : Nat
  /-- HDR_READ_BIT, the bit of the header byte that marks a read -/
  hdrReadBit : Fin 8
  /-- HDR_BURST_BIT, the bit of the header byte that marks a burst -/
  hdrBurstBit : Fin 8
  /-- strobe: chip reset -/
  sRes : ChipAddr
  /-- strobe: flush the receive FIFO -/
  sFrx : ChipAddr
  /-- strobe: flush the transmit FIFO -/
  sFtx : ChipAddr
  /-- strobe: enter TX -/
  sTx : ChipAddr
  /-- strobe: enter RX -/
  sRx : ChipAddr
  /-- REG_FREQ2, the high frequency register -/
  regFreq2 : ChipAddr
  /-- REG_FREQ1, the mid frequency register -/
  regFreq1 : ChipAddr
  /-- REG_FREQ0, the low frequency register -/
  regFreq0 : ChipAddr
  /-- REG_STATE_POLL, read with the burst bit by WAITST -/
  regStatePoll : ChipAddr
  /-- REG_RXBYTES, the FIFO occupancy register, read with the burst bit -/
  regRxbytes : ChipAddr
  /-- OCC_MASK, the bits of REG_RXBYTES that hold the occupancy -/
  occMask : Byte
  /-- FIFO_ADDR, the chip address of the FIFOs for burst access -/
  fifoAddr : ChipAddr
  /-- REG_SYNC1, used by the preset constraints of R13 -/
  regSync1 : ChipAddr
  /-- REG_SYNC0, used by the preset constraints of R13 -/
  regSync0 : ChipAddr
  /-- REG_PKTLEN, used by the preset constraints of R13 -/
  regPktlen : ChipAddr
  /-- the STATE code of IDLE -/
  stateIdle : BitVec 3
  /-- the STATE code of RX -/
  stateRx : BitVec 3
  /-- the STATE code of TX -/
  stateTx : BitVec 3
  /-- the STATE code of FSTXON -/
  stateFstxon : BitVec 3
  /-- the STATE code of CALIBRATING -/
  stateCalibrating : BitVec 3
  /-- the STATE code of SETTLING -/
  stateSettling : BitVec 3
  /-- the STATE code of RX_OVERFLOW -/
  stateRxOverflow : BitVec 3
  /-- the STATE code of TX_UNDERFLOW -/
  stateTxUnderflow : BitVec 3
  /-- STATE_POLL_MS, the WAITST poll interval -/
  statePollMs : Nat
  /-- WAIT_STATE_MS, the state-wait bound of an attempt -/
  waitStateMs : Nat
  /-- EDGE_POLL_MS, the WAITEDGE poll interval -/
  edgePollMs : Nat
  /-- FIFO_POLL_MS, the DRAIN poll interval -/
  fifoPollMs : Nat
  /-- SETTLE_MS, the delay after each reset step -/
  settleMs : Nat
  /-- PRE_BYTE, the wake-up preamble byte -/
  preByte : Byte
  /-- PRE_CHUNK_LEN, the bytes of one preamble chunk -/
  preChunkLen : Nat
  /-- PRE_MIN_BITS, the preamble length in bits the meter needs: what PRE_CHUNKS is derived from, read by no rule -/
  preMinBits : Nat
  /-- PRE_CHUNKS, the chunks sent per attempt -/
  preChunks : Nat
  /-- PRE_PACE_MS, the delay after each preamble chunk -/
  prePaceMs : Nat
  /-- POST_PRE_MS, the settle after the preamble -/
  postPreMs : Nat
  /-- FRAME_HOLD_MS, the delay between the frame write and the TX flush -/
  frameHoldMs : Nat
  /-- ACK_TMO_MS, the ack-phase edge and capture bound -/
  ackTmoMs : Nat
  /-- RESP_TMO_MS, the response-phase edge and capture bound -/
  respTmoMs : Nat
  /-- ACK_EDGE_LEVEL, the GDO level awaited in the ack phase -/
  ackEdgeLevel : Bool
  /-- ACK_RAW_LEN (OPEN), raw bytes to capture in the ack phase -/
  ackRawLen : Nat
  /-- RESP_RAW_LEN (OPEN), raw bytes to capture in the response phase -/
  respRawLen : Nat
  /-- RESP_OSR, the oversampling ratio of the response decode -/
  respOsr : Osr
  /-- MIN_DECODED, the decoded bytes needed for field extraction -/
  minDecoded : Nat
  /-- OFF_INDEX, the offset of the four index bytes among the 49 that extraction reads -/
  offIndex : Fin 46
  /-- OFF_BATTERY -/
  offBattery : Fin 49
  /-- OFF_WAKE_START -/
  offWakeStart : Fin 49
  /-- OFF_WAKE_STOP -/
  offWakeStop : Fin 49
  /-- OFF_READS -/
  offReads : Fin 49
  /-- SYNC_PREFIX, the 9-byte request-frame prefix -/
  syncPrefix : Bytes 9
  /-- REQ_TEMPLATE, the 17-byte request payload before year, serial and CRC go in -/
  reqTemplate : Bytes 17
  /-- YEAR_POS, the payload offset of the year byte -/
  yearPos : Nat
  /-- SERIAL_POS, the payload offset of the first of the three serial bytes -/
  serialPos : Nat
  /-- PRESET_DEFAULT (OPEN), table 0 of R149 -/
  presetDefault : List (ChipAddr × Byte)
  /-- PRESET_SYNC (OPEN), table 1 of R149 -/
  presetSync : List (ChipAddr × Byte)
  /-- PRESET_DATA (OPEN), table 2 of R149 -/
  presetData : List (ChipAddr × Byte)
  /-- TX_CONFIG (OPEN), table 3 of R149 -/
  txConfig : List (ChipAddr × Byte)
  /-- FSTEP_HI, the high step of the frequency word, in units of 10^-8 MHz -/
  fstepHi : Nat
  /-- FSTEP_MID, in units of 10^-8 MHz -/
  fstepMid : Nat
  /-- FSTEP_LO, in units of 10^-8 MHz -/
  fstepLo : Nat
  /-- FREQ_MIN (OPEN), binary32 bits, MHz -/
  freqMin : Word
  /-- FREQ_MAX (OPEN), binary32 bits, MHz -/
  freqMax : Word
  /-- FREQ_STEP (OPEN), binary32 bits, MHz -/
  freqStep : Word
  /-- RSSI_OFFSET, the dB offset of the RSSI conversion -/
  rssiOffset : Nat
deriving DecidableEq, Repr

/-- A byte of a chip answer the environment has not lined up: a free value (R8, I2; log 4). -/
opaque Config.freeChipByte : Nat → Byte

/-- A GDO sample the environment has not lined up: a free value (R8, I3; log 4). -/
opaque Config.freeGdo : Nat → Bool

/-- A storage answer the environment has not lined up: a free value (R8, I4; log 4). -/
opaque Config.freeLoad : Nat → Option Word

/-- The value one read of an unwritten RAM byte gives: a free value, a fresh one for each read (R81, I1; log 5). -/
opaque Config.freeRamByte : Nat → Byte

end Sys2Proof
end

