-- ==== Sys2Proof/Machine/Params.lean ====
section
/-! DEFINITION. The lengths that the spec's rules write as numbers, and the configuration the reset state holds
(spec/00_scope.md R12; log 7). -/

namespace Sys2Proof.Machine

/-- The bytes of buffer RAM (R11, R80): the one value of RAM_SIZE that `cfgWf` takes (log 6). -/
abbrev ramSize : Nat := 2048
/-- The bytes field extraction reads, `MemRead(src, 49)` (R250). -/
abbrev extractLen : Nat := 49
/-- The length of the transmitted frame (R242). -/
abbrev frameLen : Nat := 33

/-- R12's defaults, with the OPEN fields at the values spec/95_test_vectors.md sections 7 and 9.7 assume: a
configuration that meets R13, chosen so that a run from reset is defined (DESIGN CHOICE, log 7). -/
def resetCfg : Cfg where
  ramSize := 2048
  txrBase := 0x000
  txrSize := 128
  decrBase := 0x080
  decCap := 256
  rxrBase := 0x180
  rxrSize := 1664
  hdrReadBit := 7
  hdrBurstBit := 6
  sRes := 0x30#6
  sFrx := 0x3A#6
  sFtx := 0x3B#6
  sTx := 0x35#6
  sRx := 0x34#6
  regFreq2 := 0x0D#6
  regFreq1 := 0x0E#6
  regFreq0 := 0x0F#6
  regStatePoll := 0x35#6
  regRxbytes := 0x3B#6
  occMask := 0x7F#8
  fifoAddr := 0x3F#6
  regSync1 := 0x04#6
  regSync0 := 0x05#6
  regPktlen := 0x06#6
  stateIdle := 0#3
  stateRx := 1#3
  stateTx := 2#3
  stateFstxon := 3#3
  stateCalibrating := 4#3
  stateSettling := 5#3
  stateRxOverflow := 6#3
  stateTxUnderflow := 7#3
  statePollMs := 2
  waitStateMs := 25
  edgePollMs := 1
  fifoPollMs := 5
  settleMs := 1
  preByte := 0x55#8
  preChunkLen := 8
  preMinBits := 4928
  preChunks := 77
  prePaceMs := 20
  postPreMs := 130
  frameHoldMs := 0
  ackTmoMs := 150
  respTmoMs := 700
  ackEdgeLevel := true
  ackRawLen := 8
  respRawLen := 248
  respOsr := .x4
  minDecoded := 48
  offIndex := 18
  offBattery := 31
  offWakeStart := 44
  offWakeStop := 45
  offReads := 48
  syncPrefix := ⟨[0x50#8, 0x00#8, 0x00#8, 0x00#8, 0x03#8, 0xFF#8, 0xFF#8, 0xFF#8, 0xFF#8], rfl⟩
  reqTemplate := ⟨[0x13#8, 0x10#8, 0x00#8, 0x45#8, 0x00#8, 0x00#8, 0x00#8, 0x00#8, 0x00#8, 0x45#8, 0x20#8, 0x0A#8,
    0x50#8, 0x14#8, 0x00#8, 0x0A#8, 0x40#8], rfl⟩
  yearPos := 4
  serialPos := 5
  presetDefault := [(0x0D#6, 0x00#8), (0x0E#6, 0x00#8), (0x0F#6, 0x00#8)]
  presetSync := [(0x04#6, 0x55#8), (0x05#6, 0x50#8), (0x06#6, 0x01#8)]
  presetData := [(0x04#6, 0xFF#8), (0x05#6, 0xF0#8)]
  txConfig := [(0x08#6, 0x02#8)]
  fstepHi := 2600000000
  fstepMid := 10156250
  fstepLo := 39675
  freqMin := 0x43D8E8F6#32
  freqMax := 0x43D8EA3D#32
  freqStep := 0x3BA3D70A#32
  rssiOffset := 74

end Sys2Proof.Machine
end

