-- ==== Sys2Proof/Machine/State.lean ====
section
/-! DEFINITION. The state of the RRB as plain data (spec/10_state.md R30), the machine after block reset
(spec/70_reset_and_hazards.md R330), and the reasons a step can stop. -/

namespace Sys2Proof.Machine

/-- The result codes of R300; codes 8 to 15 are never written (I10), so no value stands for them. -/
inductive ResultCode where
  | ok
  | timeout
  | malformed
  | alloc
  | illegal
  | badArg
  | zeroReading
  | notFound
deriving DecidableEq, Repr

/-- The protocol states of an attempt (R46, R261); encoding 7 is never written (I10). -/
inductive AttState where
  | idle
  | transmitting
  | waitingForAck
  | waitingForResponse
  | decoding
  | success
  | failed
deriving DecidableEq, Repr

/-- One entry of the event history (R52). -/
inductive Event where
  /-- a transport exchange: bytes sent, bytes answered, NOW -/
  | xfer (out answer : List Byte) (now : Word)
  /-- a GDO sample -/
  | gdo (level : Bool) (now : Word)
  /-- the answer of a storage load -/
  | load (answer : Option Word)
  /-- a storage store of binary32 bits -/
  | store (bits : Word)
  /-- a publication of the five MeterReading fields -/
  | publish (index : Word) (reads battery wakeStart wakeStop : Byte)
  /-- an accepted command -/
  | cmd (opw a0 a1 now : Word)
  /-- a completion -/
  | done (code : ResultCode) (now : Word)
deriving DecidableEq, Repr

/-- What one completed primitive of a running command answered: the record from which the command's position and
its local variables follow (R45, R51). -/
inductive Answer where
  | unit
  /-- the bytes of a RAM read -/
  | bytes (l : List Byte)
  /-- the status byte and the further bytes of a transport exchange -/
  | exchange (status : Byte) (data : List Byte)
  /-- a GDO sample -/
  | level (b : Bool)
  /-- a register read -/
  | word (w : Word)
  /-- a storage answer -/
  | loaded (w : Option Word)
deriving DecidableEq, Repr

/-- The widths a host access may have (R85). -/
inductive Width where
  | w8
  | w16
  | w32
deriving DecidableEq, Repr

/-- One access at the host port: 13-bit byte address, width, and for a write the data word, whose low bits a
narrower access uses (R83, R85; log 20). -/
inductive HostAccess where
  | read (addr : BitVec 13) (width : Width)
  | write (addr : BitVec 13) (width : Width) (data : Word)
deriving DecidableEq, Repr

/-- What the host port answered to the last access: the MODEL's own record of the port (log 12). -/
inductive Response where
  /-- no access yet -/
  | quiet
  /-- a write was taken (performed, or ignored as its rule says) -/
  | written
  /-- a read returned this data word -/
  | data (w : Word)
  /-- a bus error (R302) -/
  | busError
deriving DecidableEq, Repr

/-- One move of an agent (R8), as the environment lines them up in `State.agenda` (log 1). -/
inductive Move where
  /-- the host makes one access -/
  | host (a : HostAccess)
  /-- the RRB sequencer performs one primitive -/
  | seq
  /-- one millisecond elapses -/
  | tick
  /-- the running command runs on, undisturbed, to its completion, ticks being delivered as it waits (log 2) -/
  | run
  /-- the platform's reset input (R330) -/
  | reset
deriving DecidableEq, Repr

/-- The fields of STATUS (R33), one home each; the word is assembled in Flags.lean. -/
structure Status where
  busy : Bool
  done : Bool
  rej : Bool
  result : ResultCode
  csState : BitVec 3
  csValid : Bool
  csFifo : BitVec 4
  att : AttState
  disc : Bool
deriving DecidableEq, Repr

/-- The other host registers (R31): CTRL.IE, the operand and result words, FREQ_MHZ, FREQ_WORD[23:0], METER_ID, the
reading registers, NOW and CAND. Reserved fields have no storage (R43). -/
structure Regs where
  ie : Bool
  arg0 : Word
  arg1 : Word
  res0 : Word
  res1 : Word
  freqMhz : Word
  freqWord : BitVec 24
  meterId : Word
  rdIndex : Word
  rdMisc : Word
  now : Word
  cand : Word
deriving DecidableEq, Repr

/-- The running command's context (R50) and hidden state (R51): the latched words, the answers of the primitives
performed so far (its position and local variables), and the ticks left of a pending `Delay`. -/
structure Ctx where
  opw : Word
  a0 : Word
  a1 : Word
  answers : List Answer
  delayLeft : Option Nat
deriving DecidableEq, Repr

/-- What the environment has lined up for the oracles of R8, and how many free values have been drawn: the MODEL's
own fields (log 4). An answer that is not lined up is a free value of Config.lean. -/
structure Oracle where
  /-- the chip's answers to the next exchanges, one list of bytes each -/
  chip : List (List Byte)
  /-- the next GDO samples -/
  gdo : List Bool
  /-- the next storage answers -/
  load : List (Option Word)
  /-- what the next reads of unwritten RAM bytes give -/
  ram : List Byte
  /-- how many free values have been drawn -/
  drawn : Nat
deriving DecidableEq, Repr

/-- The buffer RAM: the bytes written since reset, by strictly rising offset (R80). An unlisted offset has no value:
every read of it is a free value (R81). -/
abbrev Memory := List Host.Cell

/-- The machine: everything R30 names, then the model's own environment fields. -/
structure State where
  /-- CFG, constant (R12, R30) -/
  cfg : Cfg
  /-- STATUS (R33) -/
  status : Status
  /-- the rest of the host register file (R31) -/
  regs : Regs
  /-- the running command's context and hidden state (R50, R51) -/
  ctx : Ctx
  /-- the buffer RAM (R80) -/
  ram : Memory
  /-- the event history, oldest first (R52) -/
  history : List Event
  /-- the model's own: the oracles' pending answers -/
  oracle : Oracle
  /-- the model's own: the agents' pending moves, next first -/
  agenda : List Move
  /-- the model's own: what the host port answered last -/
  response : Response
deriving DecidableEq, Repr

/-- Why the machine stops. The RRB has no traps and never stops (R303, R316): this fault marks states no run reaches. -/
inductive Fault where
  /-- Raised by the sequencer where the recorded answers are not a position inside the running command's program
  (R45, R51). Safe: no step leads to such a state, and stopping proves nothing about the hardware. -/
  | corruptContext
deriving DecidableEq, Repr

/-- Why a step has no meaning. -/
inductive Refusal where
  /-- Raised by an arm of exec for an instruction that has no meaning yet. Safe. -/
  | notModelled (mnemonic : String)
  /-- Raised by step where CFG breaks R13, which a model refuses (R13, I14). Safe. -/
  | badConfig
deriving DecidableEq, Repr

/-- STATUS after block reset: 0x00000000 (R330). -/
def Status.reset : Status where
  busy := false
  done := false
  rej := false
  result := .ok
  csState := 0#3
  csValid := false
  csFifo := 0#4
  att := .idle
  disc := false

/-- The host registers after block reset: all 0 (R330). -/
def Regs.reset : Regs where
  ie := false
  arg0 := 0#32
  arg1 := 0#32
  res0 := 0#32
  res1 := 0#32
  freqMhz := 0#32
  freqWord := 0#24
  meterId := 0#32
  rdIndex := 0#32
  rdMisc := 0#32
  now := 0#32
  cand := 0#32

/-- No running command: the latched words 0, no local variables, no pending Delay (R330, R51; log 11). -/
def Ctx.idle : Ctx where
  opw := 0#32
  a0 := 0#32
  a1 := 0#32
  answers := []
  delayLeft := none

/-- Nothing lined up and nothing drawn: the model's own start (DESIGN CHOICE, log 4). -/
def Oracle.quiet : Oracle where
  chip := []
  gdo := []
  load := []
  ram := []
  drawn := 0

/-- The machine right after block reset under a configuration (R330): idle, every register 0, RAM without values,
the history empty; and no environment move or answer lined up. -/
def State.resetWith (cfg : Cfg) : State where
  cfg := cfg
  status := .reset
  regs := .reset
  ctx := .idle
  ram := []
  history := []
  oracle := .quiet
  agenda := []
  response := .quiet

/-- The machine right after reset (R330). Its configuration is one that meets R13 (log 7); `State.resetWith` is the
reset under any other. -/
def State.reset : State := .resetWith resetCfg

end Sys2Proof.Machine
end

