-- ==== Sys2Proof/Machine/Flags.lean ====
section
/-! DEFINITION. The status word and the flag computations: the encodings of RESULT and ATT_STATE, STATUS assembled
from its fields, the ChipStatus update of an exchange, the W1C write, and IRQ (spec/10_state.md R33, R46, R47, R49;
spec/60_exceptions.md R300, R306). -/

namespace Sys2Proof.Machine

/-- STATUS.RESULT of a result code (R300). -/
def ResultCode.code : ResultCode → BitVec 4
  | .ok => 0#4
  | .timeout => 1#4
  | .malformed => 2#4
  | .alloc => 3#4
  | .illegal => 4#4
  | .badArg => 5#4
  | .zeroReading => 6#4
  | .notFound => 7#4

/-- STATUS.ATT_STATE of a protocol state (R46). -/
def AttState.code : AttState → BitVec 3
  | .idle => 0#3
  | .transmitting => 1#3
  | .waitingForAck => 2#3
  | .waitingForResponse => 3#3
  | .decoding => 4#3
  | .success => 5#3
  | .failed => 6#3

/-- The STATUS register as the host reads it (R33). -/
def statusWord (t : Status) : Word :=
  (0#12 ++ BitVec.ofBool t.disc ++ t.att.code ++ t.csFifo ++ BitVec.ofBool t.csValid ++ t.csState ++ t.result.code
    ++ 0#1 ++ BitVec.ofBool t.rej ++ BitVec.ofBool t.done ++ BitVec.ofBool t.busy : BitVec 32)

/-- ChipStatus after an exchange whose first answer byte is `st`: bits 6:4 are the state, 3:0 the FIFO count, bit 7 is
not stored (R47). -/
def chipStatus (st : Byte) (t : Status) : Status :=
  { t with csState := st.extractLsb' 4 3, csFifo := st.extractLsb' 0 4, csValid := true }

/-- A host write of `w` to STATUS: bit 1 clears DONE, bit 2 clears REJ, every other bit is ignored (R33). -/
def statusW1C (w : Word) (t : Status) : Status :=
  { t with done := t.done && !w.getLsbD 1, rej := t.rej && !w.getLsbD 2 }

/-- A host write was ignored because BUSY was 1 (R54). -/
def Status.rejected (t : Status) : Status := { t with rej := true }

/-- STATUS at the acceptance of a command (R53). -/
def Status.accepted (t : Status) : Status := { t with busy := true, done := false, result := .ok }

/-- STATUS at a completion with result `c` (R55). -/
def Status.completed (c : ResultCode) (t : Status) : Status := { t with busy := false, done := true, result := c }

/-- The IRQ output, a level: STATUS.DONE and CTRL.IE (R306). -/
def irq (s : State) : Bool := s.status.done && s.regs.ie

end Sys2Proof.Machine
end

