-- ==== Sys2Proof/Machine/Operands.lean ====
section
/-! DEFINITION. The operand forms of ARG0 and ARG1 (spec/30_encoding.md R112) and the reserved-bit checks on them
(R116). Every field is unsigned and zero-extended. -/

namespace Sys2Proof.Machine

/-- `off`, `src` or `dst`: the RAM offset in bits 10:0 (R98, R112). -/
def argOff (w : Word) : Nat := (w.extractLsb' 0 11).toNat

/-- The length in bits 31:16: `n`, `m`, `cap`, `d` or `N` (R112). -/
def argLen (w : Word) : Nat := (w.extractLsb' 16 16).toNat

/-- `T`, the budget in milliseconds in bits 15:0 (R112). -/
def argMs (w : Word) : Nat := (w.extractLsb' 0 16).toNat

/-- A word that holds an offset alone has a reserved bit set: bits 31:11 (R112). -/
def offReserved (w : Word) : Bool := w.extractLsb' 11 21 != 0#21

/-- A word that holds an offset and a length has a reserved bit set: bits 15:11 (R112). -/
def offLenReserved (w : Word) : Bool := w.extractLsb' 11 5 != 0#5

/-- A word that holds a budget alone has a reserved bit set: bits 31:16 (R112). -/
def msReserved (w : Word) : Bool := w.extractLsb' 16 16 != 0#16

/-- The range `off .. off + n - 1` does not lie in the RAM (R82, R116). -/
def pastRam (c : Cfg) (off n : Nat) : Bool := decide (c.ramSize < off + n)

end Sys2Proof.Machine
end

