-- ==== Sys2Proof/Machine/Ops.lean ====
section
/-! DEFINITION. The named operations: RAM (spec/20_memory.md R80 to R82), the free draws (R8, R81), events (R52),
the transport exchange (R140), acceptance (R53), completion (R55, R303) and block reset (R330). -/

namespace Sys2Proof.Machine

/-! ### Buffer RAM -/

/-- The byte held at an offset; `none` where nothing has been written since reset (R81). -/
def Memory.byte (m : Memory) (a : Nat) : Option Byte :=
  match m with
  | [] => none
  | (k, b) :: rest => if k = a then some b else Memory.byte rest a

/-- Write one byte, keeping the offsets strictly rising. -/
def Memory.set (m : Memory) (a : Nat) (b : Byte) : Memory :=
  match m with
  | [] => [(a, b)]
  | (k, c) :: rest =>
    if a < k then (a, b) :: (k, c) :: rest
    else if a = k then (a, b) :: rest
    else (k, c) :: Memory.set rest a b

/-- `MemWrite(off, bytes)`: RAM[off + i] <- bytes[i], in increasing i (R82). -/
def Memory.write (m : Memory) (off : Nat) (bytes : List Byte) : Memory :=
  match bytes with
  | [] => m
  | b :: rest => Memory.write (m.set off b) (off + 1) rest

/-- The offsets of a memory rise strictly, each above `lo`, and lie inside the RAM. -/
def Memory.wfFrom (lo : Nat) (m : Memory) : Bool :=
  match m with
  | [] => true
  | (k, _) :: rest => decide (lo ≤ k) && decide (k < ramSize) && Memory.wfFrom (k + 1) rest

/-- The canonical form of the RAM: offsets strictly rising and inside the RAM. -/
def Memory.wf (m : Memory) : Bool := Memory.wfFrom 0 m

/-! ### Free draws (R8, R81) -/

/-- A fresh byte of an unwritten RAM offset: the environment's next, else a free value (R81). -/
def drawRam (o : Oracle) : Byte × Oracle :=
  match o.ram with
  | b :: rest => (b, { o with ram := rest })
  | [] => (Config.freeRamByte o.drawn, { o with drawn := o.drawn + 1 })

/-- A GDO sample: the environment's next, else a free value (R8). -/
def drawGdo (o : Oracle) : Bool × Oracle :=
  match o.gdo with
  | b :: rest => (b, { o with gdo := rest })
  | [] => (Config.freeGdo o.drawn, { o with drawn := o.drawn + 1 })

/-- A storage answer: the environment's next, else a free value (R8). -/
def drawLoad (o : Oracle) : Option Word × Oracle :=
  match o.load with
  | v :: rest => (v, { o with load := rest })
  | [] => (Config.freeLoad o.drawn, { o with drawn := o.drawn + 1 })

/-- `k` answer bytes of the chip: those of `script`, then free values (R8). -/
def drawAnswer (k : Nat) (script : List Byte) (o : Oracle) : Bytes k × Oracle :=
  match k with
  | 0 => (⟨[], rfl⟩, o)
  | k + 1 =>
    match script with
    | b :: rest =>
      let r := drawAnswer k rest o
      (⟨b :: r.1.1, by rw [List.length_cons, r.1.2]⟩, r.2)
    | [] =>
      let r := drawAnswer k [] { o with drawn := o.drawn + 1 }
      (⟨Config.freeChipByte o.drawn :: r.1.1, by rw [List.length_cons, r.1.2]⟩, r.2)

/-- The chip's answer to an exchange of `1 + k` bytes: its status byte and the other `k` bytes (R140). -/
def drawExchange (k : Nat) (o : Oracle) : (Byte × Bytes k) × Oracle :=
  let r := drawAnswer (k + 1) (o.chip.headD []) { o with chip := o.chip.tail }
  ((r.1.1.head (List.ne_nil_of_length_eq_add_one r.1.2),
    ⟨r.1.1.tail, by rw [List.length_tail, r.1.2, Nat.add_sub_cancel]⟩), r.2)

/-- One byte of RAM as a read gives it: the byte written, else a free draw (R81). -/
def readByte (m : Memory) (a : Nat) (o : Oracle) : Byte × Oracle :=
  match m.byte a with
  | some b => (b, o)
  | none => drawRam o

/-- `MemRead(off, n)`: RAM[off], ..., RAM[off + n - 1], in increasing order (R82). -/
def readBytes (m : Memory) (off n : Nat) (o : Oracle) : Bytes n × Oracle :=
  match n with
  | 0 => (⟨[], rfl⟩, o)
  | n + 1 =>
    let b := readByte m off o
    let r := readBytes m (off + 1) n b.2
    (⟨b.1 :: r.1.1, by rw [List.length_cons, r.1.2]⟩, r.2)

/-! ### Operations on the machine -/

/-- `emit E` (R16, R52). -/
def emit (e : Event) (s : State) : State := { s with history := s.history ++ [e] }

/-- `MemRead` on the machine: the bytes, and the draws they took (R82). -/
def memRead (off n : Nat) (s : State) : Bytes n × State :=
  let r := readBytes s.ram off n s.oracle
  (r.1, { s with oracle := r.2 })

/-- `MemWrite` on the machine (R82). -/
def memWrite (off : Nat) (bytes : List Byte) (s : State) : State := { s with ram := s.ram.write off bytes }

/-- `Xfer(hd :: tl)`: one exchange; the answer is a free draw, the event is recorded, and ChipStatus is taken from the
first answer byte (R140, R47). -/
def doXfer (hd : Byte) (tl : List Byte) (s : State) : (Byte × Bytes tl.length) × State :=
  let r := drawExchange tl.length s.oracle
  (r.1, emit (.xfer (hd :: tl) (r.1.1 :: r.1.2.1) s.regs.now)
    { s with oracle := r.2, status := chipStatus r.1.1 s.status })

/-- `Gdo()`: sample the side-band line (R16). -/
def doGdo (s : State) : Bool × State :=
  let r := drawGdo s.oracle
  (r.1, { s with oracle := r.2 })

/-- `LOAD()`: ask the store (R281). -/
def doLoad (s : State) : Option Word × State :=
  let r := drawLoad s.oracle
  (r.1, { s with oracle := r.2 })

/-- `n` milliseconds elapse: NOW advances modulo 2^32 (R41). -/
def elapse (n : Nat) (s : State) : State := { s with regs := { s.regs with now := s.regs.now + BitVec.ofNat 32 n } }

/-- Acceptance of the command word `w` (R53): the operands are latched, the result words and RESULT are cleared, DONE
is cleared, BUSY is set and the CMD event is recorded. -/
def accept (w : Word) (s : State) : State :=
  emit (.cmd w s.regs.arg0 s.regs.arg1 s.regs.now)
    { s with
      status := s.status.accepted
      regs := { s.regs with res0 := 0#32, res1 := 0#32 }
      ctx := { opw := w, a0 := s.regs.arg0, a1 := s.regs.arg1, answers := [], delayLeft := none } }

/-- Completion with result `c`, by `finish c` or `raise c`, the one way every command ends (R55, R303): RESULT is
written, BUSY cleared, DONE set, the DONE event recorded, and the hidden state discarded (R51). -/
def complete (c : ResultCode) (s : State) : State :=
  emit (.done c s.regs.now) { s with status := s.status.completed c, ctx := .idle }

/-- Block reset (R330, R332): every register 0, no running command, RAM without values, the history empty. CFG keeps
its value, and so does the environment: the chip, the GDO line and the store are not told (R333; log 14). -/
def blockReset (s : State) : State :=
  { s with status := .reset, regs := .reset, ctx := .idle, ram := [], history := [] }

end Sys2Proof.Machine
end

