-- ==== Sys2Proof/Machine/Prog.lean ====
section
/-! DEFINITION. The program of a command: the pseudocode of spec/40_radio_interface.md to 43_protocol_engine.md over the
primitives of spec/00_scope.md R16, and the two ways the sequencer carries it out: one primitive at a time (R8, R9, R89),
or undisturbed to the completion. The position of a running command inside its program (R45) is found from the answers
recorded in the state. -/

namespace Sys2Proof.Machine

/-- The registers a program reads. -/
inductive Src where
  | now
  | freqMhz
  | freqWord
  | meterId
  | csState
  | rdIndex
  | rdMisc
deriving DecidableEq, Repr

/-- The registers and fields a program writes. -/
inductive Dst where
  | res0 (w : Word)
  | res1 (w : Word)
  | freqMhz (w : Word)
  | freqWord (w : BitVec 24)
  | cand (w : Word)
  | rdIndex (w : Word)
  | rdMisc (w : Word)
  | numReadings (b : Byte)
  | battery (b : Byte)
  | wakeStart (b : Byte)
  | wakeStop (b : Byte)
  | att (a : AttState)
  | disc (b : Bool)
deriving DecidableEq, Repr

/-- What a program emits itself (R52); the other events are recorded by acceptance, completion and the exchange. -/
inductive Note where
  | gdo (level : Bool)
  | load (answer : Option Word)
  | store (bits : Word)
  | publish (index : Word) (reads battery wakeStart wakeStop : Byte)
deriving DecidableEq, Repr

/-- The primitives of R16, each one indivisible step of the RRB (R89). -/
inductive Prim where
  | memRead (off n : Nat)
  | memWrite (off : Nat) (bytes : List Byte)
  | xfer (hd : Byte) (tl : List Byte)
  | gdo
  | load
  | delay (n : Nat)
  | read (r : Src)
  | write (d : Dst)
  | note (e : Note)
deriving DecidableEq, Repr

/-- What a primitive answers. -/
abbrev Prim.Res : Prim → Type
  | .memRead _ n => Bytes n
  | .memWrite _ _ => Unit
  | .xfer _ tl => Byte × Bytes tl.length
  | .gdo => Bool
  | .load => Option Word
  | .delay _ => Unit
  | .read _ => Word
  | .write _ => Unit
  | .note _ => Unit

/-- The value of a register as a program reads it, zero-extended (R31, R38, R47). -/
def readSrc (r : Src) (s : State) : Word :=
  match r with
  | .now => s.regs.now
  | .freqMhz => s.regs.freqMhz
  | .freqWord => s.regs.freqWord.zeroExtend 32
  | .meterId => s.regs.meterId
  | .csState => s.status.csState.zeroExtend 32
  | .rdIndex => s.regs.rdIndex
  | .rdMisc => s.regs.rdMisc

/-- RD_MISC with the byte at bits `8k + 7 : 8k` replaced (R40). -/
def setMiscByte (k : Nat) (b : Byte) (w : Word) : Word :=
  (w &&& ~~~(0xFF#32 <<< (8 * k))) ||| (b.zeroExtend 32 <<< (8 * k))

/-- `REG <- v` and `REG.FIELD <- v` (R16, R40). -/
def writeDst (d : Dst) (s : State) : State :=
  match d with
  | .res0 w => { s with regs := { s.regs with res0 := w } }
  | .res1 w => { s with regs := { s.regs with res1 := w } }
  | .freqMhz w => { s with regs := { s.regs with freqMhz := w } }
  | .freqWord w => { s with regs := { s.regs with freqWord := w } }
  | .cand w => { s with regs := { s.regs with cand := w } }
  | .rdIndex w => { s with regs := { s.regs with rdIndex := w } }
  | .rdMisc w => { s with regs := { s.regs with rdMisc := w } }
  | .numReadings b => { s with regs := { s.regs with rdMisc := setMiscByte 0 b s.regs.rdMisc } }
  | .battery b => { s with regs := { s.regs with rdMisc := setMiscByte 1 b s.regs.rdMisc } }
  | .wakeStart b => { s with regs := { s.regs with rdMisc := setMiscByte 2 b s.regs.rdMisc } }
  | .wakeStop b => { s with regs := { s.regs with rdMisc := setMiscByte 3 b s.regs.rdMisc } }
  | .att a => { s with status := { s.status with att := a } }
  | .disc b => { s with status := { s.status with disc := b } }

/-- The event a note stands for, at the current NOW (R52). -/
def Note.event (e : Note) (now : Word) : Event :=
  match e with
  | .gdo level => .gdo level now
  | .load answer => .load answer
  | .store bits => .store bits
  | .publish index reads battery wakeStart wakeStop => .publish index reads battery wakeStart wakeStop

/-- The whole effect of one primitive and its answer. A `Delay` is taken here as a whole: its `n` ticks elapse. -/
def runPrim (p : Prim) (s : State) : p.Res × State :=
  match p with
  | .memRead off n => memRead off n s
  | .memWrite off bytes => ((), memWrite off bytes s)
  | .xfer hd tl => doXfer hd tl s
  | .gdo => doGdo s
  | .load => doLoad s
  | .delay n => ((), elapse n s)
  | .read r => (readSrc r s, s)
  | .write d => ((), writeDst d s)
  | .note e => ((), emit (e.event s.regs.now) s)

/-- The record of a primitive's answer. -/
def Prim.record (p : Prim) (r : p.Res) : Answer :=
  match p, r with
  | .memRead _ _, r => .bytes r.1
  | .memWrite _ _, _ => .unit
  | .xfer _ _, r => .exchange r.1 r.2.1
  | .gdo, r => .level r
  | .load, r => .loaded r
  | .delay _, _ => .unit
  | .read _, r => .word r
  | .write _, _ => .unit
  | .note _, _ => .unit

/-- The answer a record stands for, where it is a record of this primitive's. -/
def Prim.accepts (p : Prim) (a : Answer) : Option p.Res :=
  match p, a with
  | .memRead _ n, .bytes l => if h : l.length = n then some ⟨l, h⟩ else none
  | .memWrite _ _, .unit => some ()
  | .xfer _ tl, .exchange st l => if h : l.length = tl.length then some (st, ⟨l, h⟩) else none
  | .gdo, .level b => some b
  | .load, .loaded w => some w
  | .delay _, .unit => some ()
  | .read _, .word w => some w
  | .write _, .unit => some ()
  | .note _, .unit => some ()
  | _, _ => none

/-- A program over the primitives, with result `α`: `pure a` ends with `a`; `op p k` performs `p` and goes on as `k`
says of its answer. A command's program ends with its result code: `finish c` and `raise c` (R303). -/
inductive Prog (α : Type) where
  | pure (a : α)
  | op (p : Prim) (k : p.Res → Prog α)

/-- Run `m`, then `f` on its result. -/
def Prog.bind {α β : Type} (m : Prog α) (f : α → Prog β) : Prog β :=
  match m with
  | .pure a => f a
  | .op p k => .op p (fun r => (k r).bind f)

/-- Run `m` for its effects, then `n`. -/
def Prog.andThen {α β : Type} (m : Prog α) (n : Prog β) : Prog β := m.bind (fun _ => n)

/-- `repeat n times` (R16). -/
def Prog.times (n : Nat) (m : Prog Unit) : Prog Unit :=
  match n with
  | 0 => .pure ()
  | n + 1 => m.andThen (Prog.times n m)

/-- A program carried out undisturbed from a state: its result and the state after it. -/
def Prog.run {α : Type} (m : Prog α) (s : State) : α × State :=
  match m with
  | .pure a => (a, s)
  | .op p k => (k (runPrim p s).1).run (runPrim p s).2

/-- What is left of a program once the primitives with these answers are done (R45); `none` where the answers are not
those of its primitives. -/
def Prog.after {α : Type} (m : Prog α) (answers : List Answer) : Option (Prog α) :=
  match answers with
  | [] => some m
  | a :: rest =>
    match m with
    | .pure _ => none
    | .op p k =>
      match p.accepts a with
      | some r => (k r).after rest
      | none => none

/-! ### The primitives as programs -/

/-- `MemRead(off, n)`. -/
def pMemRead (off n : Nat) : Prog (Bytes n) := .op (.memRead off n) .pure
/-- `MemWrite(off, bytes)`. -/
def pMemWrite (off : Nat) (bytes : List Byte) : Prog Unit := .op (.memWrite off bytes) .pure
/-- `Xfer(hd :: tl)`. -/
def pXfer (hd : Byte) (tl : List Byte) : Prog (Byte × Bytes tl.length) := .op (.xfer hd tl) .pure
/-- `Gdo()`. -/
def pGdo : Prog Bool := .op .gdo .pure
/-- `LOAD()`. -/
def pLoad : Prog (Option Word) := .op .load .pure
/-- `Delay(n)`. -/
def pDelay (n : Nat) : Prog Unit := .op (.delay n) .pure
/-- `REG` read. -/
def pRead (r : Src) : Prog Word := .op (.read r) .pure
/-- `REG <- v`. -/
def pWrite (d : Dst) : Prog Unit := .op (.write d) .pure
/-- `emit E`. -/
def pNote (e : Note) : Prog Unit := .op (.note e) .pure

/-- The dispatch checks of R115 steps (3) and (4): `raise BADARG`, else `raise ALLOC`, else the body. -/
def checked (badArg alloc : Bool) (body : Prog ResultCode) : Prog ResultCode :=
  if badArg then .pure .badArg else if alloc then .pure .alloc else body

/-! ### The sequencer -/

/-- Run the rest of a program to its end and complete with its result (R55). -/
def finish (m : Prog ResultCode) (s : State) : State :=
  let r := m.run s
  complete r.1 r.2

/-- Carry a command's program from its present position to its completion, undisturbed: a pending `Delay` first runs
out, then every further primitive is performed (log 2). -/
def runCommand (m : Prog ResultCode) (s : State) : Host.Outcome State Fault Refusal :=
  match m.after s.ctx.answers with
  | none => .fault .corruptContext
  | some rest =>
    match s.ctx.delayLeft with
    | none => .next (finish rest s)
    | some n =>
      match rest with
      | .op (.delay _) k => .next (finish (k ()) (elapse n s))
      | _ => .fault .corruptContext

/-- Record the answer of the primitive just performed. -/
def recordAnswer (a : Answer) (s : State) : State :=
  { s with ctx := { s.ctx with answers := s.ctx.answers ++ [a], delayLeft := none } }

/-- The sequencer performs the next primitive of a command's program (R9). A `Delay(n)` with n > 0 blocks; `Delay(0)`
completes at once; the end of the program completes the command (R55). While a `Delay` is pending nothing happens. -/
def seqStep (m : Prog ResultCode) (s : State) : Host.Outcome State Fault Refusal :=
  match s.ctx.delayLeft with
  | some _ => .next s
  | none =>
    match m.after s.ctx.answers with
    | none => .fault .corruptContext
    | some (.pure c) => .next (complete c s)
    | some (.op (.delay n) _) =>
      if n = 0 then .next (recordAnswer .unit s)
      else .next { s with ctx := { s.ctx with delayLeft := some n } }
    | some (.op p _) => .next (recordAnswer (p.record (runPrim p s).1) (runPrim p s).2)

/-- One millisecond elapses (R9, R41). It is enabled only when no command runs or the running one is blocked in a
`Delay`; otherwise no time passes and nothing changes (log 3). The tick that ends a `Delay` completes it. -/
def tickStep (s : State) : State :=
  if s.status.busy then
    match s.ctx.delayLeft with
    | none => s
    | some n =>
      if n ≤ 1 then recordAnswer .unit (elapse 1 s)
      else { elapse 1 s with ctx := { s.ctx with delayLeft := some (n - 1) } }
  else elapse 1 s

end Sys2Proof.Machine
end

