-- ==== Sys2Proof/Machine/Crc.lean ====
section
/-! DEFINITION. The CRC-16/KERMIT generator and the command CRC (spec/42_crc.md R230 to R232). -/

namespace Sys2Proof.Machine

/-- One bit of R230: shift right, with the polynomial 0x8408 where bit 0 was 1. -/
def crcBit (r : BitVec 16) : BitVec 16 := if r.getLsbD 0 then (r >>> 1) ^^^ 0x8408#16 else r >>> 1

/-- One byte of R230: it enters least significant bit first, then eight bit steps. -/
def crcByte (r : BitVec 16) (b : Byte) : BitVec 16 :=
  crcBit (crcBit (crcBit (crcBit (crcBit (crcBit (crcBit (crcBit (r ^^^ b.zeroExtend 16))))))))

/-- `CrcCore(b)` (R230). -/
def crcCore (bytes : List Byte) : BitVec 16 := bytes.foldl crcByte 0x0000#16

/-- swap(r) = r[7:0] ++ r[15:8], the value as the frame carries it (R231). -/
def crcSwap (r : BitVec 16) : BitVec 16 := r.extractLsb' 0 8 ++ r.extractLsb' 8 8

/-- The two CRC bytes of a frame: r[7:0], then r[15:8] (R231). -/
def crcBytes (r : BitVec 16) : List Byte := [r.extractLsb' 0 8, r.extractLsb' 8 8]

/-- The program of CRC (R232). -/
def progCrc (c : Cfg) (a0 : Word) : Prog ResultCode :=
  checked (offLenReserved a0) (pastRam c (argOff a0) (argLen a0))
    ((pMemRead (argOff a0) (argLen a0)).bind fun bytes =>
      (pWrite (.res0 ((crcCore bytes.1).zeroExtend 32))).andThen <|
      (pWrite (.res1 ((crcSwap (crcCore bytes.1)).zeroExtend 32))).andThen <|
      .pure .ok)

/-- CRC: compute the CRC of RAM bytes (R232). -/
def execCrc (s : State) : Host.Outcome State Fault Refusal := runCommand (progCrc s.cfg s.ctx.a0) s

end Sys2Proof.Machine
end

