-- ==== Sys2Proof/Machine/LineCodec.lean ====
section
/-! DEFINITION. The line codec and its two commands ENCODE and DECODE (spec/41_line_codec.md R200 to R212). A line bit
or sample is a Bool. -/

namespace Sys2Proof.Machine

/-- The bits of a byte, most significant first. -/
def bitsMsb (b : Byte) : List Bool :=
  [b.getLsbD 7, b.getLsbD 6, b.getLsbD 5, b.getLsbD 4, b.getLsbD 3, b.getLsbD 2, b.getLsbD 1, b.getLsbD 0]

/-- The byte whose bit 7 is `b7`, ..., bit 0 is `b0`. -/
def byteOfBits (b7 b6 b5 b4 b3 b2 b1 b0 : Bool) : Byte :=
  (BitVec.ofBool b7 ++ BitVec.ofBool b6 ++ BitVec.ofBool b5 ++ BitVec.ofBool b4 ++ BitVec.ofBool b3 ++ BitVec.ofBool b2
    ++ BitVec.ofBool b1 ++ BitVec.ofBool b0 : BitVec 8)

/-- `Pack(s)` for a sequence whose length is a multiple of 8: the first bit of each eight is bit 7 (R200). -/
def pack (bits : List Bool) : List Byte :=
  match bits with
  | b7 :: b6 :: b5 :: b4 :: b3 :: b2 :: b1 :: b0 :: rest => byteOfBits b7 b6 b5 b4 b3 b2 b1 b0 :: pack rest
  | _ => []

/-- `Unpack(bytes)`, the inverse (R200). -/
def unpack (bytes : List Byte) : List Bool := bytes.flatMap bitsMsb

/-- The 10-bit frame of a byte: start bit 0, the data bits least significant first, stop bit 1 (R201). -/
def lineFrame (b : Byte) : List Bool :=
  [false, b.getLsbD 0, b.getLsbD 1, b.getLsbD 2, b.getLsbD 3, b.getLsbD 4, b.getLsbD 5, b.getLsbD 6, b.getLsbD 7, true]

/-- The line-bit sequence of `EncodeCore` before its padding (R201). -/
def lineBits (bytes : List Byte) : List Bool := bytes.flatMap lineFrame

/-- A bit sequence extended with 1 bits to a multiple of 8 (R201). -/
def padOnes (bits : List Bool) : List Bool := bits ++ List.replicate ((8 - bits.length % 8) % 8) true

/-- `EncodeCore(b)` (R201). -/
def encodeCore (bytes : List Byte) : List Byte := pack (padOnes (lineBits bytes))

/-- ceil(10·n / 8), the length of the encoding of `n` bytes (R202). -/
def encodedLen (n : Nat) : Nat := (5 * n + 3) / 4

/-- The maximal runs of a sample sequence, with their lengths (R206). -/
def runs (samples : List Bool) : List (Bool × Nat) :=
  match samples with
  | [] => []
  | x :: rest =>
    match runs rest with
    | (v, n) :: more => if v = x then (v, n + 1) :: more else (x, 1) :: (v, n) :: more
    | [] => [(x, 1)]

/-- The line bits B of a sample sequence: each run rounded to the nearest whole number of bit periods, halves up;
runs that round to 0 are dropped without merging their neighbours (R207). -/
def lineBitsOf (osr : Nat) (samples : List Bool) : List Bool :=
  (runs samples).flatMap fun r => List.replicate ((r.2 + osr / 2) / osr) r.1

/-- The states of the framing machine (R208). -/
inductive FrameState where
  | hunt
  | data (acc : Byte) (k : Nat)
  | stop (acc : Byte)
deriving DecidableEq, Repr

/-- What one bit does to the framing machine (R208). -/
inductive FrameStep where
  | go (st : FrameState)
  | emitted (b : Byte)
  | framingError
deriving DecidableEq, Repr

/-- The framing machine on one line bit (R208). -/
def frameStep (st : FrameState) (x : Bool) : FrameStep :=
  match st with
  | .hunt => if x then .go .hunt else .go (.data 0#8 0)
  | .data acc k =>
    let acc := acc ||| ((BitVec.ofBool x).zeroExtend 8 <<< k)
    if k + 1 < 8 then .go (.data acc (k + 1)) else .go (.stop acc)
  | .stop acc => if x then .emitted acc else .framingError

/-- The loop of `DecodeCore` over the line bits, with `room` more bytes until the capacity: the bytes, and the stop
reason 0 end of input, 1 framing error, 2 capacity reached (R209). -/
def decodeBits (bits : List Bool) (st : FrameState) (room : Nat) : List Byte × Nat :=
  match bits with
  | [] => ([], 0)
  | x :: rest =>
    match frameStep st x with
    | .go st => decodeBits rest st room
    | .framingError => ([], 1)
    | .emitted b =>
      if room ≤ 1 then ([b], 2)
      else
        let r := decodeBits rest .hunt (room - 1)
        (b :: r.1, r.2)

/-- `DecodeCore(in, OSR, cap)`: the bytes and the stop reason; the count is the number of bytes (R209). -/
def decodeCore (bytes : List Byte) (osr cap : Nat) : List Byte × Nat :=
  if cap = 0 then ([], 2) else decodeBits (lineBitsOf osr (unpack bytes)) .hunt cap

/-- OSR of an osr code (R211). -/
def osrFactor : Osr → Nat
  | .x1 => 1
  | .x2 => 2
  | .x4 => 4

/-- The program of ENCODE (R203). -/
def progEncode (c : Cfg) (a0 a1 : Word) : Prog ResultCode :=
  checked (offLenReserved a0 || offReserved a1)
    (pastRam c (argOff a0) (argLen a0) || pastRam c (argOff a1) (encodedLen (argLen a0)))
    ((pMemRead (argOff a0) (argLen a0)).bind fun bytes =>
      (pMemWrite (argOff a1) (encodeCore bytes.1)).andThen <|
      (pWrite (.res0 (BitVec.ofNat 32 (encodeCore bytes.1).length))).andThen <|
      .pure .ok)

/-- The program of DECODE (R212): zero fill of the output region, then the decoded bytes (R210). -/
def progDecode (c : Cfg) (osr : Osr) (a0 a1 : Word) : Prog ResultCode :=
  checked (offLenReserved a0 || offLenReserved a1)
    (pastRam c (argOff a0) (argLen a0) || pastRam c (argOff a1) (argLen a1))
    ((pMemRead (argOff a0) (argLen a0)).bind fun bytes =>
      let r := decodeCore bytes.1 (osrFactor osr) (argLen a1)
      (pMemWrite (argOff a1) (List.replicate (argLen a1) 0#8)).andThen <|
      (pMemWrite (argOff a1) r.1).andThen <|
      (pWrite (.res0 (BitVec.ofNat 32 r.1.length))).andThen <|
      (pWrite (.res1 (BitVec.ofNat 32 r.2))).andThen <|
      .pure .ok)

/-- ENCODE: line-encode RAM bytes (R203). -/
def execEncode (s : State) : Host.Outcome State Fault Refusal := runCommand (progEncode s.cfg s.ctx.a0 s.ctx.a1) s

/-- DECODE: line-decode RAM bytes (R212). -/
def execDecode (osr : Osr) (s : State) : Host.Outcome State Fault Refusal :=
  runCommand (progDecode s.cfg osr s.ctx.a0 s.ctx.a1) s

end Sys2Proof.Machine
end

