-- ==== Sys2Proof/Machine/Binary32.lean ====
section
/-! DEFINITION. IEEE 754 binary32 as far as the RRB uses it (spec/00_scope.md R15, spec/40_radio_interface.md R150): the
exact value of a bit pattern, rounding to a given precision, comparison, addition, the frequency word, and the check of
the configuration (R13). Magnitudes are naturals in units of 2^-149, the smallest positive binary32, so every binary32
and every constant of R150 is a whole number of units and every intermediate value is exact. -/

namespace Sys2Proof.Machine

/-- The biased exponent, bits 30:23. -/
def f32Exp (w : Word) : Nat := (w.extractLsb' 23 8).toNat

/-- The fraction, bits 22:0. -/
def f32Frac (w : Word) : Nat := (w.extractLsb' 0 23).toNat

/-- The sign, bit 31 (R88 f). -/
def f32Neg (w : Word) : Bool := w.getLsbD 31

/-- Neither infinite nor NaN. -/
def f32Finite (w : Word) : Bool := f32Exp w != 255

/-- NaN. -/
def f32NaN (w : Word) : Bool := f32Exp w == 255 && f32Frac w != 0

/-- |w| in units of 2^-149; for an infinity, 2^128 in these units, above every finite value. -/
def f32Mag (w : Word) : Nat :=
  if f32Exp w = 0 then f32Frac w else (2 ^ 23 + f32Frac w) * 2 ^ (f32Exp w - 1)

/-- The value of w in units of 2^-149; -0 is 0. -/
def f32Val (w : Word) : Int := if f32Neg w then -(f32Mag w : Int) else (f32Mag w : Int)

/-- `x` megahertz in units of 2^-149. -/
def mhz (x : Nat) : Nat := x * 2 ^ 149

/-- The frequency domain of SETFREQ and RINIT: finite, not below 0 (-0 is allowed), below 6656 (R160, R260). -/
def f32InDomain (w : Word) : Bool :=
  f32Finite w && decide (0 ≤ f32Val w) && decide (f32Val w < (mhz 6656 : Int))

/-- `n` rounded to `p` significant bits, to nearest, ties to even (R15). -/
def roundSig (p n : Nat) : Nat :=
  let len := if n = 0 then 0 else Nat.log2 n + 1
  if len ≤ p then n
  else
    let unit := 2 ^ (len - p)
    let q := n / unit
    let r := n % unit
    let half := unit / 2
    (if half < r ∨ (r = half ∧ q % 2 = 1) then q + 1 else q) * unit

/-- round32 of a magnitude in units of 2^-149 (24 significant bits; below 2^24 units every whole number is exact). -/
def round32 (n : Nat) : Nat := roundSig 24 n

/-- round64 of a magnitude in units of 2^-149 (53 significant bits). -/
def round64 (n : Nat) : Nat := roundSig 53 n

/-- The bits of round32 of a magnitude `n`; +infinity where it reaches 2^128. -/
def f32Bits (n : Nat) : Word :=
  let r := round32 n
  if 2 ^ 277 ≤ r then 0x7F800000#32
  else if r < 2 ^ 23 then BitVec.ofNat 32 r
  else
    let k := Nat.log2 r - 23
    BitVec.ofNat 32 ((k + 1) * 2 ^ 23 + (r / 2 ^ k - 2 ^ 23))

/-- `round32(a + b)` for values that are not negative, as bits (R275; log 19). -/
def f32AddPos (a b : Word) : Word := f32Bits (f32Mag a + f32Mag b)

/-- ulp32(x): the distance from |x| to the next larger binary32 (R15), in units of 2^-149. -/
def f32Ulp (w : Word) : Nat := 2 ^ (f32Exp w - 1)

/-! ### The frequency word (R150) -/

/-- The binary64 nearest a step size that CFG gives in units of 10^-8 MHz, in units of 2^-149 MHz: C_HI = 26 and C_MID =
0.1015625 are exact, and C_LO = round64(0.00039675). The floor below 2^-149 MHz is far from any tie of these three. -/
def stepUnits (x : Nat) : Nat := round64 (mhz x / 10 ^ 8)

/-- One subtraction of R150: exact, rounded to binary64, then to binary32. -/
def stepDown (x c : Nat) : Nat := round32 (round64 (x - c))

/-- The loop of R150 with steps C_HI, C_MID, C_LO from accumulator `x` and counts `h`, `m`, `l`, for at most `fuel`
iterations. -/
def freqLoop (cHi cMid cLo fuel x h m l : Nat) : Nat × Nat × Nat :=
  match fuel with
  | 0 => (h, m, l)
  | fuel + 1 =>
    if cHi ≤ x then freqLoop cHi cMid cLo fuel (stepDown x cHi) (h + 1) m l
    else if cMid ≤ x then freqLoop cHi cMid cLo fuel (stepDown x cMid) h (m + 1) l
    else if cLo ≤ x then freqLoop cHi cMid cLo fuel (stepDown x cLo) h m (l + 1)
    else (h, m, l)

/-- The iterations the loop of R150 is given; R150 bounds them below 800 (log 15). -/
def freqFuel : Nat := 800

/-- The three bytes of the counts, high, mid, low, with the low byte's overflow carried into the mid byte (R150). -/
def freqBytes (counts : Nat × Nat × Nat) : BitVec 24 :=
  let (h, m, l) := counts
  let (m, l) := if 255 < l then (m + 1, l - 256) else (m, l)
  BitVec.ofNat 8 h ++ BitVec.ofNat 8 m ++ BitVec.ofNat 8 l

/-- `FreqWordCore(f)` (R150). -/
def freqWordCore (c : Cfg) (f : Word) : BitVec 24 :=
  freqBytes (freqLoop (stepUnits c.fstepHi) (stepUnits c.fstepMid) (stepUnits c.fstepLo) freqFuel (f32Mag f) 0 0 0)

/-- `Valid(v)`: not NaN, and FREQ_MIN ≤ v ≤ FREQ_MAX exactly (R282). -/
def freqValid (c : Cfg) (v : Word) : Bool :=
  !f32NaN v && decide (f32Val c.freqMin ≤ f32Val v) && decide (f32Val v ≤ f32Val c.freqMax)

/-! ### The configuration check (R13) -/

/-- No address stands twice in a register table (R13 a). -/
def tableDistinct (t : List (ChipAddr × Byte)) : Bool :=
  match t with
  | [] => true
  | (a, _) :: rest => !rest.any (fun e => e.1 == a) && tableDistinct rest

/-- The tables of R13 (a) to (c). -/
def cfgTablesOk (c : Cfg) : Bool :=
  tableDistinct c.presetDefault && (tableDistinct c.presetSync && (tableDistinct c.presetData && (tableDistinct c.txConfig
    && (c.presetSync.contains (c.regSync1, 0x55#8) && (c.presetSync.contains (c.regSync0, 0x50#8)
    && (c.presetSync.contains (c.regPktlen, 0x01#8)
    && (c.presetData.contains (c.regSync1, 0xFF#8) && c.presetData.contains (c.regSync0, 0xF0#8))))))))

/-- The raw capture lengths of R13 (d). -/
def cfgLengthsOk (c : Cfg) : Bool :=
  decide (1 ≤ c.ackRawLen) && decide (c.ackRawLen ≤ c.rxrSize - 127)
    && decide (1 ≤ c.respRawLen) && decide (c.respRawLen ≤ c.rxrSize - 127)

/-- The discovery range of R13 (e). -/
def cfgFreqOk (c : Cfg) : Bool :=
  f32Finite c.freqMin && f32Finite c.freqMax && f32Finite c.freqStep
    && decide (0 ≤ f32Val c.freqMin) && decide (f32Val c.freqMin ≤ f32Val c.freqMax)
    && decide (f32Val c.freqMax < (mhz 6656 : Int)) && decide (0 < f32Val c.freqStep)
    && decide ((f32Ulp c.freqMax : Int) ≤ f32Val c.freqStep)

/-- The frame positions of R13 (f): four distinct offsets in 0..16. -/
def cfgPositionsOk (c : Cfg) : Bool :=
  decide (c.yearPos ≤ 16) && decide (c.serialPos + 2 ≤ 16)
    && (decide (c.yearPos < c.serialPos) || decide (c.serialPos + 2 < c.yearPos))

/-- The times of R13 (g). -/
def cfgTimesOk (c : Cfg) : Bool :=
  [c.statePollMs, c.waitStateMs, c.edgePollMs, c.fifoPollMs, c.settleMs, c.prePaceMs, c.postPreMs, c.frameHoldMs,
    c.ackTmoMs, c.respTmoMs].all (fun t => decide (t ≤ 65535))
    && decide (1 ≤ c.statePollMs) && decide (1 ≤ c.edgePollMs) && decide (1 ≤ c.fifoPollMs)

/-- The RAM and its regions as R11 and R80 fix them (DEDUCED, log 6). -/
def cfgLayoutOk (c : Cfg) : Bool :=
  decide (c.ramSize = ramSize) && decide (c.txrBase = 0x000) && decide (c.txrSize = 128) && decide (c.decrBase = 0x080)
    && decide (c.decCap = 256) && decide (c.rxrBase = 0x180) && decide (c.rxrSize = 1664)

/-- The step sizes as R150 fixes them, 26, 0.1015625 and 0.00039675 MHz (DEDUCED, log 6). -/
def cfgStepsOk (c : Cfg) : Bool :=
  decide (c.fstepHi = 2600000000) && decide (c.fstepMid = 10156250) && decide (c.fstepLo = 39675)

/-- One burst is at most 127 bytes, the room of R13 (d): so R266 and R301 say that no capture of an attempt ends with ALLOC
under a configuration a model takes (DEDUCED, log 24). -/
def cfgBurstOk (c : Cfg) : Bool := decide (c.occMask.toNat ≤ 127)

/-- `CFG` is well-formed: R13 (a) to (g), the values R11, R80 and R150 fix, and the burst bound. A model refuses a
configuration that fails one. -/
def cfgWf (c : Cfg) : Bool :=
  cfgTablesOk c && (cfgLengthsOk c && (cfgFreqOk c && (cfgPositionsOk c && (cfgTimesOk c && (cfgLayoutOk c
    && (cfgStepsOk c && cfgBurstOk c))))))

end Sys2Proof.Machine
end

