-- ==== Sys2Proof/Machine/Rif.lean ====
section
/-! DEFINITION. The radio interface: exchange shapes, polling, register tables, tuning, and the commands WREG to PRESET
(spec/40_radio_interface.md R140 to R163). -/

namespace Sys2Proof.Machine

/-! ### Exchange shapes (R141 to R143) -/

/-- `hdr(r, b, a) = (r << HDR_READ_BIT) | (b << HDR_BURST_BIT) | a` (R142, R12). -/
def hdr (c : Cfg) (r b : Bool) (a : ChipAddr) : Byte :=
  ((BitVec.ofBool r).zeroExtend 8 <<< c.hdrReadBit.val) ||| ((BitVec.ofBool b).zeroExtend 8 <<< c.hdrBurstBit.val)
    ||| a.zeroExtend 8

/-- `XW(a, bst, v)`: single write (R141). -/
def xw (c : Cfg) (a : ChipAddr) (bst : Bool) (v : Byte) : Prog Unit :=
  (pXfer (hdr c false bst a) [v]).andThen (.pure ())

/-- `XR(a, bst)`: single read; the dummy byte is 0x00 (R141, R143). -/
def xr (c : Cfg) (a : ChipAddr) (bst : Bool) : Prog Byte :=
  (pXfer (hdr c true bst a) [0x00#8]).bind fun ans =>
    .pure (ans.2.1.head (List.ne_nil_of_length_eq_add_one ans.2.2))

/-- `XBW(a, bytes)`: burst write (R141). -/
def xbw (c : Cfg) (a : ChipAddr) (bytes : List Byte) : Prog Unit :=
  (pXfer (hdr c false true a) bytes).andThen (.pure ())

/-- `XBR(a, n)`: burst read of `n` bytes (R141, R143). -/
def xbr (c : Cfg) (a : ChipAddr) (n : Nat) : Prog (List Byte) :=
  (pXfer (hdr c true true a) (List.replicate n 0x00#8)).bind fun ans => .pure ans.2.1

/-- `XS(code)`: strobe (R141). -/
def xs (c : Cfg) (code : ChipAddr) : Prog Unit :=
  (pXfer (hdr c false false code) []).andThen (.pure ())

/-! ### Polling (R144 to R146) -/

/-- The loop of `PollUntil`, from `t0`, for at most `fuel` evaluations of the predicate. Each round that goes on delays
at least 1 ms (R13 g), so `T + 1` evaluations always suffice (log 15). -/
def pollLoop (pred : Prog Bool) (i t : Nat) (t0 : Word) (fuel : Nat) : Prog (Bool × Word) :=
  match fuel with
  | 0 => (pRead .now).bind fun now => .pure (false, now - t0)
  | fuel + 1 =>
    pred.bind fun hit =>
    (pRead .now).bind fun now =>
      if hit then .pure (true, now - t0)
      else if t ≤ (now - t0).toNat then .pure (false, now - t0)
      else (pDelay (min i (t - (now - t0).toNat))).andThen (pollLoop pred i t t0 fuel)

/-- `PollUntil(pred, I, T)`: (reached, elapsed) (R144). -/
def pollUntil (pred : Prog Bool) (i t : Nat) : Prog (Bool × Word) :=
  (pRead .now).bind fun t0 => pollLoop pred i t t0 (t + 1)

/-- The predicate of `WaitStateCore`: one read of the poll register, its value discarded, then the test of the
ChipStatus it has refreshed (R145). -/
def statePoll (c : Cfg) (target : BitVec 3) : Prog Bool :=
  (xr c c.regStatePoll true).andThen <|
  (pRead .csState).bind fun st => .pure (st == target.zeroExtend 32)

/-- `WaitStateCore(target, T)` (R145). -/
def waitStateCore (c : Cfg) (target : BitVec 3) (t : Nat) : Prog (Bool × Word) :=
  pollUntil (statePoll c target) c.statePollMs t

/-- The predicate of `WaitEdgeCore`: one sample of the line, recorded (R146). -/
def edgePoll (level : Bool) : Prog Bool :=
  pGdo.bind fun g => (pNote (.gdo g)).andThen (.pure (g == level))

/-- `WaitEdgeCore(level, T)` (R146). -/
def waitEdgeCore (c : Cfg) (level : Bool) (t : Nat) : Prog (Bool × Word) :=
  pollUntil (edgePoll level) c.edgePollMs t

/-! ### Reset, tables and frequency word (R147 to R150) -/

/-- `ResetCore()` (R147). -/
def resetCore (c : Cfg) : Prog Unit :=
  (xs c c.sRes).andThen <| (pDelay c.settleMs).andThen <|
  (xs c c.sFrx).andThen <| (pDelay c.settleMs).andThen <|
  (xs c c.sFtx).andThen <| (pDelay c.settleMs)

/-- `subst(a, v)` under the FREQ_WORD `w` (R148). -/
def substFreq (c : Cfg) (w : Word) (a : ChipAddr) (v : Byte) : Byte :=
  if a = c.regFreq2 then w.extractLsb' 16 8
  else if a = c.regFreq1 then w.extractLsb' 8 8
  else if a = c.regFreq0 then w.extractLsb' 0 8
  else v

/-- One entry put into a table that rises by address. -/
def insertEntry (e : ChipAddr × Byte) (t : List (ChipAddr × Byte)) : List (ChipAddr × Byte) :=
  match t with
  | [] => [e]
  | f :: rest => if e.1.toNat ≤ f.1.toNat then e :: f :: rest else f :: insertEntry e rest

/-- The entries of a table in increasing order of address (R149). -/
def inAddressOrder (t : List (ChipAddr × Byte)) : List (ChipAddr × Byte) :=
  match t with
  | [] => []
  | e :: rest => insertEntry e (inAddressOrder rest)

/-- The writes of a table's entries, in the order given (R149). -/
def writeEntries (c : Cfg) (t : List (ChipAddr × Byte)) : Prog Unit :=
  match t with
  | [] => .pure ()
  | (a, v) :: rest =>
    (pRead .freqWord).bind fun w => (xw c a false (substFreq c w a v)).andThen (writeEntries c rest)

/-- `ApplyTable(Tab)` (R149). -/
def applyTable (c : Cfg) (t : List (ChipAddr × Byte)) : Prog Unit := writeEntries c (inAddressOrder t)

/-- The table of an id (R149). -/
def tableOf (c : Cfg) : PresetId → List (ChipAddr × Byte)
  | .default => c.presetDefault
  | .sync => c.presetSync
  | .data => c.presetData
  | .txcfg => c.txConfig

/-- `SetFreqCore(f)` (R160). -/
def setFreqCore (c : Cfg) (f : Word) : Prog Unit :=
  (pWrite (.freqWord (freqWordCore c f))).andThen <|
  (xw c c.regFreq2 false ((freqWordCore c f).extractLsb' 16 8)).andThen <|
  (xw c c.regFreq1 false ((freqWordCore c f).extractLsb' 8 8)).andThen <|
  (xw c c.regFreq0 false ((freqWordCore c f).extractLsb' 0 8))

/-! ### FIFO drain (R158, R159) -/

/-- `Occ()` (R158). -/
def occ (c : Cfg) : Prog Nat := (xr c c.regRxbytes true).bind fun v => .pure (v &&& c.occMask).toNat

/-- What `DrainCore` returns: the count or 0, the code, the bytes written (R159). -/
structure Drained where
  ret : Nat
  code : ResultCode
  count : Nat
deriving DecidableEq, Repr

/-- The end of one round of `DrainCore`: the target test, then the timeout test, else the delay and the next round (R159). -/
def drainCheck (c : Cfg) (t n : Nat) (t0 : Word) (got : Nat) (again : Prog Drained) : Prog Drained :=
  if n ≤ got then .pure ⟨got, .ok, got⟩
  else
    (pRead .now).bind fun now =>
      if t ≤ (now - t0).toNat then .pure ⟨0, .timeout, got⟩
      else (pDelay (min c.fifoPollMs (t - (now - t0).toNat))).andThen again

/-- The loop of `DrainCore` with `got` bytes captured, for at most `fuel` rounds. Each round that goes on delays at
least 1 ms, so `T + 1` rounds always suffice (log 15). -/
def drainLoop (c : Cfg) (t n off : Nat) (t0 : Word) (got fuel : Nat) : Prog Drained :=
  match fuel with
  | 0 => .pure ⟨0, .timeout, got⟩
  | fuel + 1 =>
    (occ c).bind fun q =>
      if q = 0 then drainCheck c t n t0 got (drainLoop c t n off t0 got fuel)
      else if pastRam c (off + got) q then .pure ⟨0, .alloc, got⟩
      else
        (xbr c c.fifoAddr q).bind fun d =>
        (pMemWrite (off + got) d).andThen <|
        drainCheck c t n t0 (got + q) (drainLoop c t n off t0 (got + q) fuel)

/-- `DrainCore(T, N, off)` (R159). -/
def drainCore (c : Cfg) (t n off : Nat) : Prog Drained :=
  (pRead .now).bind fun t0 => drainLoop c t n off t0 0 (t + 1)

/-! ### The programs of the commands -/

/-- WREG (R151). -/
def progWreg (c : Cfg) (addr : ChipAddr) (bst : Bool) (value : Byte) : Prog ResultCode :=
  (xw c addr bst value).andThen (.pure .ok)

/-- RREG (R152). -/
def progRreg (c : Cfg) (addr : ChipAddr) (bst : Bool) : Prog ResultCode :=
  (xr c addr bst).bind fun v => (pWrite (.res0 (v.zeroExtend 32))).andThen (.pure .ok)

/-- WBURST (R153). -/
def progWburst (c : Cfg) (addr : ChipAddr) (n : Byte) (a0 : Word) : Prog ResultCode :=
  checked (offReserved a0 || n == 0#8) (pastRam c (argOff a0) n.toNat)
    ((pMemRead (argOff a0) n.toNat).bind fun bytes => (xbw c addr bytes.1).andThen (.pure .ok))

/-- RBURST (R154). -/
def progRburst (c : Cfg) (addr : ChipAddr) (n : Byte) (a0 : Word) : Prog ResultCode :=
  checked (offReserved a0 || n == 0#8) (pastRam c (argOff a0) n.toNat)
    ((xbr c addr n.toNat).bind fun d => (pMemWrite (argOff a0) d).andThen (.pure .ok))

/-- STROBE (R155). -/
def progStrobe (c : Cfg) (code : ChipAddr) : Prog ResultCode := (xs c code).andThen (.pure .ok)

/-- The end of a wait: RES0 says whether it was reached, RES1 the elapsed time (R156, R157). -/
def waitResult (r : Bool × Word) : Prog ResultCode :=
  (pWrite (.res0 (if r.1 then 1#32 else 0#32))).andThen <|
  (pWrite (.res1 r.2)).andThen <|
  .pure (if r.1 then .ok else .timeout)

/-- WAITST (R156). -/
def progWaitst (c : Cfg) (target : BitVec 3) (a0 : Word) : Prog ResultCode :=
  checked (msReserved a0) false ((waitStateCore c target (argMs a0)).bind waitResult)

/-- WAITEDGE (R157). -/
def progWaitedge (c : Cfg) (level : Bool) (a0 : Word) : Prog ResultCode :=
  checked (msReserved a0) false ((waitEdgeCore c level (argMs a0)).bind waitResult)

/-- DRAIN (R159): N = 0 and N > 2048 are BADARG; the RAM range is checked at each burst. -/
def progDrain (c : Cfg) (a0 a1 : Word) : Prog ResultCode :=
  checked (offReserved a1 || decide (argLen a0 = 0) || decide (c.ramSize < argLen a0)) false
    ((drainCore c (argMs a0) (argLen a0) (argOff a1)).bind fun r =>
      (pWrite (.res0 (BitVec.ofNat 32 r.ret))).andThen <|
      (pWrite (.res1 (BitVec.ofNat 32 r.count))).andThen <|
      .pure r.code)

/-- SETFREQ (R160). -/
def progSetfreq (c : Cfg) (a0 : Word) : Prog ResultCode :=
  checked (!f32InDomain a0) false
    ((setFreqCore c a0).andThen <|
      (pRead .freqWord).bind fun w => (pWrite (.res0 w)).andThen (.pure .ok))

/-- dBm of a raw RSSI byte, by division truncating toward zero (R161, R15). -/
def rssiDbm (c : Cfg) (raw : Byte) : Int :=
  if 128 ≤ raw.toNat then ((raw.toNat : Int) - 256).tdiv 2 - c.rssiOffset else (raw.toNat : Int).tdiv 2 - c.rssiOffset

/-- RSSI (R161). RES0 is dBm as a 32-bit two's-complement number, as R161's example and V102 give it (DEDUCED, log 10). -/
def progRssi (c : Cfg) (raw : Byte) : Prog ResultCode :=
  (pWrite (.res0 (BitVec.ofInt 32 (rssiDbm c raw)))).andThen (.pure .ok)

/-- RRESET (R162). -/
def progRreset (c : Cfg) : Prog ResultCode := (resetCore c).andThen (.pure .ok)

/-- PRESET (R163). -/
def progPreset (c : Cfg) (id : PresetId) : Prog ResultCode := (applyTable c (tableOf c id)).andThen (.pure .ok)

/-! ### The meanings of the commands -/

/-- WREG: write one chip register (R151). -/
def execWreg (addr : ChipAddr) (bst : Bool) (value : Byte) (s : State) : Host.Outcome State Fault Refusal :=
  runCommand (progWreg s.cfg addr bst value) s

/-- RREG: read one chip register (R152). -/
def execRreg (addr : ChipAddr) (bst : Bool) (s : State) : Host.Outcome State Fault Refusal :=
  runCommand (progRreg s.cfg addr bst) s

/-- WBURST: burst-write RAM bytes to the chip (R153). -/
def execWburst (addr : ChipAddr) (n : Byte) (s : State) : Host.Outcome State Fault Refusal :=
  runCommand (progWburst s.cfg addr n s.ctx.a0) s

/-- RBURST: burst-read chip bytes into RAM (R154). -/
def execRburst (addr : ChipAddr) (n : Byte) (s : State) : Host.Outcome State Fault Refusal :=
  runCommand (progRburst s.cfg addr n s.ctx.a0) s

/-- STROBE: send a command strobe (R155). -/
def execStrobe (code : ChipAddr) (s : State) : Host.Outcome State Fault Refusal := runCommand (progStrobe s.cfg code) s

/-- WAITST: wait for an operating state (R156). -/
def execWaitst (target : BitVec 3) (s : State) : Host.Outcome State Fault Refusal :=
  runCommand (progWaitst s.cfg target s.ctx.a0) s

/-- WAITEDGE: wait for a GDO level (R157). -/
def execWaitedge (level : Bool) (s : State) : Host.Outcome State Fault Refusal :=
  runCommand (progWaitedge s.cfg level s.ctx.a0) s

/-- DRAIN: drain the chip's RX FIFO into RAM (R159). -/
def execDrain (s : State) : Host.Outcome State Fault Refusal := runCommand (progDrain s.cfg s.ctx.a0 s.ctx.a1) s

/-- SETFREQ: compute and apply a frequency word (R160). -/
def execSetfreq (s : State) : Host.Outcome State Fault Refusal := runCommand (progSetfreq s.cfg s.ctx.a0) s

/-- RSSI: convert a raw RSSI byte to dBm (R161). -/
def execRssi (raw : Byte) (s : State) : Host.Outcome State Fault Refusal := runCommand (progRssi s.cfg raw) s

/-- RRESET: reset the chip and flush its FIFOs (R162). -/
def execRreset (s : State) : Host.Outcome State Fault Refusal := runCommand (progRreset s.cfg) s

/-- PRESET: apply a named register table (R163). -/
def execPreset (id : PresetId) (s : State) : Host.Outcome State Fault Refusal := runCommand (progPreset s.cfg id) s

end Sys2Proof.Machine
end

