-- ==== Sys2Proof/Machine/Psm.lean ====
section
/-! DEFINITION. The protocol state machine: request frame, field extraction, tuning, the read-out attempt, discovery and
start-up, and the commands BUILDREQ to BOOT (spec/43_protocol_engine.md R240 to R282). -/

namespace Sys2Proof.Machine

/-! ### Request frame (R240) -/

/-- The 17 payload bytes: the template with year and serial put in, the serial most significant byte first (R240). -/
def reqPayload (c : Cfg) (meterId : Word) : List Byte :=
  (((c.reqTemplate.1.set c.yearPos (meterId.extractLsb' 24 8)).set c.serialPos (meterId.extractLsb' 16 8)).set
    (c.serialPos + 1) (meterId.extractLsb' 8 8)).set (c.serialPos + 2) (meterId.extractLsb' 0 8)

/-- The CRC register of the request payload (R240). -/
def reqCrc (c : Cfg) (meterId : Word) : BitVec 16 := crcCore (reqPayload c meterId)

/-- The frame of `BuildReqCore`: the prefix sent raw, then the line-encoded payload with its two CRC bytes (R240). -/
def reqFrame (c : Cfg) (meterId : Word) : List Byte :=
  c.syncPrefix.1 ++ encodeCore (reqPayload c meterId ++ crcBytes (reqCrc c meterId))

/-! ### Field extraction (R250) -/

/-- Byte `k` of the 49 bytes extraction reads. -/
def fieldByte (b : Bytes extractLen) (k : Fin extractLen) : Byte := b.1[k.val]'(by rw [b.2]; exact k.isLt)

/-- Byte `k` of the index field, counted from OFF_INDEX. -/
def indexByte (c : Cfg) (b : Bytes extractLen) (k : Fin 4) : Byte :=
  fieldByte b ⟨c.offIndex.val + k.val, show _ < 49 by have := c.offIndex.isLt; omega⟩

/-- The little-endian index at OFF_INDEX (R250, R88 c). -/
def indexOf (c : Cfg) (b : Bytes extractLen) : Word :=
  indexByte c b 3 ++ indexByte c b 2 ++ indexByte c b 1 ++ indexByte c b 0

/-- `ExtractCore(src, d)`: true when the fields were extracted (R250). -/
def extractCore (c : Cfg) (src d : Nat) : Prog Bool :=
  (pWrite (.rdIndex 0#32)).andThen <|
  (pWrite (.rdMisc 0#32)).andThen <|
  if d < c.minDecoded then .pure false
  else
    (pMemRead src extractLen).bind fun b =>
    (pWrite (.rdIndex (indexOf c b))).andThen <|
    (pWrite (.numReadings (fieldByte b c.offReads))).andThen <|
    (pWrite (.battery (fieldByte b c.offBattery))).andThen <|
    (pWrite (.wakeStart (fieldByte b c.offWakeStart))).andThen <|
    (pWrite (.wakeStop (fieldByte b c.offWakeStop))).andThen <|
    .pure true

/-- `RD_INDEX = 0 and RD_MISC = 0` (R251, R262). -/
def readingZero : Prog Bool :=
  (pRead .rdIndex).bind fun i => (pRead .rdMisc).bind fun m => .pure (i == 0#32 && m == 0#32)

/-! ### Tuning (R260) -/

/-- `RInitCore(f)`: reset, then frequency, then default table (R260, R335). -/
def rinitCore (c : Cfg) (f : Word) : Prog Unit :=
  (resetCore c).andThen <| (setFreqCore c f).andThen <| applyTable c c.presetDefault

/-! ### Read-out attempt (R262) -/

/-- What `AttemptCore` returns: the code (OK on Success alone), the response bytes captured, the bytes decoded. -/
structure Attempt where
  code : ResultCode
  nr : Nat
  d : Nat
deriving DecidableEq, Repr

/-- `Fail(c)` (R267). -/
def attemptFail (code : ResultCode) (nr d : Nat) : Prog Attempt :=
  (pWrite (.rdIndex 0#32)).andThen <|
  (pWrite (.rdMisc 0#32)).andThen <|
  (pWrite (.att .failed)).andThen <|
  .pure ⟨code, nr, d⟩

/-- The wake-up preamble: PRE_CHUNKS burst writes of PRE_CHUNK_LEN bytes PRE_BYTE, each followed by PRE_PACE_MS (R264). -/
def preamble (c : Cfg) : Prog Unit :=
  Prog.times c.preChunks ((xbw c c.fifoAddr (List.replicate c.preChunkLen c.preByte)).andThen (pDelay c.prePaceMs))

/-- The request sent: frame built, staged in TXR, burst-written, the TX FIFO flushed, the default table restored (R262, R263). -/
def sendRequest (c : Cfg) : Prog Unit :=
  (pRead .meterId).bind fun m =>
  (pMemWrite c.txrBase (reqFrame c m)).andThen <|
  (pMemRead c.txrBase frameLen).bind fun f =>
  (xbw c c.fifoAddr f.1).andThen <|
  (pDelay c.frameHoldMs).andThen <|
  (xs c c.sFtx).andThen <|
  applyTable c c.presetDefault

/-- Success: the state, and one PUBLISH of the five fields (R269). -/
def attemptSuccess (nr d : Nat) : Prog Attempt :=
  (pWrite (.att .success)).andThen <|
  (pRead .rdIndex).bind fun i =>
  (pRead .rdMisc).bind fun m =>
  (pNote (.publish i (m.extractLsb' 0 8) (m.extractLsb' 8 8) (m.extractLsb' 16 8) (m.extractLsb' 24 8))).andThen <|
  .pure ⟨.ok, nr, d⟩

/-- The phase Decoding on `nr` captured bytes (R262, R268). -/
def attemptDecode (c : Cfg) (nr : Nat) : Prog Attempt :=
  (pWrite (.att .decoding)).andThen <|
  (pMemRead c.rxrBase nr).bind fun raw =>
  let out := (decodeCore raw.1 (osrFactor c.respOsr) c.decCap).1
  (pMemWrite c.decrBase (List.replicate c.decCap 0#8)).andThen <|
  (pMemWrite c.decrBase out).andThen <|
  (extractCore c c.decrBase out.length).bind fun okay =>
    if okay then readingZero.bind fun zero =>
      if zero then attemptFail .zeroReading nr out.length else attemptSuccess nr out.length
    else attemptFail .malformed nr out.length

/-- The response capture of WaitingForResponse: the bytes captured and the phase's code (R262, R266). -/
def captureResponse (c : Cfg) : Prog (Nat × ResultCode) :=
  (waitStateCore c c.stateRx c.waitStateMs).bind fun rx =>
    if rx.1 then
      (waitEdgeCore c (!c.ackEdgeLevel) c.respTmoMs).bind fun edge =>
        if edge.1 then
          (drainCore c c.respTmoMs c.respRawLen c.rxrBase).bind fun r => .pure (r.ret, r.code)
        else .pure (0, .timeout)
    else .pure (0, .timeout)

/-- The phase WaitingForResponse; PRESET_DEFAULT is applied on every outcome (R262, R266). -/
def attemptResponse (c : Cfg) : Prog Attempt :=
  (pWrite (.att .waitingForResponse)).andThen <|
  (applyTable c c.presetData).andThen <|
  (xs c c.sFrx).andThen <|
  (xs c c.sRx).andThen <|
  (captureResponse c).bind fun r =>
  (applyTable c c.presetDefault).andThen <|
    if r.2 = .ok then attemptDecode c r.1 else attemptFail r.2 r.1 0

/-- The phase WaitingForAck (R262, R265). -/
def attemptAck (c : Cfg) : Prog Attempt :=
  (pWrite (.att .waitingForAck)).andThen <|
  (applyTable c c.presetSync).andThen <|
  (xs c c.sRx).andThen <|
  (waitStateCore c c.stateRx c.waitStateMs).bind fun rx =>
    if rx.1 then
      (waitEdgeCore c c.ackEdgeLevel c.ackTmoMs).bind fun edge =>
        if edge.1 then
          (drainCore c c.ackTmoMs c.ackRawLen c.rxrBase).bind fun r =>
            if r.code = .ok then attemptResponse c else attemptFail r.code 0 0
        else attemptFail .timeout 0 0
    else attemptFail .timeout 0 0

/-- `AttemptCore()` (R262). -/
def attemptCore (c : Cfg) : Prog Attempt :=
  (pWrite (.rdIndex 0#32)).andThen <|
  (pWrite (.rdMisc 0#32)).andThen <|
  (pWrite (.att .transmitting)).andThen <|
  (applyTable c c.txConfig).andThen <|
  (xs c c.sTx).andThen <|
  (waitStateCore c c.stateTx c.waitStateMs).bind fun tx =>
    if tx.1 then
      (preamble c).andThen <| (pDelay c.postPreMs).andThen <| (sendRequest c).andThen <| attemptAck c
    else attemptFail .timeout 0 0

/-! ### Frequency discovery (R275) -/

/-- What `DiscoverCore` returns: the frequency found, and the candidates tried. -/
structure Discovery where
  found : Option Word
  tried : Nat
deriving DecidableEq, Repr

/-- The scan from candidate `f`, for at most `fuel` candidates. The candidates are binary32 bit patterns that rise
strictly (R13 e), so `FREQ_MAX`'s own bits bound their number (R278, log 15). -/
def discoverLoop (c : Cfg) (f : Word) (tried fuel : Nat) : Prog Discovery :=
  match fuel with
  | 0 => (pWrite (.disc false)).andThen (.pure ⟨none, tried⟩)
  | fuel + 1 =>
    if f32Val f ≤ f32Val c.freqMax then
      (pWrite (.cand f)).andThen <|
      (rinitCore c f).andThen <|
      (attemptCore c).bind fun a =>
        if a.code = .ok then
          (pWrite (.freqMhz f)).andThen <|
          (pNote (.store f)).andThen <|
          (pWrite (.disc false)).andThen <|
          .pure ⟨some f, tried + 1⟩
        else discoverLoop c (f32AddPos f c.freqStep) (tried + 1) fuel
    else (pWrite (.disc false)).andThen (.pure ⟨none, tried⟩)

/-- The candidates a scan is given at most (R278, log 15). -/
def discoverFuel (c : Cfg) : Nat := c.freqMax.toNat + 2

/-- `DiscoverCore()` (R275). -/
def discoverCore (c : Cfg) : Prog Discovery :=
  (pWrite (.disc true)).andThen (discoverLoop c c.freqMin 0 (discoverFuel c))

/-- The end of DISCOVER and of BOOT's discovery: RES0 is the frequency found or 0, the code OK or NOT_FOUND (R275, R281). -/
def discoverResult (found : Option Word) : Prog ResultCode :=
  match found with
  | some f => (pWrite (.res0 f)).andThen (.pure .ok)
  | none => (pWrite (.res0 0#32)).andThen (.pure .notFound)

/-! ### The programs of the commands -/

/-- BUILDREQ (R241). -/
def progBuildreq (c : Cfg) (a1 : Word) : Prog ResultCode :=
  checked (offReserved a1) (pastRam c (argOff a1) frameLen)
    ((pRead .meterId).bind fun m =>
      (pMemWrite (argOff a1) (reqFrame c m)).andThen <|
      (pWrite (.res0 (BitVec.ofNat 32 frameLen))).andThen <|
      (pWrite (.res1 ((reqCrc c m).zeroExtend 32))).andThen <|
      .pure .ok)

/-- EXTRACT (R251). -/
def progExtract (c : Cfg) (a0 : Word) : Prog ResultCode :=
  checked (offLenReserved a0) (decide (c.minDecoded ≤ argLen a0) && pastRam c (argOff a0) extractLen)
    ((extractCore c (argOff a0) (argLen a0)).bind fun okay =>
      if okay then readingZero.bind fun zero =>
        if zero then .pure .zeroReading else (pWrite (.res0 1#32)).andThen (.pure .ok)
      else .pure .malformed)

/-- RINIT (R260): the frequency is FREQ_MHZ, read live, with SETFREQ's domain check. -/
def progRinit (c : Cfg) : Prog ResultCode :=
  (pRead .freqMhz).bind fun f =>
    checked (!f32InDomain f) false
      ((rinitCore c f).andThen <|
        (pRead .freqWord).bind fun w => (pWrite (.res0 w)).andThen (.pure .ok))

/-- RES1 of an attempt: `nr << 16 | d` (R262). -/
def attemptRes1 (nr d : Nat) : Word := (BitVec.ofNat 32 nr <<< 16) ||| BitVec.ofNat 32 d

/-- ATTEMPT (R262). -/
def progAttempt (c : Cfg) : Prog ResultCode :=
  (attemptCore c).bind fun a =>
    (pWrite (.res0 (if a.code = .ok then 1#32 else 0#32))).andThen <|
    (pWrite (.res1 (attemptRes1 a.nr a.d))).andThen <|
    .pure a.code

/-- DISCOVER (R275). -/
def progDiscover (c : Cfg) : Prog ResultCode :=
  (discoverCore c).bind fun r =>
    (pWrite (.res1 (BitVec.ofNat 32 r.tried))).andThen (discoverResult r.found)

/-- BOOT's second path: no valid stored frequency, so discovery runs (R281). -/
def bootDiscover (c : Cfg) : Prog ResultCode :=
  (discoverCore c).bind fun r =>
    (pWrite (.res1 (1#32 ||| (BitVec.ofNat 32 r.tried <<< 16)))).andThen (discoverResult r.found)

/-- BOOT (R281). -/
def progBoot (c : Cfg) : Prog ResultCode :=
  pLoad.bind fun ans =>
  (pNote (.load ans)).andThen <|
    match ans with
    | none => bootDiscover c
    | some v =>
      if freqValid c v then
        (pWrite (.freqMhz v)).andThen <|
        (rinitCore c v).andThen <|
        (pWrite (.res0 v)).andThen <|
        (pWrite (.res1 0#32)).andThen <|
        .pure .ok
      else bootDiscover c

/-! ### The meanings of the commands -/

/-- BUILDREQ: build the request frame in RAM (R241). -/
def execBuildreq (s : State) : Host.Outcome State Fault Refusal := runCommand (progBuildreq s.cfg s.ctx.a1) s

/-- EXTRACT: extract a MeterReading from decoded bytes in RAM (R251). -/
def execExtract (s : State) : Host.Outcome State Fault Refusal := runCommand (progExtract s.cfg s.ctx.a0) s

/-- RINIT: reset and tune the chip to FREQ_MHZ (R260). -/
def execRinit (s : State) : Host.Outcome State Fault Refusal := runCommand (progRinit s.cfg) s

/-- ATTEMPT: run one read-out attempt (R262). -/
def execAttempt (s : State) : Host.Outcome State Fault Refusal := runCommand (progAttempt s.cfg) s

/-- DISCOVER: scan for the meter's carrier (R275). -/
def execDiscover (s : State) : Host.Outcome State Fault Refusal := runCommand (progDiscover s.cfg) s

/-- BOOT: start-up frequency selection (R281). -/
def execBoot (s : State) : Host.Outcome State Fault Refusal := runCommand (progBoot s.cfg) s

end Sys2Proof.Machine
end

