-- ==== Sys2Proof/Machine/Dispatch.lean ====
section
/-! DEFINITION. One arm per instruction: the command run from its present position to its completion (spec/30_encoding.md
R115, spec/10_state.md R55). -/

namespace Sys2Proof.Machine

def exec (i : Instr) (s : State) : Host.Outcome State Fault Refusal :=
  match i with
  | .wreg addr bst value => Sys2Proof.Machine.execWreg addr bst value s
  | .rreg addr bst => Sys2Proof.Machine.execRreg addr bst s
  | .wburst addr n => Sys2Proof.Machine.execWburst addr n s
  | .rburst addr n => Sys2Proof.Machine.execRburst addr n s
  | .strobe code => Sys2Proof.Machine.execStrobe code s
  | .waitst target => Sys2Proof.Machine.execWaitst target s
  | .waitedge level => Sys2Proof.Machine.execWaitedge level s
  | .drain => Sys2Proof.Machine.execDrain s
  | .setfreq => Sys2Proof.Machine.execSetfreq s
  | .rssi raw => Sys2Proof.Machine.execRssi raw s
  | .rreset => Sys2Proof.Machine.execRreset s
  | .preset id => Sys2Proof.Machine.execPreset id s
  | .encode => Sys2Proof.Machine.execEncode s
  | .decode osr => Sys2Proof.Machine.execDecode osr s
  | .crc => Sys2Proof.Machine.execCrc s
  | .buildreq => Sys2Proof.Machine.execBuildreq s
  | .extract => Sys2Proof.Machine.execExtract s
  | .rinit => Sys2Proof.Machine.execRinit s
  | .attempt => Sys2Proof.Machine.execAttempt s
  | .discover => Sys2Proof.Machine.execDiscover s
  | .boot => Sys2Proof.Machine.execBoot s

end Sys2Proof.Machine
end

