-- ==== Sys2Proof/Machine/HostPort.lean ====
section
/-! DEFINITION. The host port: register and RAM accesses (spec/10_state.md R31 to R44, R54; spec/20_memory.md R84 to
R89) and bus errors (spec/60_exceptions.md R302). -/

namespace Sys2Proof.Machine

/-- The bytes of an access (R85). -/
def Width.bytes : Width → Nat
  | .w8 => 1
  | .w16 => 2
  | .w32 => 4

/-- The unsigned number of a byte sequence, least significant byte first (R87). -/
def leWord (bytes : List Byte) : Word :=
  match bytes with
  | [] => 0#32
  | b :: rest => (leWord rest <<< 8) ||| b.zeroExtend 32

/-- The low `n` bytes of a word, least significant first (R87). -/
def leBytes (n : Nat) (w : Word) : List Byte :=
  match n with
  | 0 => []
  | n + 1 => w.extractLsb' 0 8 :: leBytes n (w >>> 8)

/-- The register at a word-aligned offset of the register window, as a host reads it; reserved offsets read 0
(R31, R32, R43). -/
def regRead (off : Nat) (s : State) : Word :=
  match off with
  | 0x004 => statusWord s.status
  | 0x008 => (BitVec.ofBool s.regs.ie).zeroExtend 32
  | 0x00C => s.regs.arg0
  | 0x010 => s.regs.arg1
  | 0x014 => s.regs.res0
  | 0x018 => s.regs.res1
  | 0x01C => s.regs.freqMhz
  | 0x020 => s.regs.freqWord.zeroExtend 32
  | 0x024 => s.regs.meterId
  | 0x028 => s.regs.rdIndex
  | 0x02C => s.regs.rdMisc
  | 0x030 => s.regs.now
  | 0x034 => s.regs.cand
  | _ => 0#32

/-- A host write that is taken only while BUSY = 0; while BUSY = 1 it is ignored and sets REJ (R54). -/
def whenFree (s : State) (written : State) : State :=
  if s.status.busy then { s with status := s.status.rejected } else written

/-- A host write of `w` to the register at a word-aligned offset. CMD issues a command, STATUS is W1C, CTRL keeps bit 0;
read-only registers and reserved offsets ignore it (R31 to R43, R54). -/
def regWrite (off : Nat) (w : Word) (s : State) : State :=
  match off with
  | 0x000 => whenFree s (accept w s)
  | 0x004 => { s with status := statusW1C w s.status }
  | 0x008 => { s with regs := { s.regs with ie := w.getLsbD 0 } }
  | 0x00C => whenFree s { s with regs := { s.regs with arg0 := w } }
  | 0x010 => whenFree s { s with regs := { s.regs with arg1 := w } }
  | 0x01C => whenFree s { s with regs := { s.regs with freqMhz := w } }
  | 0x024 => whenFree s { s with regs := { s.regs with meterId := w } }
  | _ => s

/-- Where an access goes (R84, R85). -/
inductive Target where
  /-- the register at this offset -/
  | reg (off : Nat)
  /-- RAM from this offset, for the access's width -/
  | ram (off : Nat)
  /-- a bus error: unmapped, misaligned or of a width the window does not take -/
  | nowhere
deriving DecidableEq, Repr

/-- The host address map with its width and alignment rules (R84, R85, R302). -/
def hostTarget (addr : BitVec 13) (width : Width) : Target :=
  if addr.toNat < 0x1000 then
    if width = .w32 ∧ addr.toNat % 4 = 0 then .reg addr.toNat else .nowhere
  else if addr.toNat < 0x1800 then
    if addr.toNat % width.bytes = 0 then .ram (addr.toNat - 0x1000) else .nowhere
  else .nowhere

/-- The response of the host port, recorded (log 12). -/
def respond (r : Response) (s : State) : State := { s with response := r }

/-- A host read (R86, R90): no side effect on the RRB; a read of an unwritten RAM byte takes a free draw (R81). -/
def hostRead (addr : BitVec 13) (width : Width) (s : State) : State :=
  match hostTarget addr width with
  | .reg off => respond (.data (regRead off s)) s
  | .ram off => respond (.data (leWord (memRead off width.bytes s).1.1)) (memRead off width.bytes s).2
  | .nowhere => respond .busError s

/-- A host write (R54, R86, R87). -/
def hostWrite (addr : BitVec 13) (width : Width) (data : Word) (s : State) : State :=
  match hostTarget addr width with
  | .reg off => respond .written (regWrite off data s)
  | .ram off => respond .written (whenFree s (memWrite off (leBytes width.bytes data) s))
  | .nowhere => respond .busError s

/-- One host access, one indivisible step (R89). -/
def hostAccess (a : HostAccess) (s : State) : State :=
  match a with
  | .read addr width => hostRead addr width s
  | .write addr width data => hostWrite addr width data s

end Sys2Proof.Machine
end

