-- ==== Sys2Proof/WellFormed.lean ====
section
/-! DEFINITION. Well-formed instructions: the operand ranges of spec/30_encoding.md R112 that the types of
Syntax.lean do not already hold. An ill-formed one still decodes; the dispatch ends it with BADARG (R116, log 17). -/

namespace Sys2Proof

/-- The operand of every field lies in the range R112 gives it: WBURST and RBURST take `n` in 1..255. -/
def Instr.wellFormed : Instr → Bool
  | .wburst _ n => n != 0#8
  | .rburst _ n => n != 0#8
  | .wreg _ _ _ => true
  | .rreg _ _ => true
  | .strobe _ => true
  | .waitst _ => true
  | .waitedge _ => true
  | .drain => true
  | .setfreq => true
  | .rssi _ => true
  | .rreset => true
  | .preset _ => true
  | .encode => true
  | .decode _ => true
  | .crc => true
  | .buildreq => true
  | .extract => true
  | .rinit => true
  | .attempt => true
  | .discover => true
  | .boot => true

end Sys2Proof
end

