-- ==== Sys2Proof/Decode.lean ====
section
/-! DEFINITION. The command decoder, total on 32-bit words (spec/30_encoding.md R110 to R117): steps (1) and (2) of
the dispatch of R115. `none` is the reserved space of R117, which the machine completes with ILLEGAL. After it, the
encoder, from the same tables. -/

namespace Sys2Proof

/-- Field OP, bits 7:0 (R110). -/
def cmdOp (w : Word) : Byte := w.extractLsb' 0 8

/-- Field A, bits 15:8 (R110). -/
def cmdA (w : Word) : Byte := w.extractLsb' 8 8

/-- Field B, bits 23:16 (R110). -/
def cmdB (w : Word) : Byte := w.extractLsb' 16 8

/-- Field C, bits 31:24, reserved (R110). -/
def cmdC (w : Word) : Byte := w.extractLsb' 24 8

/-- `i` when every reserved bit named is zero, else the reserved space (R115 step 2). -/
def whenZero (reserved : Bool) (i : Instr) : Option Instr := if reserved then some i else none

/-- DECODE's osr code in A[1:0] (R112, R211). -/
def osrOfCode (c : BitVec 2) : Option Osr :=
  match c with
  | 0#2 => some .x1
  | 1#2 => some .x2
  | 2#2 => some .x4
  | _ => none

/-- PRESET's table id in A[1:0] (R112). -/
def presetOfCode (c : BitVec 2) : PresetId :=
  match c with
  | 0#2 => .default
  | 1#2 => .sync
  | 2#2 => .data
  | _ => .txcfg

/-- The command the fields A and B of opcode `op` stand for (R112, R114). -/
def decodeFields (op a b : Byte) : Option Instr :=
  match op with
  | 0x01#8 => whenZero (a.extractLsb' 7 1 == 0#1) (.wreg (a.extractLsb' 0 6) (a.getLsbD 6) b)
  | 0x02#8 => whenZero (a.extractLsb' 7 1 == 0#1 && b == 0#8) (.rreg (a.extractLsb' 0 6) (a.getLsbD 6))
  | 0x03#8 => whenZero (a.extractLsb' 6 2 == 0#2) (.wburst (a.extractLsb' 0 6) b)
  | 0x04#8 => whenZero (a.extractLsb' 6 2 == 0#2) (.rburst (a.extractLsb' 0 6) b)
  | 0x05#8 => whenZero (a.extractLsb' 6 2 == 0#2 && b == 0#8) (.strobe (a.extractLsb' 0 6))
  | 0x06#8 => whenZero (a.extractLsb' 3 5 == 0#5 && b == 0#8) (.waitst (a.extractLsb' 0 3))
  | 0x07#8 => whenZero (a.extractLsb' 1 7 == 0#7 && b == 0#8) (.waitedge (a.getLsbD 0))
  | 0x08#8 => whenZero (a == 0#8 && b == 0#8) .drain
  | 0x09#8 => whenZero (a == 0#8 && b == 0#8) .setfreq
  | 0x0A#8 => whenZero (b == 0#8) (.rssi a)
  | 0x0B#8 => whenZero (a == 0#8 && b == 0#8) .rreset
  | 0x0C#8 => whenZero (a.extractLsb' 2 6 == 0#6 && b == 0#8) (.preset (presetOfCode (a.extractLsb' 0 2)))
  | 0x10#8 => whenZero (a == 0#8 && b == 0#8) .encode
  | 0x11#8 =>
    match osrOfCode (a.extractLsb' 0 2) with
    | some osr => whenZero (a.extractLsb' 2 6 == 0#6 && b == 0#8) (.decode osr)
    | none => none
  | 0x12#8 => whenZero (a == 0#8 && b == 0#8) .crc
  | 0x13#8 => whenZero (a == 0#8 && b == 0#8) .buildreq
  | 0x14#8 => whenZero (a == 0#8 && b == 0#8) .extract
  | 0x20#8 => whenZero (a == 0#8 && b == 0#8) .rinit
  | 0x21#8 => whenZero (a == 0#8 && b == 0#8) .attempt
  | 0x22#8 => whenZero (a == 0#8 && b == 0#8) .discover
  | 0x23#8 => whenZero (a == 0#8 && b == 0#8) .boot
  | _ => none

/-- The command a word written to CMD stands for; `none` for every word of the reserved space (R115, R117). -/
def decode (w : Word) : Option Instr :=
  if cmdC w == 0#8 then decodeFields (cmdOp w) (cmdA w) (cmdB w) else none

/-- The decoder on the table's numbering: one 32-bit command word, the bits above `nbits` zero (R110, R111). -/
def decodeTableWord (nbits w : Nat) : Option Instr :=
  if nbits ≤ 32 then decode (BitVec.ofNat 32 (w % 2 ^ nbits)) else none

/-- The command word with the given fields and C = 0 (R110). -/
def commandWord (op a b : Byte) : Word := 0#8 ++ b ++ a ++ op

/-- The osr code of a ratio (R112, R211). -/
def Osr.code : Osr → BitVec 2
  | .x1 => 0#2
  | .x2 => 1#2
  | .x4 => 2#2

/-- The id of a table (R112). -/
def PresetId.code : PresetId → BitVec 2
  | .default => 0#2
  | .sync => 1#2
  | .data => 2#2
  | .txcfg => 3#2

/-- The command word of an instruction, from the operand layout of R112 and the opcode map of R114. -/
def encode : Instr → Word
  | .wreg addr bst value => commandWord 0x01#8 (0#1 ++ BitVec.ofBool bst ++ addr) value
  | .rreg addr bst => commandWord 0x02#8 (0#1 ++ BitVec.ofBool bst ++ addr) 0#8
  | .wburst addr n => commandWord 0x03#8 (0#2 ++ addr) n
  | .rburst addr n => commandWord 0x04#8 (0#2 ++ addr) n
  | .strobe code => commandWord 0x05#8 (0#2 ++ code) 0#8
  | .waitst target => commandWord 0x06#8 (0#5 ++ target) 0#8
  | .waitedge level => commandWord 0x07#8 (0#7 ++ BitVec.ofBool level) 0#8
  | .drain => commandWord 0x08#8 0#8 0#8
  | .setfreq => commandWord 0x09#8 0#8 0#8
  | .rssi raw => commandWord 0x0A#8 raw 0#8
  | .rreset => commandWord 0x0B#8 0#8 0#8
  | .preset id => commandWord 0x0C#8 (0#6 ++ id.code) 0#8
  | .encode => commandWord 0x10#8 0#8 0#8
  | .decode osr => commandWord 0x11#8 (0#6 ++ osr.code) 0#8
  | .crc => commandWord 0x12#8 0#8 0#8
  | .buildreq => commandWord 0x13#8 0#8 0#8
  | .extract => commandWord 0x14#8 0#8 0#8
  | .rinit => commandWord 0x20#8 0#8 0#8
  | .attempt => commandWord 0x21#8 0#8 0#8
  | .discover => commandWord 0x22#8 0#8 0#8
  | .boot => commandWord 0x23#8 0#8 0#8

end Sys2Proof
end

