-- ==== Sys2Proof/Machine/Programs.lean ====
section
/-! DEFINITION. The program of every instruction, as the sequencer carries it out one primitive at a time
(spec/10_state.md R45, spec/30_encoding.md R115 step 5). The meanings that Dispatch.lean calls run these same programs. -/

namespace Sys2Proof.Machine

/-- The fixed program of an instruction under a configuration and the latched operand words (R50, R95). -/
def program (c : Cfg) (a0 a1 : Word) (i : Instr) : Prog ResultCode :=
  match i with
  | .wreg addr bst value => progWreg c addr bst value
  | .rreg addr bst => progRreg c addr bst
  | .wburst addr n => progWburst c addr n a0
  | .rburst addr n => progRburst c addr n a0
  | .strobe code => progStrobe c code
  | .waitst target => progWaitst c target a0
  | .waitedge level => progWaitedge c level a0
  | .drain => progDrain c a0 a1
  | .setfreq => progSetfreq c a0
  | .rssi raw => progRssi c raw
  | .rreset => progRreset c
  | .preset id => progPreset c id
  | .encode => progEncode c a0 a1
  | .decode osr => progDecode c osr a0 a1
  | .crc => progCrc c a0
  | .buildreq => progBuildreq c a1
  | .extract => progExtract c a0
  | .rinit => progRinit c
  | .attempt => progAttempt c
  | .discover => progDiscover c
  | .boot => progBoot c

/-- The end of a command word of the reserved space: it completes at once with ILLEGAL and no other effect (R115
steps 1 and 2, R117). -/
def illegalCommand (s : State) : Host.Outcome State Fault Refusal := .next (complete .illegal s)

/-- The sequencer's move: one primitive of the running command; nothing where no command runs (R9, R331). -/
def seqMove (s : State) : Host.Outcome State Fault Refusal :=
  if s.status.busy then
    match decode s.ctx.opw with
    | some i => seqStep (program s.cfg s.ctx.a0 s.ctx.a1 i) s
    | none => illegalCommand s
  else .next s

end Sys2Proof.Machine
end

