-- ==== Sys2Proof/Machine/Step.lean ====
section
/-! DEFINITION. One step of the machine: the next move of the agents of spec/00_scope.md R8, as the agenda in the state
lines them up (R9, R92; log 1, log 2). -/

namespace Sys2Proof.Machine

/-- The running command runs on, undisturbed, to its completion: the command latched in OPW is decoded and executed;
a word of the reserved space completes with ILLEGAL (R115, R117). Nothing where no command runs. -/
def runMove (s : State) : Host.Outcome State Fault Refusal :=
  if s.status.busy then
    match decode s.ctx.opw with
    | some i => exec i s
    | none => illegalCommand s
  else .next s

/-- One move of one agent (R8). -/
def moveStep (m : Move) (s : State) : Host.Outcome State Fault Refusal :=
  match m with
  | .host a => .next (hostAccess a s)
  | .seq => seqMove s
  | .tick => .next (tickStep s)
  | .run => runMove s
  | .reset => .next (blockReset s)

/-- One step. A configuration that breaks R13 is refused (R13). The next move of the agenda is made; with none lined up
the environment is quiet: a running command runs to its completion, and while idle a tick passes (R331; log 1). -/
def step (s : State) : Host.Outcome State Fault Refusal :=
  if cfgWf s.cfg then
    match s.agenda with
    | m :: rest => moveStep m { s with agenda := rest }
    | [] => if s.status.busy then runMove s else .next (tickStep s)
  else .refused .badConfig

/-- The state in which the command word `w` (the low `nbits` bits, the bits above zero) has just been accepted, so that
the next step decodes and runs it. The RRB fetches no instructions (R45, R95): the word it runs is the one latched in
OPW at acceptance (R50, R53); the agenda is emptied so that no other agent moves first (log 13). -/
def State.withFetchWord (s : State) (nbits w : Nat) : State :=
  accept (BitVec.ofNat 32 (w % 2 ^ nbits)) { s with agenda := [] }

end Sys2Proof.Machine
end

