-- ==== Sys2Proof/Safety.lean ====
section
/-! DEFINITION. What the claims are stated in: where a command stands, the machine's invariants, what a safe step is, and
the opcode table's masks (spec/opcode_table.json) beside the decoder. -/

namespace Sys2Proof.Machine

/-! ### Where a command stands -/

/-- The running command stands at the first line of its rule (R45), as acceptance leaves it (R53). -/
abbrev AtStart (s : State) : Prop := s.ctx.answers = [] ∧ s.ctx.delayLeft = none

/-- The hidden state of a running command is a position of its program (R45, R51): the recorded answers are those of a
first part of it, and a pending `Delay` is the next primitive, with between one and all of its ticks left. -/
def PositionOk (s : State) : Prop :=
  match decode s.ctx.opw with
  | none => AtStart s
  | some i =>
    ∃ rest, (program s.cfg s.ctx.a0 s.ctx.a1 i).after s.ctx.answers = some rest ∧
      ∀ n, s.ctx.delayLeft = some n → ∃ m k, rest = .op (.delay m) k ∧ 1 ≤ n ∧ n ≤ m

/-- The machine's invariant: a well-formed configuration (R13), a RAM in canonical form whose bytes all lie inside the
2048 (R80, R82), hidden state only while a command runs and then a position of its program (R45, R51), and DONE and
RESULT clear while a command runs (R33, R53). -/
structure Inv (s : State) : Prop where
  cfg : cfgWf s.cfg = true
  ram : s.ram.wf = true
  idle : s.status.busy = false → s.ctx = .idle
  running : s.status.busy = true → PositionOk s
  flags : s.status.busy = true → s.status.done = false ∧ s.status.result = .ok

/-! ### The event history -/

/-- The last transport exchange of a history: bytes sent, bytes answered. -/
def lastXfer (h : List Event) : Option (List Byte × List Byte) :=
  match h with
  | [] => none
  | .xfer out answer _ :: rest =>
    match lastXfer rest with
    | some e => some e
    | none => some (out, answer)
  | _ :: rest => lastXfer rest

/-- The transport exchanges of a history, in order: bytes sent and NOW. -/
def xfersOf (h : List Event) : List (List Byte × Word) :=
  h.filterMap fun e => match e with | .xfer out _ now => some (out, now) | _ => none

/-- The bytes sent in a history's exchanges, in order. -/
def sentOf (h : List Event) : List (List Byte) := (xfersOf h).map Prod.fst

/-- The frequencies stored in a history, in order. -/
def storesOf (h : List Event) : List Word :=
  h.filterMap fun e => match e with | .store bits => some bits | _ => none

/-- The publications of a history, in order: index, reads, battery, wake start, wake stop. -/
def publishesOf (h : List Event) : List (Word × Byte × Byte × Byte × Byte) :=
  h.filterMap fun e => match e with | .publish i r b ws we => some (i, r, b, ws, we) | _ => none

/-- The acceptances and completions of a history. -/
def commandEventsOf (h : List Event) : List Event :=
  h.filter fun e => match e with | .cmd .. => true | .done .. => true | _ => false

/-- ChipStatus is what the last exchange of the history answered; before any exchange it is 0 with CS_VALID clear
(R47, R48, R330). -/
def ChipStatusMirrors (s : State) : Prop :=
  match lastXfer s.history with
  | none => s.status.csState = 0#3 ∧ s.status.csFifo = 0#4 ∧ s.status.csValid = false
  | some (_, answer) =>
    ∃ st rest, answer = st :: rest ∧ s.status.csState = st.extractLsb' 4 3 ∧ s.status.csFifo = st.extractLsb' 0 4 ∧
      s.status.csValid = true

/-- Every exchange of the history has sent at least one byte and received as many as it sent (R7, R140). -/
def ExchangesBalanced (s : State) : Prop :=
  ∀ out answer now, Event.xfer out answer now ∈ s.history → 1 ≤ out.length ∧ answer.length = out.length

/-- The exchanges of `RInitCore(f)` from NOW = `t` on, the default table in the order `order` (R260). -/
def rinitXfers (c : Cfg) (f t : Word) (order : List (ChipAddr × Byte)) : List (List Byte × Word) :=
  [([0#2 ++ c.sRes], t), ([0#2 ++ c.sFrx], t + BitVec.ofNat 32 c.settleMs),
    ([0#2 ++ c.sFtx], t + BitVec.ofNat 32 (2 * c.settleMs)),
    ([0#2 ++ c.regFreq2, (freqWordCore c f).extractLsb' 16 8], t + BitVec.ofNat 32 (3 * c.settleMs)),
    ([0#2 ++ c.regFreq1, (freqWordCore c f).extractLsb' 8 8], t + BitVec.ofNat 32 (3 * c.settleMs)),
    ([0#2 ++ c.regFreq0, (freqWordCore c f).extractLsb' 0 8], t + BitVec.ofNat 32 (3 * c.settleMs))] ++
  order.map fun e => ([0#2 ++ e.1, substFreq c ((freqWordCore c f).zeroExtend 32) e.1 e.2],
    t + BitVec.ofNat 32 (3 * c.settleMs))

/-! ### Traces: what a stretch of a command records, and when -/

/-- A stretch of a command: NOW before it, the events it records, NOW after it (R52, R41). -/
abbrev Trace := Word → List Event → Word → Prop

/-- Nothing is recorded and no time passes. -/
def Trace.nothing : Trace := fun t l u => l = [] ∧ u = t

/-- One stretch, then another. -/
def Trace.andThen (A B : Trace) : Trace := fun t l u => ∃ l₁ m l₂, A t l₁ m ∧ B m l₂ u ∧ l = l₁ ++ l₂

/-- Stretches one after another. -/
def Trace.seq (parts : List Trace) : Trace := parts.foldr Trace.andThen Trace.nothing

/-- `n` milliseconds pass (R16). -/
def Trace.passes (n : Nat) : Trace := fun t l u => l = [] ∧ u = t + BitVec.ofNat 32 n

/-- One exchange sends the bytes `out` and receives as many (R140). -/
def Trace.sends (out : List Byte) : Trace := fun t l u =>
  ∃ answer, answer.length = out.length ∧ l = [.xfer out answer t] ∧ u = t

/-- A strobe (R141). -/
def Trace.strobes (c : Cfg) (code : ChipAddr) : Trace := .sends [hdr c false false code]

/-- A burst write (R141). -/
def Trace.bursts (c : Cfg) (a : ChipAddr) (bytes : List Byte) : Trace := .sends (hdr c false true a :: bytes)

/-- A register table is written in increasing order of address, the bytes of the FREQ_WORD `w` put in (R148, R149). -/
def Trace.writesTable (c : Cfg) (w : BitVec 24) (tab : List (ChipAddr × Byte)) : Trace := fun t l u =>
  ∃ order : List (ChipAddr × Byte), order.Perm tab ∧ order.Pairwise (fun a b => a.1.toNat ≤ b.1.toNat) ∧
    Trace.seq (order.map fun e => .sends [hdr c false false e.1, substFreq c (w.zeroExtend 32) e.1 e.2]) t l u

/-- The round that comes last where a wait of `T` ms polled every `i` ms times out: ceil(T / i) (R144). -/
def lastRound (i T : Nat) : Nat := (T + i - 1) / i

/-- The state polls of `WaitStateCore` at elapsed 0, I, 2I, ... and at the latest T: poll `n` is the last, it alone names the
target where the wait is `reached`, and where it is not none does and it stands at exactly T (R144, R145). -/
def Trace.polls (c : Cfg) (target : BitVec 3) (T : Nat) (reached : Bool) : Trace := fun t l u =>
  ∃ n, l.length = n + 1 ∧ n ≤ lastRound c.statePollMs T ∧ (reached = false → n = lastRound c.statePollMs T) ∧
    u = t + BitVec.ofNat 32 (min (n * c.statePollMs) T) ∧
    ∀ k, k ≤ n → ∃ st v,
      l[k]? = some (.xfer [hdr c true true c.regStatePoll, 0x00#8] [st, v]
        (t + BitVec.ofNat 32 (min (k * c.statePollMs) T))) ∧
      (st.extractLsb' 4 3 = target ↔ k = n ∧ reached = true)

/-- The samples of `WaitEdgeCore`, at the times of `Trace.polls` with EDGE_POLL_MS (R144, R146). -/
def Trace.samples (c : Cfg) (level : Bool) (T : Nat) (reached : Bool) : Trace := fun t l u =>
  ∃ n, l.length = n + 1 ∧ n ≤ lastRound c.edgePollMs T ∧ (reached = false → n = lastRound c.edgePollMs T) ∧
    u = t + BitVec.ofNat 32 (min (n * c.edgePollMs) T) ∧
    ∀ k, k ≤ n → ∃ g, l[k]? = some (.gdo g (t + BitVec.ofNat 32 (min (k * c.edgePollMs) T))) ∧
      (g = level ↔ k = n ∧ reached = true)

/-- One round of `DrainCore`: what the occupancy read answered, and what the burst read answered, with no data where there
was none (R158, R159). -/
structure DrainRound where
  occStatus : Byte
  occupancy : Byte
  burstStatus : Byte
  data : List Byte

/-- The exchanges of a round: the occupancy read, then the burst read of as many bytes as it counted, if any. -/
def DrainRound.events (c : Cfg) (now : Word) (r : DrainRound) : List Event :=
  .xfer [hdr c true true c.regRxbytes, 0x00#8] [r.occStatus, r.occupancy] now ::
    (if r.data = [] then []
     else [.xfer (hdr c true true c.fifoAddr :: List.replicate r.data.length 0x00#8) (r.burstStatus :: r.data) now])

/-- The exchanges of the rounds, round `k` at elapsed `min (k · FIFO_POLL_MS) T`. -/
def roundsEvents (c : Cfg) (T : Nat) (t : Word) (rounds : List DrainRound) : List Event :=
  rounds.zipIdx.flatMap fun r => r.1.events c (t + BitVec.ofNat 32 (min (r.2 * c.fifoPollMs) T))

/-- The bytes the rounds captured, in order. -/
def captured (rounds : List DrainRound) : List Byte := rounds.flatMap DrainRound.data

/-- The rounds of a drain to `N` bytes: each bursts as many bytes as the masked occupancy says, none starts with `N` bytes
captured, and none comes after the one at elapsed T (R159). -/
structure RoundsOk (c : Cfg) (T N : Nat) (rounds : List DrainRound) : Prop where
  counts : ∀ r ∈ rounds, r.data.length = (r.occupancy &&& c.occMask).toNat
  short : ∀ k, k < rounds.length → (captured (rounds.take k)).length < N
  bound : rounds.length ≤ lastRound c.fifoPollMs T + 1

/-- A drain of an attempt: it captures `raw`, at least `N` bytes, or it times out at exactly T with fewer (R159). -/
def Trace.drains (c : Cfg) (T N : Nat) (got : Option (List Byte)) : Trace := fun t l u =>
  ∃ rounds, RoundsOk c T N rounds ∧ l = roundsEvents c T t rounds ∧
    u = t + BitVec.ofNat 32 (min ((rounds.length - 1) * c.fifoPollMs) T) ∧
    match got with
    | some raw => raw = captured rounds ∧ N ≤ raw.length
    | none => (captured rounds).length < N ∧ rounds.length = lastRound c.fifoPollMs T + 1

/-- The wait for RX, the wait for the edge and the capture of an attempt's phase: all three succeed and give `raw`, or the
first that fails ends the phase by TIMEOUT (R265, R266). -/
def Trace.listens (c : Cfg) (level : Bool) (T N : Nat) (got : Option (List Byte)) : Trace := fun t l u =>
  match got with
  | some raw =>
    Trace.seq [.polls c c.stateRx c.waitStateMs true, .samples c level T true, .drains c T N (some raw)] t l u
  | none =>
    Trace.polls c c.stateRx c.waitStateMs false t l u ∨
    Trace.seq [.polls c c.stateRx c.waitStateMs true, .samples c level T false] t l u ∨
    Trace.seq [.polls c c.stateRx c.waitStateMs true, .samples c level T true, .drains c T N none] t l u

/-- How far an attempt comes (R261): it fails in Transmitting, in WaitingForAck or in WaitingForResponse, or it captures the
response `raw` and decodes it. -/
inductive AttemptEnd where
  | noTx
  | noAck
  | noResponse
  | response (raw : List Byte)
deriving DecidableEq, Repr

/-- Transmitting up to the TX wait: TX_CONFIG, the TX strobe, the polls (R263). -/
def toTx (c : Cfg) (w : BitVec 24) (reached : Bool) : List Trace :=
  [.writesTable c w c.txConfig, .strobes c c.sTx, .polls c c.stateTx c.waitStateMs reached]

/-- The rest of Transmitting: the preamble chunks with their pacing, the settle, the frame, the TX flush, the default table
(R263, R264). -/
def request (c : Cfg) (w : BitVec 24) (frame : List Byte) : List Trace :=
  [.seq (List.replicate c.preChunks
      (.seq [.bursts c c.fifoAddr (List.replicate c.preChunkLen c.preByte), .passes c.prePaceMs])),
    .passes c.postPreMs, .bursts c c.fifoAddr frame, .passes c.frameHoldMs, .strobes c c.sFtx,
    .writesTable c w c.presetDefault]

/-- WaitingForAck (R265). -/
def awaitAck (c : Cfg) (w : BitVec 24) (got : Option (List Byte)) : List Trace :=
  [.writesTable c w c.presetSync, .strobes c c.sRx, .listens c c.ackEdgeLevel c.ackTmoMs c.ackRawLen got]

/-- WaitingForResponse, with the default table on every outcome (R266). -/
def awaitResponse (c : Cfg) (w : BitVec 24) (got : Option (List Byte)) : List Trace :=
  [.writesTable c w c.presetData, .strobes c c.sFrx, .strobes c c.sRx,
    .listens c (!c.ackEdgeLevel) c.respTmoMs c.respRawLen got, .writesTable c w c.presetDefault]

/-- What an attempt that ends so records up to its end or to Decoding, FREQ_WORD being `w` and the frame `frame` (R262). -/
def attemptTrace (c : Cfg) (w : BitVec 24) (frame : List Byte) (ending : AttemptEnd) : Trace :=
  match ending with
  | .noTx => Trace.seq (toTx c w false)
  | .noAck => Trace.seq (toTx c w true ++ request c w frame ++ awaitAck c w none)
  | .noResponse => fun t l u => ∃ ack,
    Trace.seq (toTx c w true ++ request c w frame ++ awaitAck c w (some ack) ++ awaitResponse c w none) t l u
  | .response raw => fun t l u => ∃ ack,
    Trace.seq (toTx c w true ++ request c w frame ++ awaitAck c w (some ack) ++ awaitResponse c w (some raw)) t l u

/-- The values ATT_STATE takes in an attempt that ends so, `okay` saying whether a response gave a reading (R261). -/
def attemptStates (ending : AttemptEnd) (okay : Bool) : List AttState :=
  match ending with
  | .noTx => [.transmitting, .failed]
  | .noAck => [.transmitting, .waitingForAck, .failed]
  | .noResponse => [.transmitting, .waitingForAck, .waitingForResponse, .failed]
  | .response _ =>
    [.transmitting, .waitingForAck, .waitingForResponse, .decoding, if okay then .success else .failed]

/-- The value a primitive gives ATT_STATE, if any. -/
def Prim.attWrite : Prim → List AttState
  | .write (.att a) => [a]
  | _ => []

/-- The values a program gives ATT_STATE, in order, carried out undisturbed from a state. -/
def Prog.attWrites {α : Type} (m : Prog α) (s : State) : List AttState :=
  match m with
  | .pure _ => []
  | .op p k => p.attWrite ++ (k (runPrim p s).1).attWrites (runPrim p s).2

/-! ### A discovery scan -/

/-- The index that extraction reads from the bytes `l` (R250). -/
def indexAt (c : Cfg) (l : List Byte) : Word :=
  l.getD (c.offIndex.val + 3) 0 ++ l.getD (c.offIndex.val + 2) 0 ++ l.getD (c.offIndex.val + 1) 0 ++ l.getD c.offIndex.val 0

/-- The word RD_MISC that extraction makes of the bytes `l` (R40, R250). -/
def miscAt (c : Cfg) (l : List Byte) : Word :=
  l.getD c.offWakeStop.val 0 ++ l.getD c.offWakeStart.val 0 ++ l.getD c.offBattery.val 0 ++ l.getD c.offReads.val 0

/-- The reading of an attempt that ends so, as RD_INDEX and RD_MISC hold it: the fields of the decoded response, where it has
MIN_DECODED bytes and a field that is not 0; the attempt succeeds where there is one and fails where there is none (R262,
R268, R269). -/
def AttemptEnd.reading (c : Cfg) (ending : AttemptEnd) : Option (Word × Word) :=
  match ending with
  | .response raw =>
    let out := (decodeCore raw (osrFactor c.respOsr) c.decCap).1
    if c.minDecoded ≤ out.length ∧ (indexAt c out ≠ 0#32 ∨ miscAt c out ≠ 0#32) then some (indexAt c out, miscAt c out)
    else none
  | _ => none

/-- The PUBLISH of a reading (R269). -/
def publication (index misc : Word) : Event :=
  .publish index (misc.extractLsb' 0 8) (misc.extractLsb' 8 8) (misc.extractLsb' 16 8) (misc.extractLsb' 24 8)

/-- `RInitCore(f)`: the exchanges of `rinitXfers` and nothing else, in three settle times (R260). -/
def Trace.tunes (c : Cfg) (f : Word) : Trace := fun t l u =>
  ∃ order : List (ChipAddr × Byte), order.Perm c.presetDefault ∧ order.Pairwise (fun a b => a.1.toNat ≤ b.1.toNat) ∧
    xfersOf l = rinitXfers c f t order ∧ (∀ ev ∈ l, ∃ out answer now, ev = .xfer out answer now) ∧
    u = t + BitVec.ofNat 32 (3 * c.settleMs)

/-- The k-th candidate of a discovery scan (R275). -/
def candidate (c : Cfg) (k : Nat) : Word :=
  match k with
  | 0 => c.freqMin
  | k + 1 => f32AddPos (candidate c k) c.freqStep

/-- A scan from candidate `j` on whose attempts end as `ends` says: each candidate is tuned to, then attempted with its own
FREQ_WORD (R275). -/
def scanParts (c : Cfg) (frame : List Byte) (j : Nat) (ends : List AttemptEnd) : List Trace :=
  match ends with
  | [] => []
  | e :: rest =>
    .tunes c (candidate c j) :: attemptTrace c (freqWordCore c (candidate c j)) frame e :: scanParts c frame (j + 1) rest

/-- What such a scan writes to CAND and ATT_STATE: the candidate before its attempt, then the states of the attempt (R275,
R261). -/
def scanStates (c : Cfg) (j : Nat) (ends : List AttemptEnd) : List Dst :=
  match ends with
  | [] => []
  | e :: rest =>
    .cand (candidate c j) :: (attemptStates e (e.reading c).isSome).map .att ++ scanStates c (j + 1) rest

/-- The write of a primitive to CAND, DISC, FREQ_MHZ or ATT_STATE, if any. -/
def Prim.scanWrite : Prim → List Dst
  | .write (.cand w) => [.cand w]
  | .write (.disc b) => [.disc b]
  | .write (.freqMhz w) => [.freqMhz w]
  | .write (.att a) => [.att a]
  | _ => []

/-- A program's writes to CAND, DISC, FREQ_MHZ and ATT_STATE, in order, carried out undisturbed from a state. -/
def Prog.scanWrites {α : Type} (m : Prog α) (s : State) : List Dst :=
  match m with
  | .pure _ => []
  | .op p k => p.scanWrite ++ (k (runPrim p s).1).scanWrites (runPrim p s).2

/-! ### Runs of moves -/

/-- The moves `ms`, each made by `step` with nothing else lined up. -/
def runMoves (ms : List Move) (s : State) : Host.Outcome State Fault Refusal :=
  match ms with
  | [] => .next s
  | m :: rest =>
    match step { s with agenda := [m] } with
    | .next t => runMoves rest t
    | .fault r => .fault r
    | .refused r => .refused r

/-! ### Codec and table vocabulary -/

/-- `Expand_r(y)`: every bit of the bytes repeated `r` times (R213). -/
def expandBits (r : Nat) (bytes : List Byte) : List Byte := pack ((unpack bytes).flatMap fun b => List.replicate r b)

/-- The rows of spec/opcode_table.json: mask and match of each command word. -/
def opcodeTable : List (Word × Word) :=
  [(0xFF0080FF#32, 0x01#32), (0xFFFF80FF#32, 0x02#32), (0xFF00C0FF#32, 0x03#32), (0xFF00C0FF#32, 0x04#32),
   (0xFFFFC0FF#32, 0x05#32), (0xFFFFF8FF#32, 0x06#32), (0xFFFFFEFF#32, 0x07#32), (0xFFFFFFFF#32, 0x08#32),
   (0xFFFFFFFF#32, 0x09#32), (0xFFFF00FF#32, 0x0A#32), (0xFFFFFFFF#32, 0x0B#32), (0xFFFFFCFF#32, 0x0C#32),
   (0xFFFFFFFF#32, 0x10#32), (0xFFFFFCFF#32, 0x11#32), (0xFFFFFFFF#32, 0x12#32), (0xFFFFFFFF#32, 0x13#32),
   (0xFFFFFFFF#32, 0x14#32), (0xFFFFFFFF#32, 0x20#32), (0xFFFFFFFF#32, 0x21#32), (0xFFFFFFFF#32, 0x22#32),
   (0xFFFFFFFF#32, 0x23#32)]

/-- DECODE with the reserved osr code 3 (R117). -/
def osrReserved (w : Word) : Bool := w == 0x00000311#32

/-- The word matches a row of the table, and is not DECODE with the reserved osr code. -/
def inOpcodeTable (w : Word) : Bool := opcodeTable.any (fun r => w &&& r.1 == r.2) && !osrReserved w

end Sys2Proof.Machine
end

