-- ==== Sys2Proof/Certificates/Slice0/Obligations.lean ====
section
/-! DEFINITION. The statements for the provers. Each docstring names the rule of spec/ it formalises. `exec i s` is command
`i` run to its completion from a state `s` whose command stands at its first line (`AtStart s`, as acceptance leaves it);
a next state written out in full is also the command's frame. -/

open Sys2Proof Sys2Proof.Machine

/-! ### Encoding -/

/-- R110, R112, R114: decoding an encoded instruction gives it back, every operand at every value. -/
def Obligations.DecodeInvertsEncode : Prop := ∀ i : Instr, decode (encode i) = some i

/-- R110, R111: a command word that decodes has no other reading; encoding what it decodes to gives the word back. -/
def Obligations.EncodeInvertsDecode : Prop := ∀ (w : Word) (i : Instr), decode w = some i → encode i = w

/-- spec/opcode_table.json, R115 (1) and (2): the decoder takes exactly the words that match a row of the table, but for
DECODE with osr code 3. -/
def Obligations.DecoderAgreesWithOpcodeTable : Prop := ∀ w : Word, (decode w).isSome = inOpcodeTable w

/-- R120: the worked encodings of the spec decode to the commands they stand for (a check on fixed words). -/
def Obligations.WorkedWordsDecode : Prop :=
  decode 0x00100D01#32 = some (.wreg 0x0D#6 false 0x10#8) ∧ decode 0x00007502#32 = some (.rreg 0x35#6 true) ∧
  decode 0x00003005#32 = some (.strobe 0x30#6) ∧ decode 0x00000206#32 = some (.waitst 2#3) ∧
  decode 0x00000211#32 = some (.decode .x4) ∧ decode 0x00000021#32 = some .attempt

/-! ### The step -/

/-- R45, R50, R115: a step of a running command, the environment quiet or the move being `run`, executes the command
latched in OPW. -/
def Obligations.StepRunsTheLatchedCommand : Prop :=
  ∀ (s : State) (i : Instr), cfgWf s.cfg = true → s.status.busy = true → decode s.ctx.opw = some i →
    (s.agenda = [] → step s = exec i s) ∧
    (∀ rest, s.agenda = .run :: rest → step s = exec i { s with agenda := rest })

/-- R117: a reserved word completes at once with ILLEGAL and no other effect. -/
def Obligations.ReservedWordCompletesIllegal : Prop :=
  ∀ s : State, cfgWf s.cfg = true → s.status.busy = true → inOpcodeTable s.ctx.opw = false →
    (s.agenda = [] ∨ s.agenda = [.run] ∨ (s.agenda = [.seq])) →
    step s = .next { s with
      status := { s.status with busy := false, done := true, result := .illegal }
      ctx := .idle
      history := s.history ++ [.done .illegal s.regs.now]
      agenda := [] }

/-- R13: a configuration is refused exactly when it fails one of (a) to (g), or differs from the RAM layout of R11 and R80 or
the step sizes of R150 (the model's choice, log 6), or has an OCC_MASK above 0x7F (the model's choice, log 24). -/
def Obligations.IllFormedConfigurationIsRefused : Prop :=
  ∀ s : State, step s = .refused .badConfig ↔
    ¬ ((∀ t, t = s.cfg.presetDefault ∨ t = s.cfg.presetSync ∨ t = s.cfg.presetData ∨ t = s.cfg.txConfig →
          (t.map Prod.fst).Nodup) ∧
       ((s.cfg.regSync1, 0x55#8) ∈ s.cfg.presetSync ∧ (s.cfg.regSync0, 0x50#8) ∈ s.cfg.presetSync ∧
          (s.cfg.regPktlen, 0x01#8) ∈ s.cfg.presetSync) ∧
       ((s.cfg.regSync1, 0xFF#8) ∈ s.cfg.presetData ∧ (s.cfg.regSync0, 0xF0#8) ∈ s.cfg.presetData) ∧
       (1 ≤ s.cfg.ackRawLen ∧ s.cfg.ackRawLen ≤ s.cfg.rxrSize - 127 ∧ 1 ≤ s.cfg.respRawLen ∧
          s.cfg.respRawLen ≤ s.cfg.rxrSize - 127) ∧
       (f32Finite s.cfg.freqMin = true ∧ f32Finite s.cfg.freqMax = true ∧ f32Finite s.cfg.freqStep = true ∧
          0 ≤ f32Val s.cfg.freqMin ∧ f32Val s.cfg.freqMin ≤ f32Val s.cfg.freqMax ∧
          f32Val s.cfg.freqMax < (mhz 6656 : Int) ∧ 0 < f32Val s.cfg.freqStep ∧
          (f32Ulp s.cfg.freqMax : Int) ≤ f32Val s.cfg.freqStep) ∧
       (s.cfg.yearPos ≤ 16 ∧ s.cfg.serialPos + 2 ≤ 16 ∧ s.cfg.yearPos ≠ s.cfg.serialPos ∧
          s.cfg.yearPos ≠ s.cfg.serialPos + 1 ∧ s.cfg.yearPos ≠ s.cfg.serialPos + 2) ∧
       ((∀ t, t = s.cfg.statePollMs ∨ t = s.cfg.waitStateMs ∨ t = s.cfg.edgePollMs ∨ t = s.cfg.fifoPollMs ∨
            t = s.cfg.settleMs ∨ t = s.cfg.prePaceMs ∨ t = s.cfg.postPreMs ∨ t = s.cfg.frameHoldMs ∨
            t = s.cfg.ackTmoMs ∨ t = s.cfg.respTmoMs → t ≤ 65535) ∧
          1 ≤ s.cfg.statePollMs ∧ 1 ≤ s.cfg.edgePollMs ∧ 1 ≤ s.cfg.fifoPollMs) ∧
       (s.cfg.ramSize = 2048 ∧ s.cfg.txrBase = 0x000 ∧ s.cfg.txrSize = 128 ∧ s.cfg.decrBase = 0x080 ∧ s.cfg.decCap = 256 ∧
          s.cfg.rxrBase = 0x180 ∧ s.cfg.rxrSize = 1664) ∧
       (s.cfg.fstepHi = 2600000000 ∧ s.cfg.fstepMid = 10156250 ∧ s.cfg.fstepLo = 39675) ∧
       s.cfg.occMask.toNat ≤ 0x7F)

/-- R9, R41: a tick advances NOW by 1 modulo 2^32 when no command runs; while one runs it does so only in a pending
`Delay`, whose last tick ends it; otherwise no time passes. -/
def Obligations.TickNeedsIdleOrDelay : Prop :=
  ∀ (s : State) (rest : List Move), cfgWf s.cfg = true → s.agenda = .tick :: rest →
    (s.status.busy = false →
      step s = .next { s with agenda := rest, regs := { s.regs with now := s.regs.now + 1#32 } }) ∧
    (s.status.busy = true → s.ctx.delayLeft = none → step s = .next { s with agenda := rest }) ∧
    (∀ n, s.status.busy = true → s.ctx.delayLeft = some (n + 2) →
      step s = .next { s with
        agenda := rest, regs := { s.regs with now := s.regs.now + 1#32 }
        ctx := { s.ctx with delayLeft := some (n + 1) } }) ∧
    (s.status.busy = true → s.ctx.delayLeft = some 1 →
      step s = .next { s with
        agenda := rest, regs := { s.regs with now := s.regs.now + 1#32 }
        ctx := { s.ctx with answers := s.ctx.answers ++ [.unit], delayLeft := none } })

/-- R331: an idle block stays idle: every move but a block reset and a write of a command word leaves BUSY 0, no running
command, the history as it was and the chip, the GDO line and the store unasked; a sequencer move does nothing, only a tick
changes NOW. -/
def Obligations.IdleMovesKeepTheBlockIdle : Prop :=
  ∀ (s : State) (m : Move) (rest : List Move), cfgWf s.cfg = true → s.status.busy = false → s.ctx = .idle →
    s.agenda = m :: rest → m ≠ .reset → (∀ w, m ≠ .host (.write 0x0000#13 .w32 w)) →
    ∃ t, step s = .next t ∧ t.status.busy = false ∧ t.ctx = .idle ∧ t.history = s.history ∧ t.cfg = s.cfg ∧
      t.agenda = rest ∧ t.oracle.chip = s.oracle.chip ∧ t.oracle.gdo = s.oracle.gdo ∧ t.oracle.load = s.oracle.load ∧
      (m = .seq ∨ m = .run → t = { s with agenda := rest }) ∧
      (m = .tick → t = { s with agenda := rest, regs := { s.regs with now := s.regs.now + 1#32 } }) ∧
      (m ≠ .tick → t.regs.now = s.regs.now)

/-! ### Host port and command lifecycle -/

/-- R53: the acceptance of a command word. -/
def Obligations.AcceptanceLatchesOperands : Prop :=
  ∀ (s : State) (w : Word) (rest : List Move), cfgWf s.cfg = true → s.status.busy = false →
    s.agenda = .host (.write 0x0000#13 .w32 w) :: rest →
    step s = .next { s with
      agenda := rest
      response := .written
      ctx := { opw := w, a0 := s.regs.arg0, a1 := s.regs.arg1, answers := [], delayLeft := none }
      regs := { s.regs with res0 := 0#32, res1 := 0#32 }
      status := { s.status with busy := true, done := false, result := .ok }
      history := s.history ++ [.cmd w s.regs.arg0 s.regs.arg1 s.regs.now] }

/-- R54: while BUSY = 1 a host write to CMD, ARG0, ARG1, FREQ_MHZ, METER_ID or to RAM has no effect but REJ; writes to STATUS
and CTRL keep their meaning; a host read changes no state of the RRB (a read of an unwritten byte takes a free draw). -/
def Obligations.WritesWhileBusyAreIgnored : Prop :=
  ∀ (s : State) (rest : List Move) (w : Word), cfgWf s.cfg = true → s.status.busy = true →
    (∀ addr, addr = 0x000#13 ∨ addr = 0x00C#13 ∨ addr = 0x010#13 ∨ addr = 0x01C#13 ∨ addr = 0x024#13 →
      s.agenda = .host (.write addr .w32 w) :: rest →
      step s = .next { s with agenda := rest, response := .written, status := { s.status with rej := true } }) ∧
    (∀ (addr : BitVec 13) (width : Width), 0x1000 ≤ addr.toNat → addr.toNat < 0x1800 →
      addr.toNat % width.bytes = 0 → s.agenda = .host (.write addr width w) :: rest →
      step s = .next { s with agenda := rest, response := .written, status := { s.status with rej := true } }) ∧
    (s.agenda = .host (.write 0x004#13 .w32 w) :: rest →
      step s = .next { s with
        agenda := rest, response := .written
        status := { s.status with
          done := s.status.done && !w.getLsbD 1
          rej := s.status.rej && !w.getLsbD 2 } }) ∧
    (s.agenda = .host (.write 0x008#13 .w32 w) :: rest →
      step s = .next { s with agenda := rest, response := .written, regs := { s.regs with ie := w.getLsbD 0 } }) ∧
    (∀ (addr : BitVec 13) (width : Width), s.agenda = .host (.read addr width) :: rest →
      ∃ r o, step s = .next { s with agenda := rest, response := r, oracle := o })

/-- R302: an access to 0x1800..0x1FFF, a register access that is not an aligned word, or a misaligned RAM access gets a bus
error and has no other effect: no register, flag, RAM byte or event changes, and IRQ does not. An access to a reserved
register offset gets none. -/
def Obligations.BusErrorChangesNothing : Prop :=
  ∀ (s : State) (rest : List Move) (a : HostAccess) (addr : BitVec 13) (width : Width),
    cfgWf s.cfg = true → s.agenda = .host a :: rest →
    (a = .read addr width ∨ ∃ w, a = .write addr width w) →
    ((0x1800 ≤ addr.toNat ∨ (addr.toNat < 0x1000 ∧ (width ≠ .w32 ∨ addr.toNat % 4 ≠ 0)) ∨
        (0x1000 ≤ addr.toNat ∧ addr.toNat < 0x1800 ∧ addr.toNat % width.bytes ≠ 0)) →
      ∃ t, step s = .next t ∧ t = { s with agenda := rest, response := .busError } ∧ irq t = irq s) ∧
    (0x038 ≤ addr.toNat ∧ addr.toNat ≤ 0xFFC ∧ width = .w32 ∧ addr.toNat % 4 = 0 →
      ∃ t, step s = .next t ∧ t.response ≠ .busError)

/-- R87: a RAM access of n bytes at offset o covers RAM[o] to RAM[o + n - 1] with RAM[o] the least significant byte: what an
idle machine's write leaves there, and what a read of written bytes returns. That an 8-bit or a 16-bit access takes the low
bits of the data word, and that such a read is zero-extended, is the model's choice (log 20). -/
def Obligations.RamAccessesAreLittleEndian : Prop :=
  ∀ (s : State) (rest : List Move) (addr : BitVec 13) (width : Width) (w : Word),
    cfgWf s.cfg = true → 0x1000 ≤ addr.toNat → addr.toNat < 0x1800 → addr.toNat % width.bytes = 0 →
    (s.status.busy = false → s.agenda = .host (.write addr width w) :: rest →
      ∃ t, step s = .next t ∧ t.regs = s.regs ∧ t.status = s.status ∧ t.history = s.history ∧
        (∀ k, k < width.bytes → t.ram.byte (addr.toNat - 0x1000 + k) = some (w.extractLsb' (8 * k) 8)) ∧
        (∀ a, (a < addr.toNat - 0x1000 ∨ addr.toNat - 0x1000 + width.bytes ≤ a) → t.ram.byte a = s.ram.byte a)) ∧
    (s.agenda = .host (.read addr width) :: rest →
      (∀ k, k < width.bytes → s.ram.byte (addr.toNat - 0x1000 + k) = some (w.extractLsb' (8 * k) 8)) →
      step s = .next { s with
        agenda := rest
        response := .data (w &&& BitVec.ofNat 32 (2 ^ (8 * width.bytes) - 1)) })

/-- R43: reserved offsets 0x038 to 0xFFC read as 0 and ignore writes, and a write there never sets REJ; reserved fields read
as 0 whatever was written. -/
def Obligations.ReservedSpaceReadsZero : Prop :=
  (∀ (s : State) (rest : List Move) (addr : BitVec 13), cfgWf s.cfg = true → 0x038 ≤ addr.toNat → addr.toNat ≤ 0xFFC →
    addr.toNat % 4 = 0 →
    (s.agenda = .host (.read addr .w32) :: rest → step s = .next { s with agenda := rest, response := .data 0#32 }) ∧
    (∀ w, s.agenda = .host (.write addr .w32 w) :: rest →
      step s = .next { s with agenda := rest, response := .written })) ∧
  (∀ s : State, (regRead 0x004 s).getLsbD 3 = false ∧ (regRead 0x004 s).extractLsb' 20 12 = 0#12 ∧
    (regRead 0x008 s).extractLsb' 1 31 = 0#31 ∧ (regRead 0x020 s).extractLsb' 24 8 = 0#8 ∧ regRead 0x000 s = 0#32)

/-- R31, R33 to R37, R39: what a host word write does. With BUSY = 0 a write to ARG0, ARG1, FREQ_MHZ or METER_ID stores the word;
busy or not, a write to CTRL stores bit 0, a write to STATUS clears DONE and REJ where its bits 1 and 2 are 1, and a write to
a read-only register (RES0, RES1, FREQ_WORD, RD_INDEX, RD_MISC, NOW, CAND) is ignored without error. Nothing else changes. -/
def Obligations.RegisterWritesStoreOrAreIgnored : Prop :=
  ∀ (s : State) (rest : List Move) (addr : BitVec 13) (w : Word), cfgWf s.cfg = true →
    s.agenda = .host (.write addr .w32 w) :: rest →
    (s.status.busy = false →
      (addr = 0x00C#13 → step s = .next { s with
        agenda := rest, response := .written, regs := { s.regs with arg0 := w } }) ∧
      (addr = 0x010#13 → step s = .next { s with
        agenda := rest, response := .written, regs := { s.regs with arg1 := w } }) ∧
      (addr = 0x01C#13 → step s = .next { s with
        agenda := rest, response := .written, regs := { s.regs with freqMhz := w } }) ∧
      (addr = 0x024#13 → step s = .next { s with
        agenda := rest, response := .written, regs := { s.regs with meterId := w } })) ∧
    (addr = 0x008#13 → step s = .next { s with
      agenda := rest, response := .written, regs := { s.regs with ie := w.getLsbD 0 } }) ∧
    (addr = 0x004#13 → step s = .next { s with
      agenda := rest, response := .written
      status := { s.status with
        done := s.status.done && !w.getLsbD 1
        rej := s.status.rej && !w.getLsbD 2 } }) ∧
    (addr = 0x014#13 ∨ addr = 0x018#13 ∨ addr = 0x020#13 ∨ addr = 0x028#13 ∨ addr = 0x02C#13 ∨ addr = 0x030#13 ∨
        addr = 0x034#13 →
      step s = .next { s with agenda := rest, response := .written })

/-- R31 to R42, R46, R300: a host word read of each register answers its value and changes nothing; every field of STATUS stands
at its place, and the numbers of RESULT and ATT_STATE are those of R300 and R46. -/
def Obligations.RegisterReadsAnswerTheirValues : Prop :=
  (∀ (s : State) (rest : List Move) (addr : BitVec 13) (v : Word), cfgWf s.cfg = true →
    s.agenda = .host (.read addr .w32) :: rest →
    ((addr = 0x000#13 ∧ v = 0#32) ∨ (addr = 0x004#13 ∧ v = statusWord s.status) ∨
      (addr = 0x008#13 ∧ v = 0#31 ++ BitVec.ofBool s.regs.ie) ∨ (addr = 0x00C#13 ∧ v = s.regs.arg0) ∨
      (addr = 0x010#13 ∧ v = s.regs.arg1) ∨ (addr = 0x014#13 ∧ v = s.regs.res0) ∨ (addr = 0x018#13 ∧ v = s.regs.res1) ∨
      (addr = 0x01C#13 ∧ v = s.regs.freqMhz) ∨ (addr = 0x020#13 ∧ v = 0#8 ++ s.regs.freqWord) ∨
      (addr = 0x024#13 ∧ v = s.regs.meterId) ∨ (addr = 0x028#13 ∧ v = s.regs.rdIndex) ∨
      (addr = 0x02C#13 ∧ v = s.regs.rdMisc) ∨ (addr = 0x030#13 ∧ v = s.regs.now) ∨ (addr = 0x034#13 ∧ v = s.regs.cand)) →
    step s = .next { s with agenda := rest, response := .data v }) ∧
  (∀ t : Status,
    (statusWord t).getLsbD 0 = t.busy ∧ (statusWord t).getLsbD 1 = t.done ∧ (statusWord t).getLsbD 2 = t.rej ∧
    (statusWord t).extractLsb' 4 4 = t.result.code ∧ (statusWord t).extractLsb' 8 3 = t.csState ∧
    (statusWord t).getLsbD 11 = t.csValid ∧ (statusWord t).extractLsb' 12 4 = t.csFifo ∧
    (statusWord t).extractLsb' 16 3 = t.att.code ∧ (statusWord t).getLsbD 19 = t.disc) ∧
  (ResultCode.ok.code = 0#4 ∧ ResultCode.timeout.code = 1#4 ∧ ResultCode.malformed.code = 2#4 ∧
    ResultCode.alloc.code = 3#4 ∧ ResultCode.illegal.code = 4#4 ∧ ResultCode.badArg.code = 5#4 ∧
    ResultCode.zeroReading.code = 6#4 ∧ ResultCode.notFound.code = 7#4) ∧
  (AttState.idle.code = 0#3 ∧ AttState.transmitting.code = 1#3 ∧ AttState.waitingForAck.code = 2#3 ∧
    AttState.waitingForResponse.code = 3#3 ∧ AttState.decoding.code = 4#3 ∧ AttState.success.code = 5#3 ∧
    AttState.failed.code = 6#3)

/-- R306: IRQ is STATUS.DONE and CTRL.IE as a host reads them; it follows DONE while IE is set, and clearing DONE by a
write of 1 to bit 1 of STATUS clears it. -/
def Obligations.InterruptIsDoneAndEnabled : Prop :=
  ∀ s : State,
    irq s = ((regRead 0x004 s).getLsbD 1 && (regRead 0x008 s).getLsbD 0) ∧
    (∀ w : Word, w.getLsbD 1 = true → irq (regWrite 0x004 w s) = false) ∧
    (∀ w : Word, s.status.busy = false → irq (regWrite 0x000 w s) = false) ∧
    (∀ c : ResultCode, irq (complete c s) = s.regs.ie)

/-- R330, R332: block reset, at any moment: every register and flag 0, no running command, no RAM byte with a value, the
history empty, CFG unchanged. -/
def Obligations.BlockResetClearsEverything : Prop :=
  ∀ (s : State) (rest : List Move), cfgWf s.cfg = true → s.agenda = .reset :: rest →
    ∃ t, step s = .next t ∧ statusWord t.status = 0#32 ∧ t.regs.ie = false ∧ irq t = false ∧ t.regs.arg0 = 0#32 ∧
      t.regs.arg1 = 0#32 ∧ t.regs.res0 = 0#32 ∧ t.regs.res1 = 0#32 ∧ t.regs.freqMhz = 0#32 ∧ t.regs.freqWord = 0#24 ∧
      t.regs.meterId = 0#32 ∧ t.regs.rdIndex = 0#32 ∧ t.regs.rdMisc = 0#32 ∧ t.regs.now = 0#32 ∧ t.regs.cand = 0#32 ∧
      t.ctx.opw = 0#32 ∧ t.ctx.a0 = 0#32 ∧ t.ctx.a1 = 0#32 ∧ t.ctx.answers = [] ∧ t.ctx.delayLeft = none ∧
      (∀ a, t.ram.byte a = none) ∧ t.history = [] ∧ t.cfg = s.cfg

/-- R55, R303, R308: every command, from its first line, completes exactly once: BUSY is cleared, DONE set, the one DONE event
carries its result code and NOW, no other command event occurs inside it, the hidden state is discarded; and the host's own
registers, the configuration and REJ keep their values. -/
def Obligations.EveryCommandCompletesOnce : Prop :=
  ∀ (i : Instr) (s : State), AtStart s →
    ∃ t events, exec i s = .next t ∧ t.history = s.history ++ events ++ [.done t.status.result t.regs.now] ∧
      commandEventsOf events = [] ∧ t.status.busy = false ∧ t.status.done = true ∧ t.ctx = .idle ∧ t.cfg = s.cfg ∧
      t.status.rej = s.status.rej ∧ t.regs.ie = s.regs.ie ∧ t.regs.arg0 = s.regs.arg0 ∧ t.regs.arg1 = s.regs.arg1 ∧
      t.regs.meterId = s.regs.meterId ∧ t.agenda = s.agenda ∧ t.response = s.response

/-! ### Invariants and whole-machine rules -/

/-- The invariant holds after reset under every well-formed configuration, and at the reset state itself. -/
def Obligations.InvariantHoldsAtReset : Prop :=
  (∀ c, cfgWf c = true → Machine.Inv (State.resetWith c)) ∧ Machine.Inv State.reset

/-- R80, R82, R51, R316: every step from a state that meets the invariant answers a next state (the machine never stops), and
that state meets it again. -/
def Obligations.StepKeepsInvariantAndNeverStops : Prop :=
  ∀ s : State, Machine.Inv s → ∃ t, step s = .next t ∧ Machine.Inv t

/-- R47, R48: ChipStatus is always what the status byte of the last exchange since reset said, whatever ran in between, and
0 with CS_VALID clear before the first. -/
def Obligations.ChipStatusMirrorsLastExchange : Prop :=
  (∀ c, ChipStatusMirrors (State.resetWith c)) ∧
  (∀ s t : State, ChipStatusMirrors s → step s = .next t → ChipStatusMirrors t)

/-- R140, R141: every exchange sends at least one byte and receives as many as it sends. -/
def Obligations.ExchangesStayBalanced : Prop :=
  (∀ c, ExchangesBalanced (State.resetWith c)) ∧
  (∀ s t : State, ExchangesBalanced s → step s = .next t → ExchangesBalanced t)

/-- R30, R52, R95: no step changes the configuration; the history only grows, but for block reset, which empties it. -/
def Obligations.StepKeepsConfigurationAndHistory : Prop :=
  ∀ s t : State, step s = .next t →
    t.cfg = s.cfg ∧
    (s.agenda.head? = some .reset → t.history = []) ∧
    (s.agenda.head? ≠ some .reset → ∃ events, t.history = s.history ++ events)

/-- R9, R89: carried out one primitive at a time, with ticks delivered while it waits, a running command reaches the same
completion as run as a whole, from every position inside it. -/
def Obligations.SingleMovesReachTheSameCompletion : Prop :=
  ∀ (s t : State), Machine.Inv s → s.status.busy = true → s.agenda = [] → step s = .next t →
    ∃ moves : List Move, (∀ m ∈ moves, m = .seq ∨ m = .tick) ∧ runMoves moves s = .next t

/-- R37: FREQ_MHZ is written by the RRB only by DISCOVER and BOOT. -/
def Obligations.OnlyDiscoveryAndBootWriteFreqMhz : Prop :=
  ∀ (i : Instr) (s : State), AtStart s → i ≠ .discover → i ≠ .boot →
    ∃ t, exec i s = .next t ∧ t.regs.freqMhz = s.regs.freqMhz ∧ t.regs.cand = s.regs.cand ∧
      t.status.disc = s.status.disc ∧ storesOf t.history = storesOf s.history

/-- R46, R269: ATT_STATE is written, and a reading published, only by ATTEMPT, DISCOVER and BOOT. -/
def Obligations.OnlyAttemptsWriteAttState : Prop :=
  ∀ (i : Instr) (s : State), AtStart s → i ≠ .attempt → i ≠ .discover → i ≠ .boot →
    ∃ t, exec i s = .next t ∧ t.status.att = s.status.att ∧ publishesOf t.history = publishesOf s.history

/-- R351: the commands that contain no `Delay` take no time. -/
def Obligations.UndelayedCommandsTakeNoTime : Prop :=
  ∀ (i : Instr) (s : State), AtStart s →
    (∀ t, i ≠ .waitst t) → (∀ l, i ≠ .waitedge l) → i ≠ .drain → i ≠ .rreset → i ≠ .rinit → i ≠ .attempt →
    i ≠ .discover → i ≠ .boot →
    ∃ t, exec i s = .next t ∧ t.regs.now = s.regs.now

/-- R99: the commands that store nothing in RAM leave every byte as it was. -/
def Obligations.NonStoringCommandsLeaveRam : Prop :=
  ∀ (i : Instr) (s : State), AtStart s →
    (∀ a n, i ≠ .rburst a n) → i ≠ .drain → i ≠ .encode → (∀ o, i ≠ .decode o) → i ≠ .buildreq → i ≠ .attempt →
    i ≠ .discover → i ≠ .boot →
    ∃ t, exec i s = .next t ∧ ∀ a, t.ram.byte a = s.ram.byte a

/-! ### Radio interface -/

/-- R140, R47: one exchange sends `hd :: tl`, receives as many bytes, is recorded with NOW, and sets ChipStatus from bits 6:4
and 3:0 of the first answer byte, CS_VALID to 1; nothing else of the RRB changes. The answer is a free draw: every answer of
that length is what some oracle gives; so with every GDO sample, every storage answer and every read of an unwritten RAM byte
(R8, R81). -/
def Obligations.ExchangeRecordsAndSetsChipStatus : Prop :=
  (∀ (hd : Byte) (tl : List Byte) (s : State),
    ∃ (st : Byte) (data : List Byte) (o : Oracle), data.length = tl.length ∧
      (doXfer hd tl s).1.1 = st ∧ (doXfer hd tl s).1.2.1 = data ∧
      (doXfer hd tl s).2 = { s with
        oracle := o
        history := s.history ++ [.xfer (hd :: tl) (st :: data) s.regs.now]
        status := { s.status with
          csState := st.extractLsb' 4 3
          csFifo := st.extractLsb' 0 4
          csValid := true } }) ∧
  (∀ (hd : Byte) (tl : List Byte) (s : State) (st : Byte) (data : List Byte), data.length = tl.length →
    ∃ o, (doXfer hd tl { s with oracle := o }).1.1 = st ∧ (doXfer hd tl { s with oracle := o }).1.2.1 = data) ∧
  (∀ (s : State) (level : Bool), ∃ o, (doGdo { s with oracle := o }).1 = level) ∧
  (∀ (s : State) (ans : Option Word), ∃ o, (doLoad { s with oracle := o }).1 = ans) ∧
  (∀ (m : Memory) (a : Nat) (b : Byte), m.byte a = none → ∃ o, (readByte m a o).1 = b)

/-- R151, R155: WREG makes the one exchange `hdr(0, bst, addr), value` and STROBE the one exchange `hdr(0, 0, code)`; both
complete with OK and change nothing else. At the header bits of R12 the header is `r`, `b` and the address, high to low (R142). -/
def Obligations.WregAndStrobeMakeOneExchange : Prop :=
  ∀ s : State, AtStart s →
    (∀ (addr : ChipAddr) (bst : Bool) (value : Byte),
      exec (.wreg addr bst value) s = .next (complete .ok (doXfer (hdr s.cfg false bst addr) [value] s).2)) ∧
    (∀ code : ChipAddr, exec (.strobe code) s = .next (complete .ok (doXfer (0#2 ++ code) [] s).2)) ∧
    (s.cfg.hdrReadBit = 7 → s.cfg.hdrBurstBit = 6 → ∀ (r b : Bool) (a : ChipAddr),
      hdr s.cfg r b a = BitVec.ofBool r ++ BitVec.ofBool b ++ a)

/-- R152: RREG makes the one exchange `hdr(1, bst, addr), 00` and puts the second answer byte into RES0. -/
def Obligations.RregReturnsTheByteRead : Prop :=
  ∀ (s : State) (addr : ChipAddr) (bst : Bool), AtStart s →
    ∃ v : Byte, (doXfer (hdr s.cfg true bst addr) [0x00#8] s).1.2.1 = [v] ∧
      exec (.rreg addr bst) s = .next (complete .ok
        { (doXfer (hdr s.cfg true bst addr) [0x00#8] s).2 with
          regs := { s.regs with res0 := v.zeroExtend 32 } })

/-- R153, R116: WBURST sends the header and the `n` RAM bytes from `off` in one exchange; BADARG for n = 0 or a reserved ARG0
bit, ALLOC where the range passes the RAM, with no other effect. -/
def Obligations.WburstSendsRamBytes : Prop :=
  ∀ (s : State) (addr : ChipAddr) (n : Byte), AtStart s →
    (n = 0#8 ∨ s.ctx.a0.extractLsb' 11 21 ≠ 0#21 → exec (.wburst addr n) s = .next (complete .badArg s)) ∧
    (n ≠ 0#8 → s.ctx.a0.extractLsb' 11 21 = 0#21 →
      (s.cfg.ramSize < argOff s.ctx.a0 + n.toNat → exec (.wburst addr n) s = .next (complete .alloc s)) ∧
      (argOff s.ctx.a0 + n.toNat ≤ s.cfg.ramSize →
        exec (.wburst addr n) s = .next (complete .ok
          (doXfer (hdr s.cfg false true addr) (memRead (argOff s.ctx.a0) n.toNat s).1.1
            (memRead (argOff s.ctx.a0) n.toNat s).2).2)))

/-- R154, R116: RBURST reads `n` bytes in one exchange of dummy bytes 00 and stores them from `off`; BADARG and ALLOC as WBURST;
every other RAM byte keeps its value. -/
def Obligations.RburstStoresChipBytes : Prop :=
  ∀ (s : State) (addr : ChipAddr) (n : Byte), AtStart s →
    (n = 0#8 ∨ s.ctx.a0.extractLsb' 11 21 ≠ 0#21 → exec (.rburst addr n) s = .next (complete .badArg s)) ∧
    (n ≠ 0#8 → s.ctx.a0.extractLsb' 11 21 = 0#21 →
      (s.cfg.ramSize < argOff s.ctx.a0 + n.toNat → exec (.rburst addr n) s = .next (complete .alloc s)) ∧
      (argOff s.ctx.a0 + n.toNat ≤ s.cfg.ramSize →
        ∃ t data, data.length = n.toNat ∧
          (doXfer (hdr s.cfg true true addr) (List.replicate n.toNat 0x00#8) s).1.2.1 = data ∧
          exec (.rburst addr n) s = .next t ∧
          t = complete .ok (memWrite (argOff s.ctx.a0) data
            (doXfer (hdr s.cfg true true addr) (List.replicate n.toNat 0x00#8) s).2) ∧
          (∀ k (h : k < data.length), t.ram.byte (argOff s.ctx.a0 + k) = some data[k]) ∧
          (∀ a, (a < argOff s.ctx.a0 ∨ argOff s.ctx.a0 + n.toNat ≤ a) → t.ram.byte a = s.ram.byte a)))

/-- R156, R144, R145: WAITST polls the state register at elapsed times 0, I, 2I, ... and last at exactly T. It ends OK at the
first poll whose status byte names the target, else TIMEOUT after ceil(T / I) + 1 polls at elapsed exactly T; RES0 says
which, RES1 is the elapsed time, NOW advances by it, and nothing else changes but ChipStatus and the history. -/
def Obligations.WaitstPollsUntilStateOrTimeout : Prop :=
  ∀ (s : State) (target : BitVec 3), cfgWf s.cfg = true → AtStart s →
    (s.ctx.a0.extractLsb' 16 16 ≠ 0#16 → exec (.waitst target) s = .next (complete .badArg s)) ∧
    (s.ctx.a0.extractLsb' 16 16 = 0#16 →
      ∃ (t : State) (polls : List Event) (states : List (BitVec 3)) (n : Nat),
        exec (.waitst target) s = .next t ∧
        t.history = s.history ++ polls ++ [.done t.status.result t.regs.now] ∧
        polls.length = n + 1 ∧ states.length = n + 1 ∧
        (∀ k, k ≤ n → ∃ st v, polls[k]? = some (.xfer [hdr s.cfg true true s.cfg.regStatePoll, 0x00#8] [st, v]
            (s.regs.now + BitVec.ofNat 32 (min (k * s.cfg.statePollMs) (argMs s.ctx.a0)))) ∧
          states[k]? = some (st.extractLsb' 4 3)) ∧
        (∀ k, k < n → states[k]? ≠ some target) ∧ states[n]? = some t.status.csState ∧
        ((t.status.result = .ok ∧ t.status.csState = target ∧ t.regs.res0 = 1#32) ∨
         (t.status.result = .timeout ∧ t.status.csState ≠ target ∧ t.regs.res0 = 0#32 ∧
            n = (argMs s.ctx.a0 + s.cfg.statePollMs - 1) / s.cfg.statePollMs ∧
            t.regs.res1 = BitVec.ofNat 32 (argMs s.ctx.a0))) ∧
        n ≤ (argMs s.ctx.a0 + s.cfg.statePollMs - 1) / s.cfg.statePollMs ∧
        t.regs = { s.regs with
          res0 := t.regs.res0
          res1 := BitVec.ofNat 32 (min (n * s.cfg.statePollMs) (argMs s.ctx.a0))
          now := s.regs.now + t.regs.res1 } ∧
        t.ram = s.ram ∧ t.cfg = s.cfg ∧ t.status.rej = s.status.rej ∧ t.status.att = s.status.att ∧
        t.status.disc = s.status.disc)

/-- R157, R144, R146: WAITEDGE samples the GDO line at elapsed times 0, I, 2I, ... and last at exactly T, makes no exchange and
leaves ChipStatus; it ends OK at the first sample equal to the level, else TIMEOUT at elapsed exactly T. -/
def Obligations.WaitedgeSamplesUntilLevelOrTimeout : Prop :=
  ∀ (s : State) (level : Bool), cfgWf s.cfg = true → AtStart s →
    (s.ctx.a0.extractLsb' 16 16 ≠ 0#16 → exec (.waitedge level) s = .next (complete .badArg s)) ∧
    (s.ctx.a0.extractLsb' 16 16 = 0#16 →
      ∃ (t : State) (n : Nat) (last : Bool),
        exec (.waitedge level) s = .next t ∧
        t.history = s.history ++
          (List.range n).map (fun k => Event.gdo (!level)
            (s.regs.now + BitVec.ofNat 32 (min (k * s.cfg.edgePollMs) (argMs s.ctx.a0)))) ++
          [.gdo last t.regs.now, .done t.status.result t.regs.now] ∧
        ((t.status.result = .ok ∧ last = level ∧ t.regs.res0 = 1#32) ∨
         (t.status.result = .timeout ∧ last = (!level) ∧ t.regs.res0 = 0#32 ∧
            n = (argMs s.ctx.a0 + s.cfg.edgePollMs - 1) / s.cfg.edgePollMs ∧
            t.regs.res1 = BitVec.ofNat 32 (argMs s.ctx.a0))) ∧
        n ≤ (argMs s.ctx.a0 + s.cfg.edgePollMs - 1) / s.cfg.edgePollMs ∧
        t.regs = { s.regs with
          res0 := t.regs.res0
          res1 := BitVec.ofNat 32 (min (n * s.cfg.edgePollMs) (argMs s.ctx.a0))
          now := s.regs.now + t.regs.res1 } ∧
        t.status = { s.status with busy := false, done := true, result := t.status.result } ∧ t.ram = s.ram ∧
        t.cfg = s.cfg)

/-- R159, R158, R346: DRAIN makes rounds at elapsed 0, I, 2I, ... and at the latest T, each an occupancy read and, where the masked
count is not 0, a burst read of as many bytes, stored one burst after the other from `off` on; the history holds exactly these
exchanges. It ends OK with the round that brings N bytes (and passes them by at most one burst), TIMEOUT with RES0 = 0 after a
round at exactly T with fewer, or ALLOC with RES0 = 0 after an occupancy read, no later than at T, whose burst would pass the RAM; RES1 is the number
of bytes stored, and every other RAM byte, register and flag keeps its value. -/
def Obligations.DrainCapturesUntilTargetOrTimeout : Prop :=
  ∀ s : State, cfgWf s.cfg = true → AtStart s →
    (argLen s.ctx.a0 = 0 ∨ s.cfg.ramSize < argLen s.ctx.a0 ∨ s.ctx.a1.extractLsb' 11 21 ≠ 0#21 →
      exec .drain s = .next (complete .badArg s)) ∧
    (1 ≤ argLen s.ctx.a0 → argLen s.ctx.a0 ≤ s.cfg.ramSize → s.ctx.a1.extractLsb' 11 21 = 0#21 →
      ∃ (t : State) (rounds : List DrainRound) (stored : List Byte) (e : Nat), exec .drain s = .next t ∧
        stored = captured rounds ∧ RoundsOk s.cfg (argMs s.ctx.a0) (argLen s.ctx.a0) rounds ∧
        ((t.status.result = .ok ∧ argLen s.ctx.a0 ≤ stored.length ∧
            stored.length < argLen s.ctx.a0 + s.cfg.occMask.toNat ∧ t.regs.res0 = BitVec.ofNat 32 stored.length ∧
            e = min ((rounds.length - 1) * s.cfg.fifoPollMs) (argMs s.ctx.a0) ∧
            t.history = s.history ++ roundsEvents s.cfg (argMs s.ctx.a0) s.regs.now rounds ++ [.done .ok t.regs.now]) ∨
         (t.status.result = .timeout ∧ stored.length < argLen s.ctx.a0 ∧ t.regs.res0 = 0#32 ∧
            rounds.length = lastRound s.cfg.fifoPollMs (argMs s.ctx.a0) + 1 ∧ e = argMs s.ctx.a0 ∧
            t.history = s.history ++ roundsEvents s.cfg (argMs s.ctx.a0) s.regs.now rounds ++
              [.done .timeout t.regs.now]) ∨
         (t.status.result = .alloc ∧ stored.length < argLen s.ctx.a0 ∧ t.regs.res0 = 0#32 ∧
            rounds.length ≤ lastRound s.cfg.fifoPollMs (argMs s.ctx.a0) ∧
            e = min (rounds.length * s.cfg.fifoPollMs) (argMs s.ctx.a0) ∧
            ∃ st v, s.cfg.ramSize < argOff s.ctx.a1 + stored.length + (v &&& s.cfg.occMask).toNat ∧
              t.history = s.history ++ roundsEvents s.cfg (argMs s.ctx.a0) s.regs.now rounds ++
                [.xfer [hdr s.cfg true true s.cfg.regRxbytes, 0x00#8] [st, v] t.regs.now, .done .alloc t.regs.now])) ∧
        t.regs = { s.regs with
          res0 := t.regs.res0
          res1 := BitVec.ofNat 32 stored.length
          now := s.regs.now + BitVec.ofNat 32 e } ∧
        argOff s.ctx.a1 + stored.length ≤ s.cfg.ramSize ∧
        (∀ k (h : k < stored.length), t.ram.byte (argOff s.ctx.a1 + k) = some stored[k]) ∧
        (∀ a, (a < argOff s.ctx.a1 ∨ argOff s.ctx.a1 + stored.length ≤ a) → t.ram.byte a = s.ram.byte a) ∧
        t.cfg = s.cfg ∧ t.status.rej = s.status.rej ∧ t.status.att = s.status.att ∧ t.status.disc = s.status.disc)

/-- R160: SETFREQ outside the domain is BADARG with no effect; inside it FREQ_WORD and RES0 take the frequency word, and its three
bytes go high, mid, low to the three frequency registers; FREQ_MHZ is not written. -/
def Obligations.SetfreqWritesTheWord : Prop :=
  ∀ s : State, AtStart s →
    (f32InDomain s.ctx.a0 = false → exec .setfreq s = .next (complete .badArg s)) ∧
    (f32InDomain s.ctx.a0 = true →
      ∃ t, exec .setfreq s = .next t ∧ t.status.result = .ok ∧
        t.regs = { s.regs with
          freqWord := freqWordCore s.cfg s.ctx.a0
          res0 := (freqWordCore s.cfg s.ctx.a0).zeroExtend 32 } ∧
        xfersOf t.history = xfersOf s.history ++
          [([0#2 ++ s.cfg.regFreq2, (freqWordCore s.cfg s.ctx.a0).extractLsb' 16 8], s.regs.now),
           ([0#2 ++ s.cfg.regFreq1, (freqWordCore s.cfg s.ctx.a0).extractLsb' 8 8], s.regs.now),
           ([0#2 ++ s.cfg.regFreq0, (freqWordCore s.cfg s.ctx.a0).extractLsb' 0 8], s.regs.now)] ∧
        t.ram = s.ram ∧ t.status.att = s.status.att)

/-- R150, R15: the frequency word of `f`, in units of 2^-149 MHz. The high byte counts the whole 26 MHz steps, `m` the whole 0.1015625 MHz
steps of the rest, both exact; `l` counts the low subtractions of C_LO, the binary64 nearest 0.00039675, each rounded to 53 and
then to 24 bits, until less than C_LO is left; an `l` above 255 carries into the mid byte. Rounding is to nearest, ties to even.
The loop ends before the iterations it is given run out, and 433.92 MHz gives 10 B0 71. -/
def Obligations.FrequencyWordByRepeatedSubtraction : Prop :=
  (∀ p k n : Nat, 1 ≤ p → 2 ^ (p - 1 + k) ≤ n → n < 2 ^ (p + k) →
    ∃ q, roundSig p n = q * 2 ^ k ∧ 2 * (q * 2 ^ k - n) ≤ 2 ^ k ∧ 2 * (n - q * 2 ^ k) ≤ 2 ^ k ∧
      (2 * (q * 2 ^ k - n) = 2 ^ k ∨ 2 * (n - q * 2 ^ k) = 2 ^ k → q % 2 = 0)) ∧
  (∀ p n : Nat, n < 2 ^ p → roundSig p n = n) ∧
  (∀ (c : Cfg) (f : Word), cfgWf c = true → f32InDomain f = true →
    ∃ (hi mid lo h m l : Nat) (low : Nat → Nat), hi = 26 * 2 ^ 149 ∧ mid = 13 * 2 ^ 142 ∧
      lo = roundSig 53 (39675 * 2 ^ 149 / 10 ^ 8) ∧ h = f32Mag f / hi ∧ m = f32Mag f % hi / mid ∧
      low 0 = f32Mag f % hi % mid ∧
      (∀ k, k < l → lo ≤ low k ∧ low (k + 1) = roundSig 24 (roundSig 53 (low k - lo))) ∧ low l < lo ∧
      freqWordCore c f =
        BitVec.ofNat 8 h ++ BitVec.ofNat 8 (if 255 < l then m + 1 else m) ++ BitVec.ofNat 8 (if 255 < l then l - 256 else l) ∧
      (∀ extra, freqLoop (stepUnits c.fstepHi) (stepUnits c.fstepMid) (stepUnits c.fstepLo) (freqFuel + extra) (f32Mag f)
        0 0 0 = (h, m, l))) ∧
  (∀ c : Cfg, cfgWf c = true → freqWordCore c 0x43D8F5C3#32 = 0x10B071#24)

/-- R161: RSSI. RES0 is dBm as a 32-bit two's-complement number: the model's reading, log 10, since dBm below -128 does not fit
the i8 that R161 names. -/
def Obligations.RssiConvertsToDbm : Prop :=
  ∀ (s : State) (raw : Byte), AtStart s →
    ∃ dbm : Int, exec (.rssi raw) s = .next (complete .ok { s with regs := { s.regs with res0 := BitVec.ofInt 32 dbm } }) ∧
      (128 ≤ raw.toNat → dbm = ((raw.toNat : Int) - 256).tdiv 2 - s.cfg.rssiOffset) ∧
      (raw.toNat < 128 → dbm = (raw.toNat : Int).tdiv 2 - s.cfg.rssiOffset)

/-- R162, R147: RRESET strobes reset, RX flush and TX flush, each followed by SETTLE_MS; no register of the RRB changes but NOW. -/
def Obligations.RresetStrobesAndSettles : Prop :=
  ∀ s : State, AtStart s →
    ∃ t, exec .rreset s = .next t ∧ t.status.result = .ok ∧
      xfersOf t.history = xfersOf s.history ++
        [([0#2 ++ s.cfg.sRes], s.regs.now), ([0#2 ++ s.cfg.sFrx], s.regs.now + BitVec.ofNat 32 s.cfg.settleMs),
         ([0#2 ++ s.cfg.sFtx], s.regs.now + BitVec.ofNat 32 (2 * s.cfg.settleMs))] ∧
      t.regs = { s.regs with now := s.regs.now + BitVec.ofNat 32 (3 * s.cfg.settleMs) } ∧ t.ram = s.ram ∧
      t.status.att = s.status.att

/-- R163, R149, R148: PRESET writes the table's entries in increasing order of address, the bytes of FREQ_WORD put in at the three
frequency registers; an empty table sends nothing and leaves ChipStatus. -/
def Obligations.PresetWritesTableInOrder : Prop :=
  ∀ (s : State) (id : PresetId), AtStart s →
    ∃ (t : State) (l : List (ChipAddr × Byte)), exec (.preset id) s = .next t ∧ t.status.result = .ok ∧ l.Perm (tableOf s.cfg id) ∧
      l.Pairwise (fun a b => a.1.toNat ≤ b.1.toNat) ∧
      xfersOf t.history = xfersOf s.history ++ l.map (fun e =>
        ([0#2 ++ e.1,
          if e.1 = s.cfg.regFreq2 then s.regs.freqWord.extractLsb' 16 8
          else if e.1 = s.cfg.regFreq1 then s.regs.freqWord.extractLsb' 8 8
          else if e.1 = s.cfg.regFreq0 then s.regs.freqWord.extractLsb' 0 8
          else e.2], s.regs.now)) ∧
      t.regs = s.regs ∧ t.ram = s.ram ∧ t.status.att = s.status.att ∧
      (tableOf s.cfg id = [] → t.status = { s.status with busy := false, done := true, result := .ok })

/-! ### Line codec and CRC -/

/-- R203, R116: ENCODE reads its whole input, writes the encoding at dst and its length to RES0; every other byte and register
keeps its value; BADARG and ALLOC have no effect. -/
def Obligations.EncodeWritesTheEncoding : Prop :=
  ∀ s : State, AtStart s →
    (s.ctx.a0.extractLsb' 11 5 ≠ 0#5 ∨ s.ctx.a1.extractLsb' 11 21 ≠ 0#21 →
      exec .encode s = .next (complete .badArg s)) ∧
    (s.ctx.a0.extractLsb' 11 5 = 0#5 → s.ctx.a1.extractLsb' 11 21 = 0#21 →
      (s.cfg.ramSize < argOff s.ctx.a0 + argLen s.ctx.a0 ∨ s.cfg.ramSize < argOff s.ctx.a1 + (10 * argLen s.ctx.a0 + 7) / 8 →
        exec .encode s = .next (complete .alloc s)) ∧
      (argOff s.ctx.a0 + argLen s.ctx.a0 ≤ s.cfg.ramSize → argOff s.ctx.a1 + (10 * argLen s.ctx.a0 + 7) / 8 ≤ s.cfg.ramSize →
        ∃ t input o, memRead (argOff s.ctx.a0) (argLen s.ctx.a0) s = (input, { s with oracle := o }) ∧
          exec .encode s = .next t ∧
          t = complete .ok (memWrite (argOff s.ctx.a1) (encodeCore input.1)
            { s with
              oracle := o
              regs := { s.regs with res0 := BitVec.ofNat 32 ((10 * argLen s.ctx.a0 + 7) / 8) } }) ∧
          (∀ a, (a < argOff s.ctx.a1 ∨ argOff s.ctx.a1 + (10 * argLen s.ctx.a0 + 7) / 8 ≤ a) →
            t.ram.byte a = s.ram.byte a)))

/-- R202, R204: the encoded length is ceil(10·n / 8) = (5·n + 3) div 4, 0 for no input. The encoder has no state: encodings of
whole groups of four bytes concatenate; read as bits, position 10i holds 0, position 10i + 9 holds 1, and every position
from 10n on holds 1. -/
def Obligations.EncoderLengthAndFraming : Prop :=
  (∀ b : List Byte, (encodeCore b).length = (10 * b.length + 7) / 8 ∧ (encodeCore b).length = (5 * b.length + 3) / 4) ∧
  encodeCore [] = [] ∧
  (∀ x y : List Byte, x.length % 4 = 0 → encodeCore (x ++ y) = encodeCore x ++ encodeCore y) ∧
  (∀ x : List Byte,
    (∀ i, i < x.length → (unpack (encodeCore x))[10 * i]? = some false ∧
      (unpack (encodeCore x))[10 * i + 9]? = some true) ∧
    (∀ k, 10 * x.length ≤ k → k < (unpack (encodeCore x)).length → (unpack (encodeCore x))[k]? = some true))

/-- R212, R210, R116: DECODE reads its whole input, zero-fills the output region and writes the decoded bytes; RES0 is the count,
RES1 the stop reason; every other byte and register keeps its value; BADARG and ALLOC have no effect. -/
def Obligations.DecodeWritesTheBytes : Prop :=
  ∀ (s : State) (osr : Osr), AtStart s →
    (s.ctx.a0.extractLsb' 11 5 ≠ 0#5 ∨ s.ctx.a1.extractLsb' 11 5 ≠ 0#5 →
      exec (.decode osr) s = .next (complete .badArg s)) ∧
    (s.ctx.a0.extractLsb' 11 5 = 0#5 → s.ctx.a1.extractLsb' 11 5 = 0#5 →
      (s.cfg.ramSize < argOff s.ctx.a0 + argLen s.ctx.a0 ∨ s.cfg.ramSize < argOff s.ctx.a1 + argLen s.ctx.a1 →
        exec (.decode osr) s = .next (complete .alloc s)) ∧
      (argOff s.ctx.a0 + argLen s.ctx.a0 ≤ s.cfg.ramSize → argOff s.ctx.a1 + argLen s.ctx.a1 ≤ s.cfg.ramSize →
        ∃ t input o out reason, memRead (argOff s.ctx.a0) (argLen s.ctx.a0) s = (input, { s with oracle := o }) ∧
          decodeCore input.1 (match osr with | .x1 => 1 | .x2 => 2 | .x4 => 4) (argLen s.ctx.a1) = (out, reason) ∧
          exec (.decode osr) s = .next t ∧
          t.status = { s.status with busy := false, done := true, result := .ok } ∧
          t.regs = { s.regs with res0 := BitVec.ofNat 32 out.length, res1 := BitVec.ofNat 32 reason } ∧
          t.history = s.history ++ [.done .ok s.regs.now] ∧ out.length ≤ argLen s.ctx.a1 ∧
          (∀ k (h : k < out.length), t.ram.byte (argOff s.ctx.a1 + k) = some out[k]) ∧
          (∀ k, out.length ≤ k → k < argLen s.ctx.a1 → t.ram.byte (argOff s.ctx.a1 + k) = some 0x00#8) ∧
          (∀ a, (a < argOff s.ctx.a1 ∨ argOff s.ctx.a1 + argLen s.ctx.a1 ≤ a) → t.ram.byte a = s.ram.byte a)))

/-- R213: the decoder inverts the encoder at OSR 1, and at OSR r the encoder's output with every bit repeated r times; the reason
is 0 when the capacity exceeds the length and 2 when it equals it. -/
def Obligations.DecoderInvertsEncoder : Prop :=
  ∀ (x : List Byte) (cap : Nat),
    (x.length < cap → decodeCore (encodeCore x) 1 cap = (x, 0)) ∧
    (cap = x.length → decodeCore (encodeCore x) 1 cap = (x, 2)) ∧
    (∀ r, r = 1 ∨ r = 2 ∨ r = 4 →
      (x.length < cap → decodeCore (expandBits r (encodeCore x)) r cap = (x, 0)) ∧
      (cap = x.length → decodeCore (expandBits r (encodeCore x)) r cap = (x, 2)))

/-- R214: a sample byte F0 whose 1 samples are not joined to a preceding 1 and whose 0 samples are not joined to a following 0
contributes exactly the line bits 1, 0 at OSR 4, 1,1,0,0 at OSR 2, and its own bits at OSR 1; and the decoder gives no byte
for it alone at OSR 4, with reason 0. -/
def Obligations.SampleByteF0GivesOneZero : Prop :=
  (∀ pre post : List Bool, pre.getLast? ≠ some true → post.head? ≠ some false →
    lineBitsOf 4 (pre ++ unpack [0xF0#8] ++ post) = lineBitsOf 4 pre ++ [true, false] ++ lineBitsOf 4 post ∧
    lineBitsOf 2 (pre ++ unpack [0xF0#8] ++ post) = lineBitsOf 2 pre ++ [true, true, false, false] ++ lineBitsOf 2 post ∧
    lineBitsOf 1 (pre ++ unpack [0xF0#8] ++ post) =
      lineBitsOf 1 pre ++ [true, true, true, true, false, false, false, false] ++ lineBitsOf 1 post) ∧
  (∀ cap, 1 ≤ cap → decodeCore [0xF0#8] 4 cap = ([], 0))

/-- R232, R116: CRC puts the CRC register of the bytes into RES0 and its byte-swapped value into RES1; RAM is not written, no
exchange is made; BADARG and ALLOC have no effect. -/
def Obligations.CrcReturnsRegisterAndSwap : Prop :=
  ∀ s : State, AtStart s →
    (s.ctx.a0.extractLsb' 11 5 ≠ 0#5 → exec .crc s = .next (complete .badArg s)) ∧
    (s.ctx.a0.extractLsb' 11 5 = 0#5 →
      (s.cfg.ramSize < argOff s.ctx.a0 + argLen s.ctx.a0 → exec .crc s = .next (complete .alloc s)) ∧
      (argOff s.ctx.a0 + argLen s.ctx.a0 ≤ s.cfg.ramSize →
        ∃ input o, memRead (argOff s.ctx.a0) (argLen s.ctx.a0) s = (input, { s with oracle := o }) ∧
          exec .crc s = .next (complete .ok { s with
            oracle := o
            regs := { s.regs with
              res0 := 0#16 ++ crcCore input.1
              res1 := 0#16 ++ ((crcCore input.1).extractLsb' 0 8 ++ (crcCore input.1).extractLsb' 8 8) } })))

/-- R233: the CRC of nothing and of zero bytes is 0, it is linear on sequences of equal length, and a sequence followed by its
CRC bytes, low byte first, has CRC 0. -/
def Obligations.CrcIsLinearWithZeroResidue : Prop :=
  crcCore [] = 0#16 ∧ (∀ k, crcCore (List.replicate k 0x00#8) = 0#16) ∧
  (∀ x y : List Byte, x.length = y.length → crcCore (List.zipWith (· ^^^ ·) x y) = crcCore x ^^^ crcCore y) ∧
  (∀ p : List Byte, crcCore (p ++ [(crcCore p).extractLsb' 0 8, (crcCore p).extractLsb' 8 8]) = 0#16)

/-! ### Protocol state machine -/

/-- R241, R240: BUILDREQ writes the 33-byte frame of METER_ID at dst, RES0 = 33, RES1 the CRC register; the frame is the prefix,
then the encoding of the 17 payload bytes and the CRC register low byte first; every other RAM byte keeps its value. -/
def Obligations.BuildreqWritesTheFrame : Prop :=
  ∀ s : State, AtStart s →
    (s.ctx.a1.extractLsb' 11 21 ≠ 0#21 → exec .buildreq s = .next (complete .badArg s)) ∧
    (s.ctx.a1.extractLsb' 11 21 = 0#21 → s.cfg.ramSize < argOff s.ctx.a1 + 33 → exec .buildreq s = .next (complete .alloc s)) ∧
    (s.ctx.a1.extractLsb' 11 21 = 0#21 → argOff s.ctx.a1 + 33 ≤ s.cfg.ramSize →
      ∃ (t : State) (p : List Byte), p = reqPayload s.cfg s.regs.meterId ∧ exec .buildreq s = .next t ∧
        t = complete .ok (memWrite (argOff s.ctx.a1)
          (s.cfg.syncPrefix.1 ++ encodeCore (p ++ [(crcCore p).extractLsb' 0 8, (crcCore p).extractLsb' 8 8]))
          { s with regs := { s.regs with res0 := 33#32, res1 := 0#16 ++ crcCore p } }) ∧
        (∀ a, (a < argOff s.ctx.a1 ∨ argOff s.ctx.a1 + 33 ≤ a) → t.ram.byte a = s.ram.byte a))

/-- R240: the payload is the template with the year at YEAR_POS and the three serial bytes, most significant first, from
SERIAL_POS, and every other byte the template's. -/
def Obligations.PayloadCarriesYearAndSerial : Prop :=
  ∀ (c : Cfg) (m : Word), cfgWf c = true →
    (reqPayload c m)[c.yearPos]? = some (m.extractLsb' 24 8) ∧
    (reqPayload c m)[c.serialPos]? = some (m.extractLsb' 16 8) ∧
    (reqPayload c m)[c.serialPos + 1]? = some (m.extractLsb' 8 8) ∧
    (reqPayload c m)[c.serialPos + 2]? = some (m.extractLsb' 0 8) ∧
    (∀ k, k ≠ c.yearPos → k ≠ c.serialPos → k ≠ c.serialPos + 1 → k ≠ c.serialPos + 2 →
      (reqPayload c m)[k]? = c.reqTemplate.1[k]?)

/-- R242: 17 + 2 = 19 payload bytes, 28 with the prefix, 24 after coding with two padding 1 bits, 33 bytes transmitted. -/
def Obligations.FrameHasThirtyThreeBytes : Prop :=
  ∀ (c : Cfg) (m : Word),
    (reqPayload c m).length = 17 ∧ (reqPayload c m ++ crcBytes (reqCrc c m)).length = 19 ∧
    (c.syncPrefix.1 ++ (reqPayload c m ++ crcBytes (reqCrc c m))).length = 28 ∧
    (encodeCore (reqPayload c m ++ crcBytes (reqCrc c m))).length = 24 ∧
    padOnes (lineBits (reqPayload c m ++ crcBytes (reqCrc c m))) =
      lineBits (reqPayload c m ++ crcBytes (reqCrc c m)) ++ [true, true] ∧
    (reqFrame c m).length = 33

/-- R251, R250, R116: EXTRACT. With fewer than MIN_DECODED bytes the reading registers are cleared and the result is MALFORMED; else they
take the fields at the OFF_ offsets of the 49 bytes at src, with OK and RES0 = 1, or ZERO_READING when every field is 0. -/
def Obligations.ExtractReadsTheFields : Prop :=
  ∀ s : State, AtStart s →
    (s.ctx.a0.extractLsb' 11 5 ≠ 0#5 → exec .extract s = .next (complete .badArg s)) ∧
    (s.ctx.a0.extractLsb' 11 5 = 0#5 → argLen s.ctx.a0 < s.cfg.minDecoded →
      exec .extract s = .next (complete .malformed { s with regs := { s.regs with rdIndex := 0#32, rdMisc := 0#32 } })) ∧
    (s.ctx.a0.extractLsb' 11 5 = 0#5 → s.cfg.minDecoded ≤ argLen s.ctx.a0 → s.cfg.ramSize < argOff s.ctx.a0 + 49 →
      exec .extract s = .next (complete .alloc s)) ∧
    (s.ctx.a0.extractLsb' 11 5 = 0#5 → s.cfg.minDecoded ≤ argLen s.ctx.a0 → argOff s.ctx.a0 + 49 ≤ s.cfg.ramSize →
      ∃ (b : Bytes 49) (o : Oracle) (index misc : Word),
        memRead (argOff s.ctx.a0) 49 s = (b, { s with oracle := o }) ∧
        index = b.1.getD (s.cfg.offIndex.val + 3) 0 ++ b.1.getD (s.cfg.offIndex.val + 2) 0 ++
          b.1.getD (s.cfg.offIndex.val + 1) 0 ++ b.1.getD s.cfg.offIndex.val 0 ∧
        misc = b.1.getD s.cfg.offWakeStop.val 0 ++ b.1.getD s.cfg.offWakeStart.val 0 ++ b.1.getD s.cfg.offBattery.val 0 ++
          b.1.getD s.cfg.offReads.val 0 ∧
        (index = 0#32 ∧ misc = 0#32 → exec .extract s = .next (complete .zeroReading
          { s with oracle := o, regs := { s.regs with rdIndex := 0#32, rdMisc := 0#32 } })) ∧
        (index ≠ 0#32 ∨ misc ≠ 0#32 → exec .extract s = .next (complete .ok
          { s with oracle := o, regs := { s.regs with rdIndex := index, rdMisc := misc, res0 := 1#32 } })))

/-- R260: RINIT outside the domain is BADARG with no effect; else it strobes reset and the two flushes, each followed by SETTLE_MS, then
writes the three bytes of the frequency word of FREQ_MHZ and the default table in address order, its frequency bytes those of
that word (R148, R149); RES0 is FREQ_WORD. -/
def Obligations.RinitResetsAndTunes : Prop :=
  ∀ s : State, AtStart s →
    (f32InDomain s.regs.freqMhz = false → exec .rinit s = .next (complete .badArg s)) ∧
    (f32InDomain s.regs.freqMhz = true →
      ∃ (t : State) (order : List (ChipAddr × Byte)), exec .rinit s = .next t ∧ t.status.result = .ok ∧
        order.Perm s.cfg.presetDefault ∧ order.Pairwise (fun a b => a.1.toNat ≤ b.1.toNat) ∧
        xfersOf t.history = xfersOf s.history ++ rinitXfers s.cfg s.regs.freqMhz s.regs.now order ∧
        t.regs = { s.regs with
          freqWord := freqWordCore s.cfg s.regs.freqMhz
          res0 := 0#8 ++ freqWordCore s.cfg s.regs.freqMhz
          now := s.regs.now + BitVec.ofNat 32 (3 * s.cfg.settleMs) } ∧
        t.ram = s.ram ∧ t.status.att = s.status.att)

/-- R262 to R269, R261: ATTEMPT records exactly the trace of R262's pseudocode up to where it ends (every table, strobe, poll, sample,
preamble chunk, frame and burst, with its NOW) and gives ATT_STATE the values of R261's transitions. An end before Decoding is
TIMEOUT, RES1 = 0; a captured response ends by what it decodes to: OK with a nonzero reading and one PUBLISH of it, MALFORMED or
ZERO_READING; never ALLOC (R266). A failure leaves ATT_STATE Failed, the reading registers and RES0 0, and no PUBLISH. There is
no STORE, and FREQ_MHZ, FREQ_WORD, CAND and the RAM outside the frame, DECR and RXR keep their values. -/
def Obligations.AttemptSucceedsOrFails : Prop :=
  ∀ s : State, cfgWf s.cfg = true → AtStart s →
    ∃ (t : State) (events : List Event) (ending : AttemptEnd), exec .attempt s = .next t ∧
      attemptTrace s.cfg s.regs.freqWord (reqFrame s.cfg s.regs.meterId) ending s.regs.now events t.regs.now ∧
      (program s.cfg s.ctx.a0 s.ctx.a1 .attempt).attWrites s =
        attemptStates ending (decide (t.status.result = .ok)) ∧
      (∀ raw, ending = .response raw → s.cfg.respRawLen ≤ raw.length ∧
        ∃ d, d ≤ 256 ∧ t.regs.res1 = (BitVec.ofNat 32 raw.length <<< 16) ||| BitVec.ofNat 32 d ∧
          ((t.status.result = .ok ∧ s.cfg.minDecoded ≤ d) ∨ (t.status.result = .malformed ∧ d < s.cfg.minDecoded) ∨
            (t.status.result = .zeroReading ∧ s.cfg.minDecoded ≤ d))) ∧
      ((∀ raw, ending ≠ .response raw) → t.status.result = .timeout ∧ t.regs.res1 = 0#32) ∧
      (t.status.result = .ok → t.status.att = .success ∧ t.regs.res0 = 1#32 ∧
        (t.regs.rdIndex ≠ 0#32 ∨ t.regs.rdMisc ≠ 0#32) ∧
        t.history = s.history ++ events ++ [.publish t.regs.rdIndex (t.regs.rdMisc.extractLsb' 0 8)
            (t.regs.rdMisc.extractLsb' 8 8) (t.regs.rdMisc.extractLsb' 16 8) (t.regs.rdMisc.extractLsb' 24 8),
          .done .ok t.regs.now]) ∧
      (t.status.result ≠ .ok → t.status.att = .failed ∧ t.regs.res0 = 0#32 ∧ t.regs.rdIndex = 0#32 ∧
        t.regs.rdMisc = 0#32 ∧ t.history = s.history ++ events ++ [.done t.status.result t.regs.now]) ∧
      storesOf t.history = storesOf s.history ∧ t.regs.freqMhz = s.regs.freqMhz ∧ t.regs.freqWord = s.regs.freqWord ∧
      t.regs.cand = s.regs.cand ∧ t.status.disc = s.status.disc ∧
      (∀ a, 33 ≤ a → a < 0x080 → t.ram.byte a = s.ram.byte a) ∧
      (∀ a, 0x180 + max s.cfg.ackRawLen s.cfg.respRawLen + s.cfg.occMask.toNat ≤ a → t.ram.byte a = s.ram.byte a)

/-- R262, R263, R268, R250: an attempt that reaches Decoding leaves the frame in TXR, the bytes its response bursts were answered in RXR and
the bytes they decode to at RESP_OSR, with zeros after them, in DECR; RES1 counts both. Fewer than MIN_DECODED decoded bytes is
MALFORMED, all fields zero ZERO_READING, and else the reading registers take the fields, with OK. -/
def Obligations.AttemptDecodesTheCapture : Prop :=
  ∀ s t : State, cfgWf s.cfg = true → AtStart s → exec .attempt s = .next t →
    (t.status.result = .ok ∨ t.status.result = .malformed ∨ t.status.result = .zeroReading) →
    ∃ (raw out : List Byte) (index misc : Word) (events rest : List Event), t.history = s.history ++ events ++ rest ∧
      attemptTrace s.cfg s.regs.freqWord (reqFrame s.cfg s.regs.meterId) (.response raw) s.regs.now events t.regs.now ∧
      out = (decodeCore raw (match s.cfg.respOsr with | .x1 => 1 | .x2 => 2 | .x4 => 4) 256).1 ∧
      t.regs.res1 = (BitVec.ofNat 32 raw.length <<< 16) ||| BitVec.ofNat 32 out.length ∧
      (∀ k (h : k < raw.length), t.ram.byte (0x180 + k) = some raw[k]) ∧
      (∀ k, k < 256 → t.ram.byte (0x080 + k) = some (out.getD k 0x00#8)) ∧
      (∀ k, k < 33 → t.ram.byte k = some ((reqFrame s.cfg s.regs.meterId).getD k 0x00#8)) ∧
      index = out.getD (s.cfg.offIndex.val + 3) 0 ++ out.getD (s.cfg.offIndex.val + 2) 0 ++
        out.getD (s.cfg.offIndex.val + 1) 0 ++ out.getD s.cfg.offIndex.val 0 ∧
      misc = out.getD s.cfg.offWakeStop.val 0 ++ out.getD s.cfg.offWakeStart.val 0 ++ out.getD s.cfg.offBattery.val 0 ++
        out.getD s.cfg.offReads.val 0 ∧
      (t.status.result = .malformed ↔ out.length < s.cfg.minDecoded) ∧
      (t.status.result = .zeroReading ↔ s.cfg.minDecoded ≤ out.length ∧ index = 0#32 ∧ misc = 0#32) ∧
      (t.status.result = .ok ↔ s.cfg.minDecoded ≤ out.length ∧ (index ≠ 0#32 ∨ misc ≠ 0#32)) ∧
      (t.status.result = .ok → t.regs.rdIndex = index ∧ t.regs.rdMisc = misc)

/-- R351: an attempt takes at most the sum of its delays and budgets: 3445 + FRAME_HOLD_MS ms at the documented values. -/
def Obligations.AttemptTimeIsBounded : Prop :=
  ∀ s : State, cfgWf s.cfg = true → AtStart s →
    ∃ (t : State) (e : Nat), exec .attempt s = .next t ∧ t.regs.now = s.regs.now + BitVec.ofNat 32 e ∧
      e ≤ 3 * s.cfg.waitStateMs + s.cfg.preChunks * s.cfg.prePaceMs + s.cfg.postPreMs + s.cfg.frameHoldMs + 2 * s.cfg.ackTmoMs +
        2 * s.cfg.respTmoMs

/-- R275, R276, R277: DISCOVER tries the candidates 0, 1, ... in order, each inside [FREQ_MIN, FREQ_MAX]: for each it makes the exchanges of
RInitCore (R260) and then records the trace of one attempt (R262) with that candidate's FREQ_WORD, and nothing else; CAND takes
the candidate before its attempt, DISC is set from before the first to after the last, and ATT_STATE takes the states of each.
Every attempt but the last gives no reading. Where the last gives one, the result is OK, with one PUBLISH of that reading and
one STORE of that candidate, which FREQ_MHZ and RES0 hold; where it gives none, the next candidate is past FREQ_MAX, and the
result is NOT_FOUND, with no PUBLISH, no STORE, and FREQ_MHZ unchanged. RES1 counts the candidates tried. -/
def Obligations.DiscoverStoresTheFirstSuccess : Prop :=
  ∀ s : State, cfgWf s.cfg = true → AtStart s →
    ∃ (t : State) (k : Nat) (failed : List AttemptEnd) (last : AttemptEnd) (events : List Event),
      exec .discover s = .next t ∧ k = failed.length ∧ (∀ e ∈ failed, e.reading s.cfg = none) ∧
      (∀ j, j ≤ k → f32Val s.cfg.freqMin ≤ f32Val (candidate s.cfg j) ∧ f32Val (candidate s.cfg j) ≤ f32Val s.cfg.freqMax) ∧
      Trace.seq (scanParts s.cfg (reqFrame s.cfg s.regs.meterId) 0 (failed ++ [last])) s.regs.now events t.regs.now ∧
      (match last.reading s.cfg with
       | some (index, misc) =>
          t.status.result = .ok ∧ t.status.att = .success ∧
          t.history = s.history ++ events ++ [publication index misc, .store (candidate s.cfg k), .done .ok t.regs.now] ∧
          storesOf t.history = storesOf s.history ++ [candidate s.cfg k] ∧
          publishesOf t.history = publishesOf s.history ++ [(index, misc.extractLsb' 0 8, misc.extractLsb' 8 8,
            misc.extractLsb' 16 8, misc.extractLsb' 24 8)] ∧
          (program s.cfg s.ctx.a0 s.ctx.a1 .discover).scanWrites s =
            .disc true :: scanStates s.cfg 0 (failed ++ [last]) ++ [.freqMhz (candidate s.cfg k), .disc false] ∧
          t.regs = { s.regs with
            res0 := candidate s.cfg k
            res1 := BitVec.ofNat 32 (k + 1)
            freqMhz := candidate s.cfg k
            freqWord := freqWordCore s.cfg (candidate s.cfg k)
            cand := candidate s.cfg k
            rdIndex := index
            rdMisc := misc
            now := t.regs.now }
       | none =>
          t.status.result = .notFound ∧ t.status.att = .failed ∧
          f32Val s.cfg.freqMax < f32Val (candidate s.cfg (k + 1)) ∧
          t.history = s.history ++ events ++ [.done .notFound t.regs.now] ∧
          storesOf t.history = storesOf s.history ∧ publishesOf t.history = publishesOf s.history ∧
          (program s.cfg s.ctx.a0 s.ctx.a1 .discover).scanWrites s =
            .disc true :: scanStates s.cfg 0 (failed ++ [last]) ++ [.disc false] ∧
          t.regs = { s.regs with
            res0 := 0#32
            res1 := BitVec.ofNat 32 (k + 1)
            freqWord := freqWordCore s.cfg (candidate s.cfg k)
            cand := candidate s.cfg k
            rdIndex := 0#32
            rdMisc := 0#32
            now := t.regs.now }) ∧
      t.status.disc = false ∧ t.status.rej = s.status.rej ∧ t.cfg = s.cfg ∧
      (∀ a, 33 ≤ a → a < 0x080 → t.ram.byte a = s.ram.byte a) ∧
      (∀ a, 0x180 + max s.cfg.ackRawLen s.cfg.respRawLen + s.cfg.occMask.toNat ≤ a → t.ram.byte a = s.ram.byte a)

/-- R281, R282: BOOT with a valid stored frequency v sets FREQ_MHZ to it and makes exactly the exchanges of RInitCore(v): the three strobes,
the three bytes of the frequency word, the default table in address order. It runs no attempt: after the one LOAD the history
holds exchanges alone, so no further LOAD, no STORE and no PUBLISH. RES0 = v and RES1 = 0. -/
def Obligations.BootUsesTheStoredFrequency : Prop :=
  ∀ (s : State) (v : Word), AtStart s → (drawLoad s.oracle).1 = some v → f32NaN v = false →
    f32Val s.cfg.freqMin ≤ f32Val v → f32Val v ≤ f32Val s.cfg.freqMax →
    ∃ (t : State) (events : List Event) (order : List (ChipAddr × Byte)), exec .boot s = .next t ∧
      t.history = s.history ++ [.load (some v)] ++ events ++ [.done .ok t.regs.now] ∧ t.status.result = .ok ∧
      (∀ ev ∈ events, ∃ out answer now, ev = .xfer out answer now) ∧
      order.Perm s.cfg.presetDefault ∧ order.Pairwise (fun a b => a.1.toNat ≤ b.1.toNat) ∧
      xfersOf events = rinitXfers s.cfg v s.regs.now order ∧
      t.regs = { s.regs with
        freqMhz := v
        freqWord := freqWordCore s.cfg v
        res0 := v
        res1 := 0#32
        now := s.regs.now + BitVec.ofNat 32 (3 * s.cfg.settleMs) } ∧
      t.ram = s.ram ∧ t.status.att = s.status.att

/-- R281: BOOT with no stored frequency, or an invalid one, runs discovery: it ends as DISCOVER run on the state after the load ends, but for
RES1, which is 1 with the candidates tried in bits 31:16. -/
def Obligations.BootElseRunsDiscovery : Prop :=
  ∀ (s : State), cfgWf s.cfg = true → AtStart s →
    (∀ v, (drawLoad s.oracle).1 = some v → freqValid s.cfg v = false) →
    ∃ t u, exec .discover { s with
        oracle := (drawLoad s.oracle).2
        history := s.history ++ [.load (drawLoad s.oracle).1] } = .next u ∧
      exec .boot s = .next t ∧
      t = { u with regs := { u.regs with res1 := 1#32 ||| (u.regs.res1 <<< 16) } }
end

