-- ==== Sys2Proof/Laws/Binary32.lean ====
section
/-! SUPPORT. Binary32 magnitudes: rounding to a precision is exact on what fits it, never passes a value that fits, and errs
by at most half a unit; magnitudes rise with their bit patterns; and so the subtraction loop of R150 and the scan of R275
end within the bounds they are given (log 15). -/

namespace Sys2Proof.Machine

/-- A magnitude that has at most `p` significant bits. -/
def Fits (p n : Nat) : Prop := ∃ m k, n = m * 2 ^ k ∧ m < 2 ^ p

theorem fits_zero (p : Nat) : Fits p 0 := ⟨0, 0, by simp, Nat.two_pow_pos p⟩

theorem fits_of_lt {p n : Nat} (h : n < 2 ^ p) : Fits p n := ⟨n, 0, by simp, h⟩

theorem Fits.mono {p q n : Nat} (h : Fits p n) (hpq : p ≤ q) : Fits q n := by
  obtain ⟨m, k, hn, hm⟩ := h
  exact ⟨m, k, hn, Nat.lt_of_lt_of_le hm (Nat.pow_le_pow_right (by omega) hpq)⟩

/-- The rounding, spelled out where the number has more than `p` bits. -/
theorem roundSig_long (p n : Nat) (h : p < Nat.log2 n + 1) (hn : n ≠ 0) :
    ∃ u, u = 2 ^ (Nat.log2 n + 1 - p) ∧
      ((roundSig p n = n / u * u ∧ n % u ≤ u / 2) ∨ (roundSig p n = (n / u + 1) * u ∧ u / 2 ≤ n % u)) := by
  refine ⟨_, rfl, ?_⟩
  have hlen : ¬ (Nat.log2 n + 1 ≤ p) := by omega
  simp only [roundSig, hn, if_false, hlen]
  split
  · rename_i hc
    refine .inr ⟨rfl, ?_⟩
    rcases hc with hc | hc <;> omega
  · rename_i hc
    refine .inl ⟨rfl, ?_⟩
    simp only [not_or] at hc
    omega

theorem roundSig_short (p n : Nat) (h : n = 0 ∨ Nat.log2 n + 1 ≤ p) : roundSig p n = n := by
  rcases h with rfl | h
  · simp [roundSig]
  · by_cases h0 : n = 0
    · simp [roundSig, h0]
    · simp only [roundSig, h0, if_false, if_pos h]

/-- What fits `p` bits is rounded to itself. -/
theorem roundSig_exact {p n : Nat} (h : Fits p n) : roundSig p n = n := by
  obtain ⟨m, k, hn, hm⟩ := h
  by_cases h0 : n = 0
  · exact roundSig_short p n (.inl h0)
  by_cases hs : Nat.log2 n + 1 ≤ p
  · exact roundSig_short p n (.inr hs)
  obtain ⟨u, hu, hr⟩ := roundSig_long p n (by omega) h0
  have hk : Nat.log2 n + 1 - p ≤ k := by
    have h1 : n < 2 ^ (p + k) := by
      rw [hn, Nat.pow_add]; exact Nat.mul_lt_mul_of_pos_right hm (Nat.two_pow_pos k)
    have h2 := (Nat.log2_lt h0).mpr h1
    omega
  have hd : u ∣ n := by
    rw [hn, hu]; exact Dvd.dvd.mul_left (Nat.pow_dvd_pow 2 hk) m
  have hu1 : 2 ≤ u := by
    rw [hu]
    calc 2 = 2 ^ 1 := rfl
      _ ≤ _ := Nat.pow_le_pow_right (by omega) (by omega)
  have hmod : n % u = 0 := Nat.mod_eq_zero_of_dvd hd
  rcases hr with ⟨hr, _⟩ | ⟨_, hh⟩
  · rw [hr, Nat.div_mul_cancel hd]
  · rw [hmod] at hh; omega

/-- Rounding never falls below a value that fits and is not above the number. -/
theorem le_roundSig {p n v : Nat} (hv : Fits p v) (h : v ≤ n) : v ≤ roundSig p n := by
  by_cases h0 : n = 0
  · rw [roundSig_short p n (.inl h0)]; exact h
  by_cases hs : Nat.log2 n + 1 ≤ p
  · rw [roundSig_short p n (.inr hs)]; exact h
  obtain ⟨u, hu, hr⟩ := roundSig_long p n (by omega) h0
  have hlow : n / u * u ≤ roundSig p n := by
    rcases hr with ⟨hr, _⟩ | ⟨hr, _⟩ <;> rw [hr]
    exact Nat.mul_le_mul_right u (Nat.le_succ _)
  by_cases hv2 : v ≤ n / u * u
  · exact Nat.le_trans hv2 hlow
  exfalso
  obtain ⟨m, k, hvm, hm⟩ := hv
  have hup : 0 < u := by rw [hu]; exact Nat.two_pow_pos _
  have hn1 : 2 ^ Nat.log2 n ≤ n := Nat.log2_self_le h0
  have hqu : 2 ^ Nat.log2 n ≤ n / u * u := by
    by_cases hp : p = 0
    · subst hp
      have : m = 0 := by omega
      subst this
      simp only [Nat.zero_mul] at hvm
      omega
    · have e : 2 ^ Nat.log2 n = 2 ^ (p - 1) * u := by
        rw [hu, ← Nat.pow_add]; congr 1; omega
      have hq : 2 ^ (p - 1) ≤ n / u := by
        rw [Nat.le_div_iff_mul_le hup, ← e]; exact hn1
      rw [e]; exact Nat.mul_le_mul_right u hq
  have hk : Nat.log2 n + 1 - p ≤ k := by
    have h1 : v < 2 ^ (p + k) := by
      rw [hvm, Nat.pow_add]; exact Nat.mul_lt_mul_of_pos_right hm (Nat.two_pow_pos k)
    have h2 : 2 ^ Nat.log2 n < 2 ^ (p + k) := by omega
    have := (Nat.pow_lt_pow_iff_right (by omega : 1 < 2)).mp h2
    omega
  obtain ⟨j, hj⟩ : u ∣ v := by rw [hvm, hu]; exact Dvd.dvd.mul_left (Nat.pow_dvd_pow 2 hk) m
  have h1 : n / u < j := by
    by_contra hle
    have : u * j ≤ u * (n / u) := Nat.mul_le_mul_left u (by omega)
    rw [Nat.mul_comm (n / u) u] at hv2
    omega
  have h2 : u * (n / u + 1) ≤ u * j := Nat.mul_le_mul_left u h1
  have h3 := Nat.div_add_mod n u
  have h4 := Nat.mod_lt n hup
  rw [Nat.mul_add, Nat.mul_one] at h2
  omega

/-- Rounding up adds at most one part in 2^p. -/
theorem roundSig_le (p n : Nat) (hp : 1 ≤ p) : 2 ^ p * roundSig p n ≤ (2 ^ p + 1) * n := by
  by_cases h0 : n = 0
  · rw [roundSig_short p n (.inl h0)]; exact Nat.mul_le_mul_right n (by omega)
  by_cases hs : Nat.log2 n + 1 ≤ p
  · rw [roundSig_short p n (.inr hs)]; exact Nat.mul_le_mul_right n (by omega)
  obtain ⟨u, hu, hr⟩ := roundSig_long p n (by omega) h0
  have h3 := Nat.div_add_mod n u
  rw [Nat.mul_comm] at h3
  have hun : 2 ^ (p - 1) * u ≤ n := by
    have e : 2 ^ Nat.log2 n = 2 ^ (p - 1) * u := by
      rw [hu, ← Nat.pow_add]; congr 1; omega
    rw [← e]; exact Nat.log2_self_le h0
  have hpp : 2 ^ p = 2 * 2 ^ (p - 1) := by rw [← Nat.pow_succ']; congr 1; omega
  have hup : 0 < u := by rw [hu]; exact Nat.two_pow_pos _
  have h4 := Nat.mod_lt n hup
  have hu1 : u / 2 * 2 = u := by
    rw [hu]
    have : Nat.log2 n + 1 - p = (Nat.log2 n - p) + 1 := by omega
    rw [this, Nat.pow_succ, Nat.mul_div_cancel _ (by omega)]
  rcases hr with ⟨hr, _⟩ | ⟨hr, hh⟩
  · rw [hr, Nat.add_mul, Nat.one_mul]
    have : 2 ^ p * (n / u * u) ≤ 2 ^ p * n := Nat.mul_le_mul_left _ (by omega)
    omega
  · have hb : roundSig p n ≤ n + u / 2 := by rw [hr, Nat.add_mul, Nat.one_mul]; omega
    calc 2 ^ p * roundSig p n ≤ 2 ^ p * (n + u / 2) := Nat.mul_le_mul_left _ hb
      _ = 2 ^ p * n + 2 ^ (p - 1) * (u / 2 * 2) := by rw [Nat.mul_add, hpp]; ring
      _ ≤ (2 ^ p + 1) * n := by rw [hu1, Nat.add_mul, Nat.one_mul]; omega

/-! ### Subtraction steps (R150) -/

/-- A subtraction is exact where both operands are multiples of the same unit and the larger has 24 bits of it. -/
theorem stepDown_exact {m k c : Nat} (hm : m < 2 ^ 24) (hc : c ≤ m) : stepDown (m * 2 ^ k) (c * 2 ^ k) = (m - c) * 2 ^ k := by
  have h : m * 2 ^ k - c * 2 ^ k = (m - c) * 2 ^ k := by rw [Nat.sub_mul]
  have f : Fits 24 ((m - c) * 2 ^ k) := ⟨m - c, k, rfl, by omega⟩
  rw [stepDown, h, round64, round32, roundSig_exact (f.mono (by omega)), roundSig_exact f]

/-- A value of 24 bits below `2^24` units of `2^k` is a multiple of a unit not above `2^k`. -/
theorem Fits.unit {n k : Nat} (h : Fits 24 n) (hn : n < 2 ^ (24 + k)) : ∃ m j, n = m * 2 ^ j ∧ m < 2 ^ 24 ∧ j ≤ k := by
  obtain ⟨m, j, e, hm⟩ := h
  by_cases hj : j ≤ k
  · exact ⟨m, j, e, hm, hj⟩
  · refine ⟨m * 2 ^ (j - k), k, ?_, ?_, Nat.le_refl k⟩
    · rw [e, Nat.mul_assoc, ← Nat.pow_add]; congr 2; omega
    · have : m * 2 ^ (j - k) * 2 ^ k < 2 ^ 24 * 2 ^ k := by
        rw [Nat.mul_assoc, ← Nat.pow_add, show j - k + k = j by omega, ← e, ← Nat.pow_add]; exact hn
      exact Nat.lt_of_mul_lt_mul_right this

/-- A subtraction of a multiple of `2^k` from a larger 24-bit value below `2^24` units of `2^k` is exact, and the result
fits 24 bits. -/
theorem stepDown_fits {x c k : Nat} (hx : Fits 24 x) (hlt : x < 2 ^ (24 + k)) (hc : c * 2 ^ k ≤ x) :
    stepDown x (c * 2 ^ k) = x - c * 2 ^ k ∧ Fits 24 (x - c * 2 ^ k) := by
  obtain ⟨m, j, rfl, hm, hj⟩ := hx.unit hlt
  have e : c * 2 ^ k = (c * 2 ^ (k - j)) * 2 ^ j := by
    rw [Nat.mul_assoc, ← Nat.pow_add]; congr 2; omega
  rw [e] at hc ⊢
  have hle : c * 2 ^ (k - j) ≤ m := Nat.le_of_mul_le_mul_right hc (Nat.two_pow_pos j)
  rw [stepDown_exact hm hle, ← Nat.sub_mul]
  exact ⟨rfl, ⟨_, j, rfl, by omega⟩⟩

/-- C_HI = 26 MHz, in units of 2^-149 MHz (R150). -/
abbrev cHi : Nat := mhz 26
/-- C_MID = 0.1015625 MHz. -/
abbrev cMid : Nat := 13 * 2 ^ 142
/-- C_LO = round64(0.00039675) MHz. -/
abbrev cLo : Nat := 7318745711244265 * 2 ^ 85

/-- The step sizes of a well-formed configuration are those of R150. -/
theorem wf_steps {c : Cfg} (h : cfgWf c = true) :
    stepUnits c.fstepHi = cHi ∧ stepUnits c.fstepMid = cMid ∧ stepUnits c.fstepLo = cLo := by
  simp only [cfgWf, cfgStepsOk, Bool.and_eq_true, decide_eq_true_eq] at h
  obtain ⟨_, _, _, _, _, _, ⟨⟨h1, h2⟩, h3⟩, _⟩ := h
  rw [h1, h2, h3]
  decide +kernel

/-- A low subtraction takes off all but a small part of C_LO. -/
theorem stepDown_lo {x : Nat} (hx : x < cMid) (hlo : cLo ≤ x) : stepDown x cLo + (cLo - cLo / 2 ^ 15) ≤ x := by
  have h1 := roundSig_le 53 (x - cLo) (by omega)
  have h2 := roundSig_le 24 (round64 (x - cLo)) (by omega)
  have h3 : roundSig 24 (round64 (x - cLo)) = stepDown x cLo := rfl
  rw [h3] at h2
  have h4 : roundSig 53 (x - cLo) = round64 (x - cLo) := rfl
  rw [h4] at h1
  generalize stepDown x cLo = r at *
  generalize round64 (x - cLo) = q at *
  simp only [cLo, cMid] at *
  omega

theorem freqLoop_succ (n x h m l : Nat) : freqLoop cHi cMid cLo (n + 1) x h m l =
    if cHi ≤ x then freqLoop cHi cMid cLo n (stepDown x cHi) (h + 1) m l
    else if cMid ≤ x then freqLoop cHi cMid cLo n (stepDown x cMid) h (m + 1) l
    else if cLo ≤ x then freqLoop cHi cMid cLo n (stepDown x cLo) h m (l + 1)
    else (h, m, l) := rfl

/-- A loop that has ended answers its counts whatever iterations it is left. -/
theorem freqLoop_done {x : Nat} (hx : x < cLo) (n h m l : Nat) : freqLoop cHi cMid cLo n x h m l = (h, m, l) := by
  have h1 : cLo ≤ cMid := by decide
  have h2 : cMid ≤ cHi := by decide
  cases n with
  | zero => rfl
  | succ n => rw [freqLoop_succ, if_neg (by omega), if_neg (by omega), if_neg (by omega)]

/-- Below C_MID, 257 iterations suffice. -/
theorem low_bound : cMid ≤ cLo + 257 * (cLo - cLo / 2 ^ 15) := by decide

/-- One mid subtraction is exact. -/
theorem stepDown_mid {x : Nat} (hf : Fits 24 x) (hx : x < cHi) (hm : cMid ≤ x) :
    stepDown x cMid = x - cMid ∧ Fits 24 (x - cMid) :=
  stepDown_fits (k := 142) hf (Nat.lt_trans hx (by decide)) (c := 13) hm

/-- One high subtraction is exact. -/
theorem stepDown_high {x : Nat} (hf : Fits 24 x) (hx : x < mhz 6656) (hm : cHi ≤ x) :
    stepDown x cHi = x - cHi ∧ Fits 24 (x - cHi) := by
  have e0 : cHi = 13 * 2 ^ 150 := by decide
  rw [e0] at hm ⊢
  exact stepDown_fits (k := 150) hf (Nat.lt_trans hx (by decide)) (c := 13) hm

/-- The rounding of R15, stated of a number with `p + k` bits: a multiple of 2^k at most half of it away, the even one of two
that are. -/
theorem roundSig_nearest {p k n : Nat} (hp : 1 ≤ p) (hlo : 2 ^ (p - 1 + k) ≤ n) (hhi : n < 2 ^ (p + k)) :
    ∃ q, roundSig p n = q * 2 ^ k ∧ 2 * (q * 2 ^ k - n) ≤ 2 ^ k ∧ 2 * (n - q * 2 ^ k) ≤ 2 ^ k ∧
      (2 * (q * 2 ^ k - n) = 2 ^ k ∨ 2 * (n - q * 2 ^ k) = 2 ^ k → q % 2 = 0) := by
  have h0 : n ≠ 0 := by have := Nat.two_pow_pos (p - 1 + k); omega
  have hlog : Nat.log2 n = p - 1 + k := by
    have h1 := (Nat.log2_lt h0 (k := p + k)).mpr hhi
    have h2 := (Nat.le_log2 h0 (k := p - 1 + k)).mpr hlo
    omega
  by_cases hk : k = 0
  · subst hk
    refine ⟨n, ?_, by omega, by omega, by omega⟩
    rw [roundSig_short p n (.inr (by omega)), Nat.pow_zero, Nat.mul_one]
  · have hlen : ¬ (p - 1 + k + 1 ≤ p) := by omega
    have hu : 2 ^ k = 2 ^ k / 2 * 2 := by
      obtain ⟨j, rfl⟩ : ∃ j, k = j + 1 := ⟨k - 1, by omega⟩
      rw [Nat.pow_succ, Nat.mul_div_cancel _ (by omega)]
    have hdm := Nat.div_add_mod n (2 ^ k)
    rw [Nat.mul_comm] at hdm
    have hlt := Nat.mod_lt n (Nat.two_pow_pos k)
    simp only [roundSig, h0, if_false, hlog, hlen, show p - 1 + k + 1 - p = k by omega]
    generalize 2 ^ k = u at *
    split
    · rename_i hc
      refine ⟨n / u + 1, rfl, ?_, ?_, ?_⟩ <;> rw [Nat.add_mul, Nat.one_mul]
      · omega
      · omega
      · rcases hc with hc | hc <;> omega
    · rename_i hc
      simp only [not_or, not_and] at hc
      refine ⟨n / u, rfl, by omega, by omega, ?_⟩
      rintro (h | h)
      · omega
      · have := hc.2 (by omega); omega

/-- The high iterations (R150). -/
theorem freqLoop_high_count (j : Nat) : ∀ (x n h m l : Nat), Fits 24 x → x < mhz 6656 → x / cHi = j →
    freqLoop cHi cMid cLo (j + n) x h m l = freqLoop cHi cMid cLo n (x % cHi) (h + j) m l ∧ Fits 24 (x % cHi) := by
  have hpos : 0 < cHi := by decide
  induction j with
  | zero =>
    intro x n h m l hf _ hj
    have hx : x < cHi := (Nat.div_eq_zero_iff_lt hpos).mp hj
    rw [Nat.mod_eq_of_lt hx, Nat.zero_add, Nat.add_zero]
    exact ⟨rfl, hf⟩
  | succ j ih =>
    intro x n h m l hf hx hj
    have hle : cHi ≤ x := by
      by_contra hc
      rw [Nat.div_eq_of_lt (by omega)] at hj; omega
    obtain ⟨e, f⟩ := stepDown_high hf hx hle
    have hd : (x - cHi) / cHi = j := by
      rw [Nat.div_eq_sub_div hpos hle] at hj; omega
    obtain ⟨g1, g2⟩ := ih (x - cHi) n (h + 1) m l f (by omega) hd
    have hm : (x - cHi) % cHi = x % cHi := (Nat.mod_eq_sub_mod hle).symm
    rw [show j + 1 + n = (j + n) + 1 by omega, freqLoop_succ, if_pos hle, e, g1, hm]
    exact ⟨by rw [show h + 1 + j = h + (j + 1) by omega], hm ▸ g2⟩

/-- The mid iterations (R150). -/
theorem freqLoop_mid_count (j : Nat) : ∀ (x n h m l : Nat), Fits 24 x → x < cHi → x / cMid = j →
    freqLoop cHi cMid cLo (j + n) x h m l = freqLoop cHi cMid cLo n (x % cMid) h (m + j) l := by
  have hpos : 0 < cMid := by decide
  induction j with
  | zero =>
    intro x n h m l _ _ hj
    have hx : x < cMid := (Nat.div_eq_zero_iff_lt hpos).mp hj
    rw [Nat.mod_eq_of_lt hx, Nat.zero_add, Nat.add_zero]
  | succ j ih =>
    intro x n h m l hf hx hj
    have hle : cMid ≤ x := by
      by_contra hc
      rw [Nat.div_eq_of_lt (by omega)] at hj; omega
    obtain ⟨e, f⟩ := stepDown_mid hf hx hle
    have hd : (x - cMid) / cMid = j := by
      rw [Nat.div_eq_sub_div hpos hle] at hj; omega
    have hm : (x - cMid) % cMid = x % cMid := (Nat.mod_eq_sub_mod hle).symm
    rw [show j + 1 + n = (j + n) + 1 by omega, freqLoop_succ, if_neg (by omega), if_pos hle, e,
      ih (x - cMid) n h (m + 1) l f (by omega) hd, hm, show m + 1 + j = m + (j + 1) by omega]

/-- The low iterations: `i` of them, from the values `low 0`, `low 1`, ... (R150). -/
theorem freqLoop_low_count (j : Nat) : ∀ x : Nat, x < cMid → x < cLo + j * (cLo - cLo / 2 ^ 15) →
    ∃ (i : Nat) (low : Nat → Nat), i ≤ j ∧ low 0 = x ∧ (∀ k, k < i → cLo ≤ low k ∧ low (k + 1) = stepDown (low k) cLo) ∧
      low i < cLo ∧ ∀ n h m l, freqLoop cHi cMid cLo (j + n) x h m l = (h, m, l + i) := by
  have hmh : cMid ≤ cHi := by decide
  induction j with
  | zero =>
    intro x hx hj
    rw [Nat.zero_mul, Nat.add_zero] at hj
    exact ⟨0, fun _ => x, Nat.le_refl _, rfl, by simp, hj, fun n h m l => by rw [freqLoop_done hj, Nat.add_zero]⟩
  | succ j ih =>
    intro x hx hj
    by_cases hlo : cLo ≤ x
    · have hdown := stepDown_lo hx hlo
      rw [Nat.succ_mul] at hj
      obtain ⟨i, low, h1, h2, h3, h4, h5⟩ := ih (stepDown x cLo) (by omega) (by omega)
      refine ⟨i + 1, fun k => if k = 0 then x else low (k - 1), by omega, rfl, ?_, by simpa using h4, fun n h m l => ?_⟩
      · intro k hk
        by_cases hk0 : k = 0
        · subst hk0; simp [hlo, h2]
        · obtain ⟨k, rfl⟩ : ∃ q, k = q + 1 := ⟨k - 1, by omega⟩
          simpa using h3 k (by omega)
      · rw [show j + 1 + n = (j + n) + 1 by omega, freqLoop_succ, if_neg (by omega), if_neg (by omega), if_pos hlo, h5,
          show l + 1 + i = l + (i + 1) by omega]
    · exact ⟨0, fun _ => x, Nat.zero_le _, rfl, by simp, Nat.lt_of_not_le hlo,
        fun n h m l => by rw [freqLoop_done (by omega), Nat.add_zero]⟩

/-- What the loop of R150 comes to: `h` and `m` are quotients, `l` counts the rounded low subtractions. -/
theorem freqLoop_value {x : Nat} (hf : Fits 24 x) (hx : x < mhz 6656) :
    ∃ (l : Nat) (low : Nat → Nat), l ≤ 257 ∧ low 0 = x % cHi % cMid ∧
      (∀ k, k < l → cLo ≤ low k ∧ low (k + 1) = stepDown (low k) cLo) ∧ low l < cLo ∧
      ∀ extra, freqLoop cHi cMid cLo (freqFuel + extra) x 0 0 0 = (x / cHi, x % cHi / cMid, l) := by
  have hpos : 0 < cHi := by decide
  have hpos' : 0 < cMid := by decide
  have h1 : x / cHi ≤ 255 := by
    rw [← Nat.lt_succ_iff, Nat.div_lt_iff_lt_mul hpos]
    exact Nat.lt_of_lt_of_le hx (by decide)
  have hr : x % cHi < cHi := Nat.mod_lt _ hpos
  have h2 : x % cHi / cMid ≤ 255 := by
    rw [← Nat.lt_succ_iff, Nat.div_lt_iff_lt_mul hpos']
    exact Nat.lt_of_lt_of_le hr (by decide)
  have hy : x % cHi % cMid < cMid := Nat.mod_lt _ hpos'
  have hff : freqFuel = 800 := rfl
  obtain ⟨l, low, k1, k2, k3, k4, k5⟩ := freqLoop_low_count 257 (x % cHi % cMid) hy (Nat.lt_of_lt_of_le hy low_bound)
  refine ⟨l, low, k1, k2, k3, k4, fun extra => ?_⟩
  obtain ⟨n, hn⟩ : ∃ n, freqFuel + extra = x / cHi + (x % cHi / cMid + (257 + n)) :=
    ⟨800 + extra - (x / cHi + x % cHi / cMid + 257), by omega⟩
  obtain ⟨e1, f1⟩ := freqLoop_high_count _ x (x % cHi / cMid + (257 + n)) 0 0 0 hf hx rfl
  rw [hn, e1, freqLoop_mid_count _ _ _ _ _ _ f1 hr rfl, k5]
  simp only [Nat.zero_add]

/-- The bytes of the counts (R150). -/
theorem freqBytes_eq (h m l : Nat) : freqBytes (h, m, l) =
    BitVec.ofNat 8 h ++ BitVec.ofNat 8 (if 255 < l then m + 1 else m) ++ BitVec.ofNat 8 (if 255 < l then l - 256 else l) := by
  by_cases hl : 255 < l <;> simp only [freqBytes, hl, if_true, if_false]

/-- The frequency word from what its loop counts (R150). -/
theorem freqWordCore_of {c : Cfg} (hc : cfgWf c = true) {f : Word} {h m l : Nat}
    (hl : freqLoop cHi cMid cLo freqFuel (f32Mag f) 0 0 0 = (h, m, l)) :
    freqWordCore c f = BitVec.ofNat 8 h ++ BitVec.ofNat 8 (if 255 < l then m + 1 else m) ++
      BitVec.ofNat 8 (if 255 < l then l - 256 else l) := by
  obtain ⟨h1, h2, h3⟩ := wf_steps hc
  rw [freqWordCore, h1, h2, h3, hl, freqBytes_eq]

/-- A finite magnitude fits 24 bits. -/
theorem fits_f32Mag (w : Word) : Fits 24 (f32Mag w) := by
  have h : f32Frac w < 2 ^ 23 := BitVec.isLt _
  rw [f32Mag]
  split
  · exact fits_of_lt (by omega)
  · exact ⟨_, _, rfl, by omega⟩

/-! ### Bit patterns and the candidates of a scan (R275, R278) -/

/-- The bits of a binary32 without its sign. -/
def f32Abs (w : Word) : Nat := w.toNat % 2 ^ 31

/-- The magnitude of the binary32 whose bits are `n`. -/
def magOf (n : Nat) : Nat := if n / 2 ^ 23 = 0 then n % 2 ^ 23 else (2 ^ 23 + n % 2 ^ 23) * 2 ^ (n / 2 ^ 23 - 1)

/-- The fraction of a binary32, from its bits without sign. -/
theorem f32Frac_eq (w : Word) : f32Frac w = f32Abs w % 2 ^ 23 := by
  unfold f32Frac f32Abs
  rw [BitVec.extractLsb'_toNat, Nat.shiftRight_zero]
  omega

/-- The exponent of a binary32, from its bits without sign. -/
theorem f32Exp_eq (w : Word) : f32Exp w = f32Abs w / 2 ^ 23 := by
  unfold f32Exp f32Abs
  rw [BitVec.extractLsb'_toNat, Nat.shiftRight_eq_div_pow]
  omega

/-- The magnitude of a binary32, from its bits without sign. -/
theorem f32Mag_eq (w : Word) : f32Mag w = magOf (f32Abs w) := by
  unfold f32Mag magOf
  rw [f32Exp_eq, f32Frac_eq]

/-- One unit of the last place up. -/
theorem magOf_succ (n : Nat) : magOf (n + 1) = magOf n + 2 ^ (n / 2 ^ 23 - 1) := by
  unfold magOf
  by_cases h : n % 2 ^ 23 = 2 ^ 23 - 1
  · have h1 : (n + 1) / 2 ^ 23 = n / 2 ^ 23 + 1 := by omega
    have h2 : (n + 1) % 2 ^ 23 = 0 := by omega
    rw [h1, h2, if_neg (by omega), h, Nat.add_sub_cancel]
    by_cases h0 : n / 2 ^ 23 = 0
    · rw [if_pos h0, h0]; norm_num
    · rw [if_neg h0]
      obtain ⟨e, he⟩ : ∃ e, n / 2 ^ 23 = e + 1 := ⟨n / 2 ^ 23 - 1, by omega⟩
      rw [show n / 2 ^ 23 - 1 = e by omega, he, Nat.pow_succ 2 e]
      generalize 2 ^ e = p
      omega
  · have h1 : (n + 1) / 2 ^ 23 = n / 2 ^ 23 := by omega
    have h2 : (n + 1) % 2 ^ 23 = n % 2 ^ 23 + 1 := by omega
    rw [h1, h2]
    by_cases h0 : n / 2 ^ 23 = 0
    · rw [if_pos h0, if_pos h0, h0]; simp
    · rw [if_neg h0, if_neg h0, ← Nat.add_assoc, Nat.add_mul, Nat.one_mul]

/-- Magnitudes rise with their bits. -/
theorem magOf_mono : StrictMono magOf := strictMono_nat_of_lt_succ fun n => by
  rw [magOf_succ]; have := Nat.two_pow_pos (n / 2 ^ 23 - 1); omega

theorem fits_magOf (n : Nat) : Fits 24 (magOf n) := by
  have h : n % 2 ^ 23 < 2 ^ 23 := Nat.mod_lt _ (by omega)
  unfold magOf
  split
  · exact fits_of_lt (by omega)
  · exact ⟨_, _, rfl, by omega⟩


/-- A rounded magnitude fits its precision. -/
theorem fits_round (m : Nat) : Fits 24 (round32 m) := by
  unfold round32
  by_cases h : m = 0 ∨ Nat.log2 m + 1 ≤ 24
  · rw [roundSig_short 24 m h]
    rcases h with rfl | h
    · exact fits_zero _
    · by_cases h0 : m = 0
      · subst h0; exact fits_zero _
      · exact fits_of_lt ((Nat.log2_lt h0).mp (by omega))
  · rw [not_or] at h
    obtain ⟨u, hu, hc⟩ := roundSig_long 24 m (by omega) h.1
    have hlt : m < 2 ^ 24 * u := by
      rw [hu, ← Nat.pow_add, show 24 + (Nat.log2 m + 1 - 24) = Nat.log2 m + 1 by omega]; exact Nat.lt_log2_self
    have hq : m / u < 2 ^ 24 := (Nat.div_lt_iff_lt_mul (by rw [hu]; exact Nat.two_pow_pos _)).mpr hlt
    rcases hc with ⟨h1, _⟩ | ⟨h1, _⟩
    · rw [h1, hu] at *; exact ⟨_, _, rfl, hq⟩
    · by_cases hm : m / u + 1 = 2 ^ 24
      · rw [h1, hm, hu]
        exact ⟨2 ^ 23, Nat.log2 m + 1 - 24 + 1, by rw [Nat.pow_succ]; omega, by norm_num⟩
      · rw [h1]; refine ⟨_, Nat.log2 m + 1 - 24, by rw [hu], by rw [← hu]; omega⟩

theorem f32Abs_ofNat {n : Nat} (h : n < 2 ^ 31) : f32Abs (BitVec.ofNat 32 n) = n := by
  unfold f32Abs; rw [BitVec.toNat_ofNat]; omega

/-- The bits of a rounded magnitude are those of a number at least as large, or of infinity. -/
theorem le_magOf_f32Bits (m v : Nat) (hv : Fits 24 v) (h : v ≤ m) (hb : v ≤ 2 ^ 277) : v ≤ magOf (f32Abs (f32Bits m)) := by
  have hr : v ≤ round32 m := le_roundSig hv h
  have fits : Fits 24 (round32 m) := fits_round m
  unfold f32Bits
  generalize round32 m = r at *
  simp only
  split
  · refine Nat.le_trans hb (Nat.le_of_eq ?_)
    rw [show f32Abs 0x7F800000#32 = 255 * 2 ^ 23 by decide]
    unfold magOf
    rw [show 255 * 2 ^ 23 / 2 ^ 23 = 255 from rfl, show 255 * 2 ^ 23 % 2 ^ 23 = 0 from rfl, if_neg (by omega), Nat.add_zero, ← Nat.pow_add]
  · split
    · rename_i h1 h2
      rw [f32Abs_ofNat (by omega)]; unfold magOf
      rw [if_pos (by omega)]; omega
    · rename_i h1 h2
      have h0 : r ≠ 0 := by omega
      obtain ⟨k, hk⟩ : ∃ k, Nat.log2 r = 23 + k := ⟨Nat.log2 r - 23, by have := (Nat.le_log2 h0 (k := 23)).mpr (by omega); omega⟩
      have hlo : 2 ^ (23 + k) ≤ r := hk ▸ Nat.log2_self_le h0
      have hhi : r < 2 ^ (24 + k) := by
        have := Nat.lt_log2_self (n := r); rw [hk] at this; rw [show 24 + k = 23 + k + 1 by omega]; exact this
      have hk254 : k < 254 := by
        by_contra hc
        exact h1 (Nat.le_trans (Nat.pow_le_pow_right (by omega) (by omega)) hlo)
      rw [hk, show 23 + k - 23 = k by omega]
      have hp := Nat.two_pow_pos k
      have hq1 : 2 ^ 23 ≤ r / 2 ^ k := (Nat.le_div_iff_mul_le hp).mpr (by rw [← Nat.pow_add]; exact hlo)
      have hq2 : r / 2 ^ k < 2 ^ 24 := (Nat.div_lt_iff_lt_mul hp).mpr (by rw [← Nat.pow_add]; exact hhi)
      have hback : r / 2 ^ k * 2 ^ k = r := by
        obtain ⟨q, j, hq, hql⟩ := fits
        have hj : k ≤ j := by
          by_contra hc
          have h3 : r < 2 ^ (24 + j) := by rw [hq, Nat.pow_add]; exact Nat.mul_lt_mul_of_pos_right hql (Nat.two_pow_pos j)
          have h4 : 2 ^ (24 + j) ≤ 2 ^ (23 + k) := Nat.pow_le_pow_right (by omega) (by omega)
          omega
        refine Nat.div_mul_cancel ?_
        rw [hq]; exact Dvd.dvd.mul_left (Nat.pow_dvd_pow 2 hj) q
      generalize r / 2 ^ k = g at *
      rw [f32Abs_ofNat (by omega)]
      unfold magOf
      rw [show ((k + 1) * 2 ^ 23 + (g - 2 ^ 23)) / 2 ^ 23 = k + 1 by omega, show ((k + 1) * 2 ^ 23 + (g - 2 ^ 23)) % 2 ^ 23 = g - 2 ^ 23 by omega,
        if_neg (by omega), Nat.add_sub_cancel, show 2 ^ 23 + (g - 2 ^ 23) = g by omega, hback]
      exact hr

/-- A value that is not negative is its magnitude. -/
theorem f32Val_nonneg {w : Word} (h : 0 ≤ f32Val w) : f32Val w = f32Mag w := by
  unfold f32Val at *
  split at h
  · rename_i hs; rw [if_pos hs]; omega
  · rename_i hs; rw [if_neg hs]

/-- The bits of a magnitude carry no sign. -/
theorem f32Bits_pos (m : Nat) : f32Neg (f32Bits m) = false := by
  have h31 : ∀ n, n < 2 ^ 31 → f32Neg (BitVec.ofNat 32 n) = false := by
    intro n hn
    unfold f32Neg; rw [BitVec.getLsbD_ofNat]
    simp [Nat.testBit_lt_two_pow hn]
  unfold f32Bits
  generalize round32 m = r
  simp only
  split
  · decide
  · split
    · exact h31 _ (by omega)
    · rename_i h1 h2
      have h0 : r ≠ 0 := by omega
      have hk : Nat.log2 r < 277 := (Nat.log2_lt h0).mpr (by omega)
      have h23 : 23 ≤ Nat.log2 r := (Nat.le_log2 h0 (k := 23)).mpr (by omega)
      have hhi := Nat.lt_log2_self (n := r)
      have hq2 : r / 2 ^ (Nat.log2 r - 23) < 2 ^ 24 := (Nat.div_lt_iff_lt_mul (Nat.two_pow_pos _)).mpr (by
        rw [← Nat.pow_add, show 24 + (Nat.log2 r - 23) = Nat.log2 r + 1 by omega]; exact hhi)
      apply h31
      generalize r / _ = g at *
      generalize Nat.log2 r = l at *
      omega

/-- R278: the next candidate's bits are above those of a candidate that does not pass FREQ_MAX. -/
theorem candidate_rises {c : Cfg} (h : cfgWf c = true) {f : Word} (h0 : 0 ≤ f32Val f) (hle : f32Val f ≤ f32Val c.freqMax) :
    f32Abs f + 1 ≤ f32Abs (f32AddPos f c.freqStep) ∧ f32Abs f ≤ c.freqMax.toNat ∧ 0 ≤ f32Val (f32AddPos f c.freqStep) := by
  have hf : cfgFreqOk c = true := by
    unfold cfgWf at h; simp only [Bool.and_eq_true] at h; exact h.2.2.1
  simp only [cfgFreqOk, Bool.and_eq_true, decide_eq_true_eq] at hf
  obtain ⟨⟨⟨⟨⟨⟨⟨_, hfin⟩, _⟩, hmin⟩, hmm⟩, _⟩, hs0⟩, hulp⟩ := hf
  have hm0 : 0 ≤ f32Val c.freqMax := by omega
  rw [f32Val_nonneg h0, f32Val_nonneg hm0, f32Mag_eq, f32Mag_eq] at hle
  have habs : f32Abs f ≤ f32Abs c.freqMax := magOf_mono.le_iff_le.mp (by omega)
  have hmaxabs : f32Abs c.freqMax ≤ c.freqMax.toNat := Nat.mod_le _ _
  have hexp : f32Abs c.freqMax / 2 ^ 23 ≠ 255 := by
    rw [← f32Exp_eq]; simpa [f32Finite] using hfin
  have hlt : f32Abs c.freqMax < 2 ^ 31 := Nat.mod_lt _ (by omega)
  have hu : 2 ^ (f32Abs f / 2 ^ 23 - 1) ≤ f32Mag c.freqStep := by
    have h1 : 2 ^ (f32Abs f / 2 ^ 23 - 1) ≤ f32Ulp c.freqMax := by
      unfold f32Ulp; rw [f32Exp_eq]
      exact Nat.pow_le_pow_right (by omega) (by omega)
    rw [f32Val_nonneg (by omega)] at hulp
    omega
  refine ⟨?_, by omega, ?_⟩
  · apply magOf_mono.le_iff_le.mp
    refine le_magOf_f32Bits _ _ (fits_magOf _) ?_ ?_
    · rw [magOf_succ, f32Mag_eq f]; omega
    · refine Nat.le_trans (magOf_mono.le_iff_le.mpr (by omega : _ ≤ 255 * 2 ^ 23)) (Nat.le_of_eq ?_)
      unfold magOf
      rw [show 255 * 2 ^ 23 / 2 ^ 23 = 255 from rfl, show 255 * 2 ^ 23 % 2 ^ 23 = 0 from rfl, if_neg (by omega), Nat.add_zero, ← Nat.pow_add]
  · unfold f32Val f32AddPos; rw [f32Bits_pos]; simp

/-- R278: and so is its frequency. -/
theorem candidate_val_rises {c : Cfg} (h : cfgWf c = true) {f : Word} (h0 : 0 ≤ f32Val f)
    (hle : f32Val f ≤ f32Val c.freqMax) : f32Val f ≤ f32Val (f32AddPos f c.freqStep) := by
  obtain ⟨hup, _, hn⟩ := candidate_rises h h0 hle
  rw [f32Val_nonneg h0, f32Val_nonneg hn, f32Mag_eq, f32Mag_eq]
  exact_mod_cast magOf_mono.le_iff_le.mpr (by omega : f32Abs f ≤ f32Abs (f32AddPos f c.freqStep))

end Sys2Proof.Machine
end

