-- ==== Sys2Proof/Laws/Codec.lean ====
section
/-! SUPPORT. The line codec's sequences: lengths, packing, frames and runs (spec/41_line_codec.md R200 to R209). -/

namespace Sys2Proof.Machine

theorem length_bitsMsb (b : Byte) : (bitsMsb b).length = 8 := rfl

theorem length_unpack (bytes : List Byte) : (unpack bytes).length = 8 * bytes.length := by
  induction bytes with
  | nil => rfl
  | cons b rest ih =>
    have h : (unpack (b :: rest)).length = (bitsMsb b).length + (unpack rest).length := by
      simp [unpack, List.flatMap_cons]
    rw [h, ih, length_bitsMsb, List.length_cons]; omega

theorem length_lineBits (bytes : List Byte) : (lineBits bytes).length = 10 * bytes.length := by
  induction bytes with
  | nil => rfl
  | cons b rest ih =>
    have h : (lineBits (b :: rest)).length = (lineFrame b).length + (lineBits rest).length := by
      simp [lineBits, List.flatMap_cons]
    rw [h, ih, List.length_cons]
    show 10 + _ = _
    omega

theorem length_padOnes (bits : List Bool) : (padOnes bits).length = (bits.length + 7) / 8 * 8 := by
  simp only [padOnes, List.length_append, List.length_replicate]
  omega

/-- Packing a sequence of whole bytes gives one byte for each eight bits. -/
theorem length_pack : ∀ (n : Nat) (bits : List Bool), bits.length = 8 * n → (pack bits).length = n
  | 0, [], _ => rfl
  | n + 1, bits, h => by
    match bits, h with
    | b7 :: b6 :: b5 :: b4 :: b3 :: b2 :: b1 :: b0 :: rest, h =>
      simp only [pack, List.length_cons, Nat.add_right_cancel_iff]
      exact length_pack n rest (by simp only [List.length_cons] at h; omega)

/-- The encoder's output has ceil(10·n / 8) bytes (R202). -/
theorem length_encodeCore (bytes : List Byte) : (encodeCore bytes).length = (10 * bytes.length + 7) / 8 := by
  refine length_pack _ _ ?_
  rw [length_padOnes, length_lineBits]; omega

theorem length_encodeCore_eq (bytes : List Byte) : (encodeCore bytes).length = encodedLen bytes.length := by
  rw [length_encodeCore, encodedLen]; omega

/-- The framing machine never gives more bytes than there is room for (R209). -/
theorem length_decodeBits_le (bits : List Bool) (st : FrameState) (room : Nat) (h : 1 ≤ room) :
    (decodeBits bits st room).1.length ≤ room := by
  induction bits generalizing st room with
  | nil => simp [decodeBits]
  | cons x rest ih =>
    unfold decodeBits
    split
    · exact ih _ _ h
    · simp
    · split
      · simpa using h
      · simp only [List.length_cons]
        have := ih .hunt (room - 1) (by omega)
        omega

/-- The decoder never gives more bytes than its capacity (R209). -/
theorem length_decodeCore_le (bytes : List Byte) (osr cap : Nat) : (decodeCore bytes osr cap).1.length ≤ cap := by
  unfold decodeCore
  split
  · simp
  · exact length_decodeBits_le _ _ _ (by omega)

/-! ### Bits, runs and frames -/

/-- A byte's bits are the bits it is made of. -/
theorem bits_byte : ∀ b7 b6 b5 b4 b3 b2 b1 b0 : Bool, bitsMsb (byteOfBits b7 b6 b5 b4 b3 b2 b1 b0) = [b7,b6,b5,b4,b3,b2,b1,b0] := by decide +kernel

/-- Unpacking, byte by byte. -/
theorem unpack_cons (b : Byte) (r : List Byte) : unpack (b :: r) = bitsMsb b ++ unpack r := by simp [unpack]

/-- Unpacking a sequence in two parts. -/
theorem unpack_append (a b : List Byte) : unpack (a ++ b) = unpack a ++ unpack b := by simp [unpack]

/-- Unpack inverts Pack on whole bytes (R200). -/
theorem unpack_pack : ∀ (n : Nat) (bits : List Bool), bits.length = 8 * n → unpack (pack bits) = bits
  | 0, [], _ => rfl
  | n+1, bits, h => by
    match bits, h with
    | b7 :: b6 :: b5 :: b4 :: b3 :: b2 :: b1 :: b0 :: rest, h =>
      simp only [pack, unpack_cons, bits_byte]
      rw [unpack_pack n rest (by simp only [List.length_cons] at h; omega)]; rfl

/-- Packing a sequence in two parts. -/
theorem pack_append : ∀ (n : Nat) (a b : List Bool), a.length = 8 * n → pack (a ++ b) = pack a ++ pack b
  | 0, [], _, _ => rfl
  | n+1, bits, b, h => by
    match bits, h with
    | b7 :: b6 :: b5 :: b4 :: b3 :: b2 :: b1 :: b0 :: rest, h =>
      simp only [List.cons_append, pack]
      rw [pack_append n rest b (by simp only [List.length_cons] at h; omega)]

/-- The bits of an encoding (R201). -/
theorem unpack_encodeCore (x : List Byte) : unpack (encodeCore x) = padOnes (lineBits x) := by
  refine unpack_pack ((10 * x.length + 7) / 8) _ ?_
  rw [length_padOnes, length_lineBits]; omega

/-- Line bits in two parts. -/
theorem lineBits_append (a b : List Byte) : lineBits (a ++ b) = lineBits a ++ lineBits b := by simp [lineBits]

/-- Line bits, byte by byte. -/
theorem lineBits_cons (a : Byte) (b : List Byte) : lineBits (a :: b) = lineFrame a ++ lineBits b := by simp [lineBits]

/-- Every frame has its start bit 0 and its stop bit 1 (R204). -/
theorem lineBits_get (x : List Byte) (i : Nat) (h : i < x.length) : (lineBits x)[10*i]? = some false ∧ (lineBits x)[10*i+9]? = some true := by
  induction x generalizing i with
  | nil => cases h
  | cons b r ih =>
    rw [lineBits_cons]
    cases i with
    | zero => exact ⟨rfl, rfl⟩
    | succ i =>
      have := ih i (by simpa using h)
      have hl : (lineFrame b).length = 10 := rfl
      rw [List.getElem?_append_right (by omega), List.getElem?_append_right (by omega), hl, show 10 * (i+1) - 10 = 10 * i by omega, show 10 * (i+1) + 9 - 10 = 10 * i + 9 by omega]
      exact this

/-- At OSR 1 the line bits are the samples (R207). -/
theorem lineBitsOf_one (l : List Bool) : lineBitsOf 1 l = l := by
  unfold lineBitsOf
  induction l with
  | nil => rfl
  | cons x r ih =>
    rw [runs]
    split
    · rename_i v n more hr
      rw [hr] at ih
      simp only [List.flatMap_cons] at ih
      split
      · rename_i hv; subst hv
        simp only [List.flatMap_cons]
        rw [← ih]
        simp [List.replicate_succ]
      · simp only [List.flatMap_cons]
        rw [← ih]; simp
    · rename_i hr
      rw [hr] at ih; rw [← ih]; simp

/-- Expanded samples: run lengths are multiples. -/
theorem runs_expand (r : Nat) (hr : 0 < r) (l : List Bool) : runs (l.flatMap fun b => List.replicate r b) = (runs l).map fun e => (e.1, r * e.2) := by
  have key : ∀ (x : Bool) (n : Nat) (t : List Bool), runs (List.replicate n x ++ t) =
     if n = 0 then runs t else match runs t with
      | (v, m) :: more => if v = x then (v, m + n) :: more else (x, n) :: (v, m) :: more
      | [] => [(x, n)] := by
    intro x n t
    induction n with
    | zero => simp
    | succ n ih =>
      rw [List.replicate_succ, List.cons_append, runs, ih]
      by_cases hn : n = 0
      · subst hn; simp <;> (obtain _ | ⟨⟨v, k⟩, m⟩ := runs t <;> simp)
      · simp only [hn, if_false, Nat.add_one_ne_zero, if_false]
        cases runs t with
        | nil => simp
        | cons e m =>
          obtain ⟨v, k⟩ := e
          by_cases hv : v = x
          · simp only [hv, if_true]; simp; omega
          · simp only [hv, if_false]; simp
  induction l with
  | nil => rfl
  | cons x t ih =>
    rw [List.flatMap_cons, key, if_neg (by omega), ih, runs]
    cases runs t with
    | nil => simp
    | cons e m =>
      obtain ⟨v, k⟩ := e
      simp only [List.map_cons]
      by_cases hv : v = x
      · simp only [hv, if_true, List.map_cons]; simp [Nat.mul_add]
      · simp only [hv, if_false, List.map_cons]; simp

/-- Samples expanded r times are the line bits at OSR r (R213). -/
theorem lineBitsOf_expand (r : Nat) (hr : 0 < r) (l : List Bool) : lineBitsOf r (l.flatMap fun b => List.replicate r b) = l := by
  refine Eq.trans ?_ (lineBitsOf_one l)
  unfold lineBitsOf
  rw [runs_expand r hr, List.flatMap_map]
  congr 1
  funext e
  congr 1
  simp only [Nat.div_one, Nat.reduceDiv, Nat.add_zero]
  rw [Nat.mul_add_div hr, Nat.div_eq_of_lt (Nat.div_lt_self hr (by omega)), Nat.add_zero]

/-- The framing machine on one whole frame from HUNT (R208). -/
theorem frame_ok (b : Byte) (rest : List Bool) (room : Nat) (h : 1 ≤ room) :
   decodeBits (lineFrame b ++ rest) .hunt room = if room ≤ 1 then ([b], 2) else (b :: (decodeBits rest .hunt (room-1)).1, (decodeBits rest .hunt (room-1)).2) := by
  have hb : (0#8 ||| ((BitVec.ofBool (b.getLsbD 0)).zeroExtend 8 <<< 0) ||| ((BitVec.ofBool (b.getLsbD 1)).zeroExtend 8 <<< (0+1)) ||| ((BitVec.ofBool (b.getLsbD 2)).zeroExtend 8 <<< (0+1+1)) ||| ((BitVec.ofBool (b.getLsbD 3)).zeroExtend 8 <<< (0+1+1+1)) ||| ((BitVec.ofBool (b.getLsbD 4)).zeroExtend 8 <<< (0+1+1+1+1)) ||| ((BitVec.ofBool (b.getLsbD 5)).zeroExtend 8 <<< (0+1+1+1+1+1)) ||| ((BitVec.ofBool (b.getLsbD 6)).zeroExtend 8 <<< (0+1+1+1+1+1+1)) ||| ((BitVec.ofBool (b.getLsbD 7)).zeroExtend 8 <<< (0+1+1+1+1+1+1+1)) : BitVec 8) = b := by
    revert b; decide +kernel
  show decodeBits (false :: _ :: _ :: _ :: _ :: _ :: _ :: _ :: _ :: true :: rest) .hunt room = _
  simp only [decodeBits, frameStep, if_false, Bool.false_eq_true, if_true, hb, show (0+1 < 8) = True by simp,
    show (0+1+1 < 8) = True by simp, show (0+1+1+1 < 8) = True by simp, show (0+1+1+1+1 < 8) = True by simp, show (0+1+1+1+1+1 < 8) = True by simp, show (0+1+1+1+1+1+1 < 8) = True by simp,
    show (0+1+1+1+1+1+1+1 < 8) = True by simp, show (0+1+1+1+1+1+1+1+1 < 8) = False by simp]

/-- Idle line bits give nothing (R208). -/
theorem hunt_ones (k room : Nat) : decodeBits (List.replicate k true) .hunt room = ([], 0) := by
  induction k with
  | zero => rfl
  | succ k ih => rw [List.replicate_succ, decodeBits]; exact ih

/-- Runs of two parts whose ends are not joined (R206). -/
theorem runs_append (a b : List Bool) (h : ∀ x, a.getLast? = some x → b.head? ≠ some x) : runs (a ++ b) = runs a ++ runs b := by
  have hh : ∀ l : List Bool, (runs l).head?.map Prod.fst = l.head? := by
    intro l; cases l with
    | nil => rfl
    | cons x r => rw [runs]; split
                  · split
                    · rename_i hv; simp [hv]
                    · simp
                  · simp
  induction a with
  | nil => rfl
  | cons x t ih =>
    rw [List.cons_append, runs, runs]
    cases t with
    | nil =>
      have h1 := h x rfl
      have h2 := hh b
      rw [List.nil_append]
      cases hb : runs b with
      | nil => rfl
      | cons e m =>
        obtain ⟨v, n⟩ := e
        rw [hb] at h2
        simp only [List.head?_cons, Option.map_some] at h2
        rw [← h2] at h1
        have hv : v ≠ x := by simpa using h1
        simp [runs, hv]
    | cons y t =>
      rw [ih (fun z hz => h z (by rw [List.getLast?_cons_cons]; exact hz))]
      have := hh (y :: t)
      cases hr : runs (y :: t) with
      | nil => rw [hr] at this; simp at this
      | cons e m =>
        obtain ⟨v, n⟩ := e
        simp only [List.cons_append]
        split <;> simp

end Sys2Proof.Machine
end

