-- ==== Sys2Proof/Laws/History.lean ====
section
/-! SUPPORT. The projections of the event history, one lemma an operation: a sequence of events, and each single event. -/

namespace Sys2Proof.Machine

theorem xfersOf_append (a b : List Event) : xfersOf (a ++ b) = xfersOf a ++ xfersOf b := by simp [xfersOf]
theorem storesOf_append (a b : List Event) : storesOf (a ++ b) = storesOf a ++ storesOf b := by simp [storesOf]
theorem publishesOf_append (a b : List Event) : publishesOf (a ++ b) = publishesOf a ++ publishesOf b := by
  simp [publishesOf]
theorem sentOf_append (a b : List Event) : sentOf (a ++ b) = sentOf a ++ sentOf b := by simp [sentOf, xfersOf]
theorem commandEventsOf_append (a b : List Event) : commandEventsOf (a ++ b) = commandEventsOf a ++ commandEventsOf b := by
  simp [commandEventsOf]

theorem xfersOf_nil : xfersOf [] = [] := rfl
theorem xfersOf_xfer (o a : List Byte) (n : Word) (r : List Event) : xfersOf (.xfer o a n :: r) = (o, n) :: xfersOf r := rfl
theorem xfersOf_gdo (l : Bool) (n : Word) (r : List Event) : xfersOf (.gdo l n :: r) = xfersOf r := rfl
theorem xfersOf_load (a : Option Word) (r : List Event) : xfersOf (.load a :: r) = xfersOf r := rfl
theorem xfersOf_done (c : ResultCode) (n : Word) (r : List Event) : xfersOf (.done c n :: r) = xfersOf r := rfl
theorem sentOf_nil : sentOf [] = [] := rfl
theorem sentOf_xfer (o a : List Byte) (n : Word) (r : List Event) : sentOf (.xfer o a n :: r) = o :: sentOf r := rfl
theorem sentOf_done (c : ResultCode) (n : Word) (r : List Event) : sentOf (.done c n :: r) = sentOf r := rfl

theorem storesOf_nil : storesOf [] = [] := rfl
theorem storesOf_store (w : Word) (r : List Event) : storesOf (.store w :: r) = w :: storesOf r := rfl
theorem storesOf_xfer (o a : List Byte) (n : Word) (r : List Event) : storesOf (.xfer o a n :: r) = storesOf r := rfl
theorem storesOf_gdo (l : Bool) (n : Word) (r : List Event) : storesOf (.gdo l n :: r) = storesOf r := rfl
theorem storesOf_load (a : Option Word) (r : List Event) : storesOf (.load a :: r) = storesOf r := rfl
theorem storesOf_publish (i : Word) (a b c d : Byte) (r : List Event) :
    storesOf (.publish i a b c d :: r) = storesOf r := rfl
theorem storesOf_done (c : ResultCode) (n : Word) (r : List Event) : storesOf (.done c n :: r) = storesOf r := rfl

theorem publishesOf_nil : publishesOf [] = [] := rfl
theorem publishesOf_publish (i : Word) (a b c d : Byte) (r : List Event) :
    publishesOf (.publish i a b c d :: r) = (i, a, b, c, d) :: publishesOf r := rfl
theorem publishesOf_xfer (o a : List Byte) (n : Word) (r : List Event) :
    publishesOf (.xfer o a n :: r) = publishesOf r := rfl
theorem publishesOf_gdo (l : Bool) (n : Word) (r : List Event) : publishesOf (.gdo l n :: r) = publishesOf r := rfl
theorem publishesOf_load (a : Option Word) (r : List Event) : publishesOf (.load a :: r) = publishesOf r := rfl
theorem publishesOf_store (w : Word) (r : List Event) : publishesOf (.store w :: r) = publishesOf r := rfl
theorem publishesOf_done (c : ResultCode) (n : Word) (r : List Event) : publishesOf (.done c n :: r) = publishesOf r := rfl

end Sys2Proof.Machine
end

