-- ==== Sys2Proof/Laws/Prog.lean ====
section
/-! SUPPORT. The laws of programs: running and resuming a sequence, what every primitive of a program has in common, and
what a program therefore preserves. -/

namespace Sys2Proof.Machine

variable {α β : Type}

@[simp] theorem Prog.run_pure (a : α) (s : State) : (Prog.pure a).run s = (a, s) := rfl

theorem Prog.run_op (p : Prim) (k : p.Res → Prog α) (s : State) :
    (Prog.op p k).run s = (k (runPrim p s).1).run (runPrim p s).2 := rfl

@[simp] theorem Prog.pure_bind (a : α) (f : α → Prog β) : (Prog.pure a).bind f = f a := rfl

@[simp] theorem Prog.op_bind (p : Prim) (k : p.Res → Prog α) (f : α → Prog β) :
    (Prog.op p k).bind f = .op p (fun r => (k r).bind f) := rfl

/-- Running a sequence runs the first part, then the second from where it ended. -/
@[simp] theorem Prog.run_bind (m : Prog α) (f : α → Prog β) (s : State) :
    (m.bind f).run s = (f (m.run s).1).run (m.run s).2 := by
  induction m generalizing s with
  | pure a => rfl
  | op p k ih => exact ih _ _

@[simp] theorem Prog.run_andThen (m : Prog α) (n : Prog β) (s : State) :
    (m.andThen n).run s = n.run (m.run s).2 := Prog.run_bind m _ s

@[simp] theorem Prog.run_ite (c : Prop) [Decidable c] (m n : Prog α) (s : State) :
    (if c then m else n).run s = if c then m.run s else n.run s := by split <;> rfl

theorem Prog.bind_assoc {γ : Type} (m : Prog α) (f : α → Prog β) (g : β → Prog γ) :
    (m.bind f).bind g = m.bind fun a => (f a).bind g := by
  induction m with
  | pure a => rfl
  | op p k ih => simp only [Prog.op_bind]; congr 1; funext r; exact ih r

/-! ### The primitives as programs -/

@[simp] theorem run_pMemRead (off n : Nat) (s : State) : (pMemRead off n).run s = memRead off n s := rfl
@[simp] theorem run_pMemWrite (off : Nat) (bytes : List Byte) (s : State) :
    (pMemWrite off bytes).run s = ((), memWrite off bytes s) := rfl
@[simp] theorem run_pXfer (hd : Byte) (tl : List Byte) (s : State) : (pXfer hd tl).run s = doXfer hd tl s := rfl
@[simp] theorem run_pGdo (s : State) : pGdo.run s = doGdo s := rfl
@[simp] theorem run_pLoad (s : State) : pLoad.run s = doLoad s := rfl
@[simp] theorem run_pDelay (n : Nat) (s : State) : (pDelay n).run s = ((), elapse n s) := rfl
@[simp] theorem run_pRead (r : Src) (s : State) : (pRead r).run s = (readSrc r s, s) := rfl
@[simp] theorem run_pWrite (d : Dst) (s : State) : (pWrite d).run s = ((), writeDst d s) := rfl
@[simp] theorem run_pNote (e : Note) (s : State) : (pNote e).run s = ((), emit (e.event s.regs.now) s) := rfl

theorem Prog.run_times_succ (n : Nat) (m : Prog Unit) (s : State) :
    (Prog.times (n + 1) m).run s = (Prog.times n m).run (m.run s).2 := by
  show (m.andThen _).run s = _
  simp

/-! ### Dispatch checks (R115) -/

@[simp] theorem checked_badArg {badArg alloc : Bool} {body : Prog ResultCode} (h : badArg = true) :
    checked badArg alloc body = .pure .badArg := by simp [checked, h]

@[simp] theorem checked_alloc {badArg alloc : Bool} {body : Prog ResultCode} (hb : badArg = false) (h : alloc = true) :
    checked badArg alloc body = .pure .alloc := by simp [checked, hb, h]

@[simp] theorem checked_body {badArg alloc : Bool} {body : Prog ResultCode} (hb : badArg = false) (h : alloc = false) :
    checked badArg alloc body = body := by simp [checked, hb, h]

/-! ### Running a command -/

/-- From its first line a command runs to its completion. -/
theorem runCommand_atStart (m : Prog ResultCode) (s : State) (h : s.ctx.answers = []) (hd : s.ctx.delayLeft = none) :
    runCommand m s = .next (finish m s) := by
  simp [runCommand, h, hd, Prog.after]

theorem finish_pure (c : ResultCode) (s : State) : finish (.pure c) s = complete c s := rfl

/-! ### What every primitive of a program has in common -/

/-- Every primitive the program can perform, whatever is answered, satisfies `P`. -/
def Prog.All (P : Prim → Prop) : Prog α → Prop
  | .pure _ => True
  | .op p k => P p ∧ ∀ r, (k r).All P

theorem Prog.all_pure (P : Prim → Prop) (a : α) : (Prog.pure a).All P := trivial

theorem Prog.all_op {P : Prim → Prop} {p : Prim} {k : p.Res → Prog α} (hp : P p) (hk : ∀ r, (k r).All P) :
    (Prog.op p k).All P := ⟨hp, hk⟩

theorem Prog.all_bind {P : Prim → Prop} {m : Prog α} {f : α → Prog β} (hm : m.All P) (hf : ∀ a, (f a).All P) :
    (m.bind f).All P := by
  induction m with
  | pure a => exact hf a
  | op p k ih => exact ⟨hm.1, fun r => ih r (hm.2 r)⟩

theorem Prog.all_andThen {P : Prim → Prop} {m : Prog α} {n : Prog β} (hm : m.All P) (hn : n.All P) :
    (m.andThen n).All P := Prog.all_bind hm fun _ => hn

theorem Prog.all_ite {P : Prim → Prop} {c : Prop} [Decidable c] {m n : Prog α} (hm : c → m.All P) (hn : ¬c → n.All P) :
    (if c then m else n).All P := by
  split <;> rename_i h
  exacts [hm h, hn h]

theorem Prog.all_times {P : Prim → Prop} {m : Prog Unit} (hm : m.All P) (n : Nat) : (Prog.times n m).All P := by
  induction n with
  | zero => trivial
  | succ n ih => exact Prog.all_andThen hm ih

theorem Prog.all_mono {P Q : Prim → Prop} (h : ∀ p, P p → Q p) {m : Prog α} (hm : m.All P) : m.All Q := by
  induction m with
  | pure a => trivial
  | op p k ih => exact ⟨h p hm.1, fun r => ih r (hm.2 r)⟩

/-- What the answers so far leave of a program has the same kinds of primitives. -/
theorem Prog.all_after {P : Prim → Prop} {m rest : Prog α} {answers : List Answer} (hm : m.All P)
    (h : m.after answers = some rest) : rest.All P := by
  induction answers generalizing m with
  | nil => simp only [Prog.after, Option.some.injEq] at h; exact h ▸ hm
  | cons a as ih =>
    cases m with
    | pure _ => simp [Prog.after] at h
    | op p k =>
      simp only [Prog.after] at h
      split at h
      · exact ih (hm.2 _) h
      · simp at h

/-- A property that every primitive of a program keeps, the program keeps. -/
theorem Prog.run_keeps {I : State → Prop} {P : Prim → Prop} (hI : ∀ p s, P p → I s → I (runPrim p s).2)
    {m : Prog α} (hm : m.All P) {s : State} (hs : I s) : I (m.run s).2 := by
  induction m generalizing s with
  | pure a => exact hs
  | op p k ih => exact ih _ (hm.2 _) (hI p s hm.1 hs)

theorem Prog.all_true (m : Prog α) : m.All fun _ => True := by
  induction m with
  | pure a => trivial
  | op p k ih => exact ⟨trivial, fun r => ih r⟩

/-! ### Resuming -/

theorem Prim.accepts_record (p : Prim) (r : p.Res) : p.accepts (p.record r) = some r := by
  cases p with
  | memRead off n => exact dif_pos r.2
  | xfer hd tl => exact dif_pos r.2.2
  | _ => rfl

theorem Prog.after_append (m : Prog α) (as bs : List Answer) :
    m.after (as ++ bs) = (m.after as).bind fun rest => rest.after bs := by
  induction as generalizing m with
  | nil => simp [Prog.after]
  | cons a as ih =>
    cases m with
    | pure _ => simp [Prog.after]
    | op p k =>
      simp only [List.cons_append, Prog.after]
      split
      · exact ih _
      · rfl

theorem Prog.after_snoc {m rest : Prog α} {p : Prim} {k : p.Res → Prog α} {as : List Answer} (r : p.Res)
    (h : m.after as = some rest) (hr : rest = .op p k) : m.after (as ++ [p.record r]) = some (k r) := by
  rw [Prog.after_append, h, hr]
  simp [Prog.after, Prim.accepts_record]

end Sys2Proof.Machine
end

