-- ==== Sys2Proof/Laws/Footprint.lean ====
section
/-! SUPPORT. What each program can do at all: the primitives it may perform, whatever is answered. Said once here, per core
operation and per instruction; every frame and every invariant follows from it. -/

namespace Sys2Proof.Machine

variable {P : Prim → Prop}

/-! ### The core operations -/

theorem all_xw (hx : ∀ hd tl, P (.xfer hd tl)) (c : Cfg) (a : ChipAddr) (b : Bool) (v : Byte) : (xw c a b v).All P :=
  ⟨hx _ _, fun _ => trivial⟩

theorem all_xr (hx : ∀ hd tl, P (.xfer hd tl)) (c : Cfg) (a : ChipAddr) (b : Bool) : (xr c a b).All P :=
  ⟨hx _ _, fun _ => trivial⟩

theorem all_xbw (hx : ∀ hd tl, P (.xfer hd tl)) (c : Cfg) (a : ChipAddr) (bytes : List Byte) : (xbw c a bytes).All P :=
  ⟨hx _ _, fun _ => trivial⟩

theorem all_xbr (hx : ∀ hd tl, P (.xfer hd tl)) (c : Cfg) (a : ChipAddr) (n : Nat) : (xbr c a n).All P :=
  ⟨hx _ _, fun _ => trivial⟩

theorem all_xs (hx : ∀ hd tl, P (.xfer hd tl)) (c : Cfg) (code : ChipAddr) : (xs c code).All P :=
  ⟨hx _ _, fun _ => trivial⟩

theorem all_read (hr : ∀ r, P (.read r)) (r : Src) : (pRead r).All P := ⟨hr r, fun _ => trivial⟩
theorem all_write {d : Dst} (h : P (.write d)) : (pWrite d).All P := ⟨h, fun _ => trivial⟩
theorem all_note {e : Note} (h : P (.note e)) : (pNote e).All P := ⟨h, fun _ => trivial⟩
theorem all_delay (hd : ∀ n, P (.delay n)) (n : Nat) : (pDelay n).All P := ⟨hd n, fun _ => trivial⟩
theorem all_memRead {off n : Nat} (h : P (.memRead off n)) : (pMemRead off n).All P := ⟨h, fun _ => trivial⟩
theorem all_memWrite {off : Nat} {bytes : List Byte} (h : P (.memWrite off bytes)) : (pMemWrite off bytes).All P :=
  ⟨h, fun _ => trivial⟩

theorem all_checked {badArg alloc : Bool} {body : Prog ResultCode} (h : badArg = false → alloc = false → body.All P) :
    (checked badArg alloc body).All P := by
  unfold checked
  cases badArg
  · cases alloc
    · exact h rfl rfl
    · trivial
  · trivial

theorem all_pollUntil (hr : ∀ r, P (.read r)) (hd : ∀ n, P (.delay n)) {pred : Prog Bool} (hp : pred.All P) (i t : Nat) :
    (pollUntil pred i t).All P := by
  refine Prog.all_bind (all_read hr _) fun t0 => ?_
  generalize t + 1 = fuel
  induction fuel with
  | zero => exact Prog.all_bind (all_read hr _) fun _ => trivial
  | succ fuel ih =>
    refine Prog.all_bind hp fun hit => Prog.all_bind (all_read hr _) fun now => ?_
    refine Prog.all_ite (fun _ => trivial) fun _ => Prog.all_ite (fun _ => trivial) fun _ => ?_
    exact Prog.all_andThen (all_delay hd _) ih

theorem all_waitStateCore (hx : ∀ hd tl, P (.xfer hd tl)) (hr : ∀ r, P (.read r)) (hd : ∀ n, P (.delay n)) (c : Cfg)
    (target : BitVec 3) (t : Nat) : (waitStateCore c target t).All P :=
  all_pollUntil hr hd (Prog.all_andThen (all_xr hx _ _ _) (Prog.all_bind (all_read hr _) fun _ => Prog.all_pure _ _)) _ _

theorem all_waitEdgeCore (hg : P .gdo) (hn : ∀ l, P (.note (.gdo l))) (hr : ∀ r, P (.read r)) (hd : ∀ n, P (.delay n))
    (c : Cfg) (level : Bool) (t : Nat) : (waitEdgeCore c level t).All P :=
  all_pollUntil hr hd (Prog.all_op hg fun _ => Prog.all_andThen (all_note (hn _)) (Prog.all_pure _ _)) _ _

theorem all_resetCore (hx : ∀ hd tl, P (.xfer hd tl)) (hd : ∀ n, P (.delay n)) (c : Cfg) : (resetCore c).All P :=
  Prog.all_andThen (all_xs hx _ _) <| Prog.all_andThen (all_delay hd _) <| Prog.all_andThen (all_xs hx _ _) <|
  Prog.all_andThen (all_delay hd _) <| Prog.all_andThen (all_xs hx _ _) (all_delay hd _)

theorem all_applyTable (hx : ∀ hd tl, P (.xfer hd tl)) (hr : ∀ r, P (.read r)) (c : Cfg) (t : List (ChipAddr × Byte)) :
    (applyTable c t).All P := by
  unfold applyTable
  induction inAddressOrder t with
  | nil => trivial
  | cons e rest ih => exact Prog.all_bind (all_read hr _) fun _ => Prog.all_andThen (all_xw hx _ _ _ _) ih

theorem all_setFreqCore (hx : ∀ hd tl, P (.xfer hd tl)) (hf : ∀ w, P (.write (.freqWord w))) (c : Cfg) (f : Word) :
    (setFreqCore c f).All P :=
  Prog.all_andThen (all_write (hf _)) <| Prog.all_andThen (all_xw hx _ _ _ _) <|
  Prog.all_andThen (all_xw hx _ _ _ _) (all_xw hx _ _ _ _)

theorem all_rinitCore (hx : ∀ hd tl, P (.xfer hd tl)) (hr : ∀ r, P (.read r)) (hd : ∀ n, P (.delay n))
    (hf : ∀ w, P (.write (.freqWord w))) (c : Cfg) (f : Word) : (rinitCore c f).All P :=
  Prog.all_andThen (all_resetCore hx hd c) <| Prog.all_andThen (all_setFreqCore hx hf c f) (all_applyTable hx hr c _)

/-- The bursts of a drain lie in the RAM, from `off` on, and pass the target by at most one burst (R159, R346). -/
theorem all_drainCore (hx : ∀ hd tl, P (.xfer hd tl)) (hr : ∀ r, P (.read r)) (hd : ∀ n, P (.delay n)) (c : Cfg)
    (t n off : Nat)
    (hm : ∀ o (bytes : List Byte), off ≤ o → o + bytes.length ≤ c.ramSize → o + bytes.length ≤ off + n + c.occMask.toNat →
      P (.memWrite o bytes)) : (drainCore c t n off).All P := by
  refine Prog.all_bind (all_read hr _) fun t0 => ?_
  have check : ∀ got again, (got ≤ n → Prog.All P again) → (drainCheck c t n t0 got again).All P := by
    intro got again h
    refine Prog.all_ite (fun _ => trivial) fun hg => Prog.all_bind (all_read hr _) fun now => ?_
    exact Prog.all_ite (fun _ => trivial) fun _ => Prog.all_andThen (all_delay hd _) (h (by omega))
  have loop : ∀ fuel got, got ≤ n → (drainLoop c t n off t0 got fuel).All P := by
    intro fuel
    induction fuel with
    | zero => intro got _; trivial
    | succ fuel ih =>
      intro got hg
      refine ⟨hx _ _, fun ans => ?_⟩
      refine Prog.all_ite (fun _ => check _ _ (ih got)) fun _ => Prog.all_ite (fun _ => trivial) fun hp => ?_
      refine ⟨hx _ _, fun d => ⟨?_, fun _ => check _ _ (ih _)⟩⟩
      have hl := d.2.2
      simp only [List.length_replicate] at hl
      have hq : ∀ v : Byte, (v &&& c.occMask).toNat ≤ c.occMask.toNat := fun v => by
        rw [BitVec.toNat_and]; exact Nat.and_le_right
      simp only [pastRam, decide_eq_true_eq] at hp
      refine hm _ _ (Nat.le_add_right _ _) ?_ ?_
      · rw [hl]; omega
      · rw [hl]; have := hq (ans.2.1.head (List.ne_nil_of_length_eq_add_one ans.2.2)); omega
  exact loop _ 0 (Nat.zero_le n)

/-- The primitives of `ExtractCore`: it reads RAM and writes RD_INDEX and RD_MISC, whole or by fields (R250). -/
def Prim.ofExtract : Prim → Prop
  | .memRead _ _ => True
  | .write d =>
    match d with
    | .rdIndex _ | .rdMisc _ | .numReadings _ | .battery _ | .wakeStart _ | .wakeStop _ => True
    | _ => False
  | _ => False

/-- What holds of every primitive of an extraction holds all through `ExtractCore`. -/
theorem all_extractCore (hP : ∀ p : Prim, p.ofExtract → P p) (c : Cfg) (src d : Nat) : (extractCore c src d).All P := by
  refine Prog.all_mono hP ?_
  refine Prog.all_andThen (all_write trivial) <| Prog.all_andThen (all_write trivial) ?_
  refine Prog.all_ite (fun _ => trivial) fun _ => Prog.all_bind (all_memRead trivial) fun b => ?_
  exact Prog.all_andThen (all_write trivial) <| Prog.all_andThen (all_write trivial) <| Prog.all_andThen (all_write trivial) <|
    Prog.all_andThen (all_write trivial) <| Prog.all_andThen (all_write trivial) trivial

theorem all_readingZero (hr : ∀ r, P (.read r)) : readingZero.All P :=
  Prog.all_bind (all_read hr _) fun _ => Prog.all_bind (all_read hr _) fun _ => trivial

/-! ### The read-out attempt -/

/-- Where an attempt writes: the frame in TXR, all of DECR, and the captures in RXR (R262, R346). -/
def inAttemptRegions (c : Cfg) (off len : Nat) : Prop :=
  (off = c.txrBase ∧ len = frameLen) ∨ (off = c.decrBase ∧ len ≤ c.decCap) ∨
  (c.rxrBase ≤ off ∧ off + len ≤ c.ramSize ∧ off + len ≤ c.rxrBase + max c.ackRawLen c.respRawLen + c.occMask.toNat)

theorem length_reqPayload (c : Cfg) (m : Word) : (reqPayload c m).length = 17 := by
  simp only [reqPayload, List.length_set, c.reqTemplate.2]

theorem length_reqFrame (c : Cfg) (m : Word) : (reqFrame c m).length = frameLen := by
  simp only [reqFrame, List.length_append, length_encodeCore, length_reqPayload, crcBytes, List.length_cons,
    List.length_nil, c.syncPrefix.2, frameLen]

/-- The primitives of an attempt: exchanges, GDO samples and delays; RAM reads, and RAM writes inside its regions; writes of
ATT_STATE and of the reading registers; the GDO and PUBLISH events (R262 to R269). -/
def Prim.ofAttempt (c : Cfg) : Prim → Prop
  | .memWrite off bytes => inAttemptRegions c off bytes.length
  | .write d =>
    match d with
    | .att _ => True
    | d => (Prim.write d).ofExtract
  | .note e =>
    match e with
    | .gdo _ | .publish .. => True
    | _ => False
  | .load => False
  | _ => True

/-- What holds of every primitive of an attempt holds all through `AttemptCore`. -/
theorem all_attemptCore (c : Cfg) (hP : ∀ p : Prim, p.ofAttempt c → P p) : (attemptCore c).All P := by
  have hx : ∀ hd tl, P (.xfer hd tl) := fun _ _ => hP _ trivial
  have hr : ∀ r, P (.read r) := fun _ => hP _ trivial
  have hd : ∀ n, P (.delay n) := fun _ => hP _ trivial
  have hg : P .gdo := hP _ trivial
  have hng : ∀ l, P (.note (.gdo l)) := fun _ => hP _ trivial
  have hm : ∀ off n, P (.memRead off n) := fun _ _ => hP _ trivial
  have hi : ∀ w, P (.write (.rdIndex w)) := fun _ => hP _ trivial
  have hw : ∀ w, P (.write (.rdMisc w)) := fun _ => hP _ trivial
  have ha : ∀ a, P (.write (.att a)) := fun _ => hP _ trivial
  have hs : ∀ off (bytes : List Byte), inAttemptRegions c off bytes.length → P (.memWrite off bytes) := fun _ _ h => hP _ h
  have extract : ∀ p : Prim, p.ofExtract → P p := fun p hp => hP p <| by
    cases p with
    | memRead => trivial
    | write d => cases d <;> first | trivial | exact hp.elim
    | _ => exact hp.elim
  have fail : ∀ code nr d, (attemptFail code nr d).All P := fun code nr d =>
    Prog.all_andThen (all_write (hi _)) <| Prog.all_andThen (all_write (hw _)) <|
    Prog.all_andThen (all_write (ha _)) (Prog.all_pure _ _)
  have decode : ∀ nr, (attemptDecode c nr).All P := fun nr => by
    refine Prog.all_andThen (all_write (ha _)) <| Prog.all_bind (all_memRead (hm _ _)) fun raw => ?_
    have hl := length_decodeCore_le raw.1 (osrFactor c.respOsr) c.decCap
    refine Prog.all_andThen (all_memWrite (hs _ _ (.inr (.inl ⟨rfl, ?_⟩)))) <|
      Prog.all_andThen (all_memWrite (hs _ _ (.inr (.inl ⟨rfl, ?_⟩)))) <|
      Prog.all_bind (all_extractCore extract c _ _) fun okay => ?_
    · rw [List.length_replicate]
    · exact hl
    · refine Prog.all_ite (fun _ => Prog.all_bind (all_readingZero hr) fun zero => ?_) fun _ => fail _ _ _
      refine Prog.all_ite (fun _ => fail _ _ _) fun _ => ?_
      exact Prog.all_andThen (all_write (ha _)) <| Prog.all_bind (all_read hr _) fun _ =>
        Prog.all_bind (all_read hr _) fun _ => Prog.all_andThen (all_note (hP _ trivial)) (Prog.all_pure _ _)
  have drain : ∀ t n, n ≤ max c.ackRawLen c.respRawLen → (drainCore c t n c.rxrBase).All P := fun t n h2 => by
    refine all_drainCore hx hr hd c t n c.rxrBase fun o bytes ho hb hl => hs _ _ (.inr (.inr ⟨ho, hb, by omega⟩))
  have response : (attemptResponse c).All P := by
    refine Prog.all_andThen (all_write (ha _)) <| Prog.all_andThen (all_applyTable hx hr c _) <|
      Prog.all_andThen (all_xs hx _ _) <| Prog.all_andThen (all_xs hx _ _) <| Prog.all_bind ?_ fun r =>
      Prog.all_andThen (all_applyTable hx hr c _) <| Prog.all_ite (fun _ => decode _) fun _ => fail _ _ _
    refine Prog.all_bind (all_waitStateCore hx hr hd c _ _) fun rx => Prog.all_ite (fun _ => ?_) fun _ => Prog.all_pure _ _
    refine Prog.all_bind (all_waitEdgeCore hg hng hr hd c _ _) fun edge =>
      Prog.all_ite (fun _ => Prog.all_bind (drain _ _ (Nat.le_max_right _ _)) fun _ => Prog.all_pure _ _)
        fun _ => Prog.all_pure _ _
  have ack : (attemptAck c).All P := by
    refine Prog.all_andThen (all_write (ha _)) <| Prog.all_andThen (all_applyTable hx hr c _) <|
      Prog.all_andThen (all_xs hx _ _) <| Prog.all_bind (all_waitStateCore hx hr hd c _ _) fun rx =>
      Prog.all_ite (fun _ => ?_) fun _ => fail _ _ _
    refine Prog.all_bind (all_waitEdgeCore hg hng hr hd c _ _) fun edge => Prog.all_ite (fun _ => ?_) fun _ => fail _ _ _
    exact Prog.all_bind (drain _ _ (Nat.le_max_left _ _)) fun r =>
      Prog.all_ite (fun _ => response) fun _ => fail _ _ _
  have send : (sendRequest c).All P :=
    Prog.all_bind (all_read hr _) fun m =>
    Prog.all_andThen (all_memWrite (hs _ _ (.inl ⟨rfl, length_reqFrame c m⟩))) <|
    Prog.all_bind (all_memRead (hm _ _)) fun f => Prog.all_andThen (all_xbw hx _ _ _) <|
    Prog.all_andThen (all_delay hd _) <| Prog.all_andThen (all_xs hx _ _) (all_applyTable hx hr c _)
  refine Prog.all_andThen (all_write (hi _)) <| Prog.all_andThen (all_write (hw _)) <|
    Prog.all_andThen (all_write (ha _)) <| Prog.all_andThen (all_applyTable hx hr c _) <|
    Prog.all_andThen (all_xs hx _ _) <| Prog.all_bind (all_waitStateCore hx hr hd c _ _) fun tx =>
    Prog.all_ite (fun _ => ?_) fun _ => fail _ _ _
  exact Prog.all_andThen (Prog.all_times (Prog.all_andThen (all_xbw hx _ _ _) (all_delay hd _)) _) <|
    Prog.all_andThen (all_delay hd _) <| Prog.all_andThen send ack

/-! ### Every instruction -/

end Sys2Proof.Machine

namespace Sys2Proof

open Machine

/-- The instruction makes transport exchanges. -/
def Instr.exchanges : Instr → Bool
  | .waitedge _ | .rssi _ | .encode | .decode _ | .crc | .buildreq | .extract => false
  | _ => true

/-- The instruction may wait for ticks (R350, R351). -/
def Instr.waits : Instr → Bool
  | .waitst _ | .waitedge _ | .drain | .rreset | .rinit | .attempt | .discover | .boot => true
  | _ => false

/-- The instruction runs read-out attempts (R46, R269). -/
def Instr.attempts : Instr → Bool
  | .attempt | .discover | .boot => true
  | _ => false

/-- The instruction scans frequencies (R275, R281). -/
def Instr.scans : Instr → Bool
  | .discover | .boot => true
  | _ => false

/-- The instruction computes a frequency word (R38). -/
def Instr.tunes : Instr → Bool
  | .setfreq | .rinit | .discover | .boot => true
  | _ => false

/-- The instruction writes the reading registers (R40). -/
def Instr.reads : Instr → Bool
  | .extract | .attempt | .discover | .boot => true
  | _ => false

/-- Where the instruction may store `len` bytes from `off` (R82, R99). -/
def Instr.stores (c : Cfg) (a0 a1 : Word) (i : Instr) (off len : Nat) : Prop :=
  match i with
  | .rburst _ n => off = argOff a0 ∧ len = n.toNat ∧ off + len ≤ c.ramSize
  | .drain => argOff a1 ≤ off ∧ off + len ≤ argOff a1 + argLen a0 + c.occMask.toNat ∧ off + len ≤ c.ramSize
  | .encode => off = argOff a1 ∧ len = encodedLen (argLen a0) ∧ off + len ≤ c.ramSize
  | .decode _ => off = argOff a1 ∧ len ≤ argLen a1 ∧ off + len ≤ c.ramSize
  | .buildreq => off = argOff a1 ∧ len = frameLen ∧ off + len ≤ c.ramSize
  | .attempt | .discover | .boot => inAttemptRegions c off len
  | _ => False

/-- What one primitive of an instruction's program may be. -/
def Instr.may (c : Cfg) (a0 a1 : Word) (i : Instr) (p : Prim) : Prop :=
  match p with
  | .memRead _ _ => True
  | .memWrite off bytes => i.stores c a0 a1 off bytes.length
  | .xfer _ _ => i.exchanges = true
  | .gdo => i.waits = true
  | .load => i = .boot
  | .delay _ => i.waits = true
  | .read _ => True
  | .write d =>
    match d with
    | .res0 _ => True
    | .res1 _ => True
    | .freqMhz _ => i.scans = true
    | .freqWord _ => i.tunes = true
    | .cand _ => i.scans = true
    | .disc _ => i.scans = true
    | .att _ => i.attempts = true
    | _ => i.reads = true
  | .note e =>
    match e with
    | .gdo _ => i.waits = true
    | .load _ => i = .boot
    | .store _ => i.scans = true
    | .publish .. => i.attempts = true

end Sys2Proof

namespace Sys2Proof.Machine

/-- The RAM and its regions under a well-formed configuration (R11, R80). -/
theorem wf_layout {c : Cfg} (h : cfgWf c = true) : c.ramSize = 2048 ∧ c.txrBase = 0 ∧ c.txrSize = 128 ∧ c.decrBase = 0x80 ∧
    c.decCap = 256 ∧ c.rxrBase = 0x180 ∧ c.rxrSize = 1664 := by
  simp only [cfgWf, cfgLayoutOk, Bool.and_eq_true, decide_eq_true_eq] at h
  obtain ⟨_, _, _, _, _, h, _⟩ := h
  exact ⟨h.1.1.1.1.1.1, h.1.1.1.1.1.2, h.1.1.1.1.2, h.1.1.1.2, h.1.1.2, h.1.2, h.2⟩

/-- Under a well-formed configuration an instruction stores inside the RAM alone (R82). -/
theorem stores_inside {c : Cfg} (h : cfgWf c = true) {a0 a1 : Word} {i : Instr} {off len : Nat}
    (hs : i.stores c a0 a1 off len) : off + len ≤ ramSize := by
  obtain ⟨h1, h2, _, h3, h4, _, _⟩ := wf_layout h
  have hr : inAttemptRegions c off len → off + len ≤ ramSize := by
    rintro (⟨rfl, rfl⟩ | ⟨rfl, hl⟩ | ⟨_, hl, _⟩) <;> simp only [ramSize, frameLen] <;> omega
  cases i <;> first | exact hs.elim | exact hr hs | exact Nat.le_trans hs.2.2 (Nat.le_of_eq h1)

/-- An attempt inside an instruction that may run one. -/
theorem may_attemptCore {c : Cfg} {a0 a1 : Word} {i : Instr} (h : i = .attempt ∨ i = .discover ∨ i = .boot) : (attemptCore c).All (i.may c a0 a1) := by
  have hx : i.exchanges = true := by rcases h with rfl | rfl | rfl <;> rfl
  have hw : i.waits = true := by rcases h with rfl | rfl | rfl <;> rfl
  have ha : i.attempts = true := by rcases h with rfl | rfl | rfl <;> rfl
  have hr : i.reads = true := by rcases h with rfl | rfl | rfl <;> rfl
  have hs : ∀ off len, inAttemptRegions c off len → i.stores c a0 a1 off len := by
    rcases h with rfl | rfl | rfl <;> exact fun _ _ h => h
  refine all_attemptCore c fun p hp => ?_
  cases p with
  | memWrite => exact hs _ _ hp
  | xfer => exact hx
  | gdo => exact hw
  | delay => exact hw
  | write d => cases d <;> first | exact hr | exact ha | exact hp.elim
  | note e => cases e <;> first | exact hw | exact ha | exact hp.elim
  | load => exact hp.elim
  | _ => trivial

/-- A scan inside DISCOVER or BOOT. -/
theorem may_discoverCore {c : Cfg} {a0 a1 : Word} {i : Instr} (h : i = .discover ∨ i = .boot) : (discoverCore c).All (i.may c a0 a1) := by
  have hs : i.scans = true := by rcases h with rfl | rfl <;> rfl
  have hx : ∀ hd tl, i.may c a0 a1 (.xfer hd tl) := by rcases h with rfl | rfl <;> intros <;> rfl
  have hd : ∀ n, i.may c a0 a1 (.delay n) := by rcases h with rfl | rfl <;> intros <;> rfl
  have hf : ∀ w, i.may c a0 a1 (.write (.freqWord w)) := by rcases h with rfl | rfl <;> intros <;> rfl
  have hr : ∀ r, i.may c a0 a1 (.read r) := fun _ => trivial
  refine Prog.all_andThen (all_write hs) ?_
  generalize discoverFuel c = fuel
  generalize c.freqMin = f
  generalize 0 = tried
  induction fuel generalizing f tried with
  | zero => exact Prog.all_andThen (all_write hs) (Prog.all_pure _ _)
  | succ fuel ih =>
    refine Prog.all_ite (fun _ => ?_) fun _ => Prog.all_andThen (all_write hs) (Prog.all_pure _ _)
    refine Prog.all_andThen (all_write hs) <| Prog.all_andThen (all_rinitCore hx hr hd hf c f) <|
      Prog.all_bind (may_attemptCore (.inr h)) fun a => Prog.all_ite (fun _ => ?_) fun _ => ih _ _
    exact Prog.all_andThen (all_write hs) <| Prog.all_andThen (all_note hs) <|
      Prog.all_andThen (all_write hs) (Prog.all_pure _ _)

theorem may_discoverResult {c : Cfg} {a0 a1 : Word} {i : Instr} (found : Option Word) :
    (discoverResult found).All (i.may c a0 a1) := by
  cases found <;> exact Prog.all_andThen (all_write trivial) (Prog.all_pure _ _)

/-- Every primitive of an instruction's program is one the instruction may perform. -/
theorem program_may (c : Cfg) (a0 a1 : Word) (i : Instr) :
    (program c a0 a1 i).All (i.may c a0 a1) := by
  have hr : ∀ r, i.may c a0 a1 (.read r) := fun _ => trivial
  have hm : ∀ off n, i.may c a0 a1 (.memRead off n) := fun _ _ => trivial
  cases i with
  | wreg a b v => exact Prog.all_andThen (all_xw (fun _ _ => rfl) _ _ _ _) (Prog.all_pure _ _)
  | rreg a b =>
    exact Prog.all_bind (all_xr (fun _ _ => rfl) _ _ _) fun _ => Prog.all_andThen (all_write trivial) (Prog.all_pure _ _)
  | wburst a n =>
    exact all_checked fun _ _ => Prog.all_bind (all_memRead (hm _ _)) fun _ =>
      Prog.all_andThen (all_xbw (fun _ _ => rfl) _ _ _) (Prog.all_pure _ _)
  | rburst a n =>
    refine all_checked fun _ h => ⟨rfl, fun ans => ?_⟩
    have hl := ans.2.2
    simp only [List.length_replicate] at hl
    simp only [pastRam, decide_eq_false_iff_not, Nat.not_lt] at h
    exact Prog.all_andThen (all_memWrite ⟨rfl, hl, by rw [hl]; exact h⟩) (Prog.all_pure _ _)
  | strobe a => exact Prog.all_andThen (all_xs (fun _ _ => rfl) _ _) (Prog.all_pure _ _)
  | waitst t =>
    exact all_checked fun _ _ => Prog.all_bind (all_waitStateCore (fun _ _ => rfl) hr (fun _ => rfl) _ _ _) fun _ =>
      Prog.all_andThen (all_write trivial) <| Prog.all_andThen (all_write trivial) (Prog.all_pure _ _)
  | waitedge l =>
    exact all_checked fun _ _ => Prog.all_bind (all_waitEdgeCore (P := Instr.may c a0 a1 (.waitedge l)) rfl (fun _ => rfl) hr
      (fun _ => rfl) _ _ _) fun _ =>
      Prog.all_andThen (all_write trivial) <| Prog.all_andThen (all_write trivial) (Prog.all_pure _ _)
  | drain =>
    exact all_checked fun _ _ => Prog.all_bind (all_drainCore (fun _ _ => rfl) hr (fun _ => rfl) _ _ _ _
      fun o bytes ho hb hl => ⟨ho, hl, hb⟩) fun _ =>
      Prog.all_andThen (all_write trivial) <| Prog.all_andThen (all_write trivial) (Prog.all_pure _ _)
  | setfreq =>
    exact all_checked fun _ _ => Prog.all_andThen (all_setFreqCore (fun _ _ => rfl) (fun _ => rfl) _ _) <|
      Prog.all_bind (all_read hr _) fun _ => Prog.all_andThen (all_write trivial) (Prog.all_pure _ _)
  | rssi r => exact Prog.all_andThen (all_write trivial) (Prog.all_pure _ _)
  | rreset => exact Prog.all_andThen (all_resetCore (fun _ _ => rfl) (fun _ => rfl) _) (Prog.all_pure _ _)
  | preset id => exact Prog.all_andThen (all_applyTable (fun _ _ => rfl) hr _ _) (Prog.all_pure _ _)
  | encode =>
    refine all_checked fun _ h => Prog.all_bind (all_memRead (hm _ _)) fun b => Prog.all_andThen (all_memWrite ?_) <|
      Prog.all_andThen (all_write trivial) (Prog.all_pure _ _)
    have hl := length_encodeCore_eq b.1
    rw [b.2] at hl
    simp only [Bool.or_eq_false_iff, pastRam, decide_eq_false_iff_not, Nat.not_lt] at h
    exact ⟨rfl, hl, by rw [hl]; exact h.2⟩
  | decode o =>
    refine all_checked fun _ h => Prog.all_bind (all_memRead (hm _ _)) fun b => ?_
    have hl := length_decodeCore_le b.1 (osrFactor o) (argLen a1)
    simp only [Bool.or_eq_false_iff, pastRam, decide_eq_false_iff_not, Nat.not_lt] at h
    refine Prog.all_andThen (all_memWrite ⟨rfl, ?_, ?_⟩) <| Prog.all_andThen (all_memWrite ⟨rfl, hl, ?_⟩) <|
      Prog.all_andThen (all_write trivial) <| Prog.all_andThen (all_write trivial) (Prog.all_pure _ _)
    · rw [List.length_replicate]
    · rw [List.length_replicate]; exact h.2
    · omega
  | crc =>
    exact all_checked fun _ _ => Prog.all_bind (all_memRead (hm _ _)) fun _ => Prog.all_andThen (all_write trivial) <|
      Prog.all_andThen (all_write trivial) (Prog.all_pure _ _)
  | buildreq =>
    refine all_checked fun _ h => Prog.all_bind (all_read hr _) fun m => Prog.all_andThen (all_memWrite ?_) <|
      Prog.all_andThen (all_write trivial) <| Prog.all_andThen (all_write trivial) (Prog.all_pure _ _)
    simp only [pastRam, decide_eq_false_iff_not, Nat.not_lt] at h
    exact ⟨rfl, length_reqFrame _ _, by rw [length_reqFrame]; exact h⟩
  | extract =>
    refine all_checked fun _ _ => Prog.all_bind (all_extractCore (fun p hp => ?_) _ _ _) fun okay =>
      Prog.all_ite (fun _ => ?_) fun _ => Prog.all_pure _ _
    · cases p with
      | memRead => trivial
      | write d => cases d <;> first | rfl | exact hp.elim
      | _ => exact hp.elim
    exact Prog.all_bind (all_readingZero hr) fun zero => Prog.all_ite (fun _ => Prog.all_pure _ _) fun _ =>
      Prog.all_andThen (all_write trivial) (Prog.all_pure _ _)
  | rinit =>
    exact Prog.all_bind (all_read hr _) fun f => all_checked fun _ _ =>
      Prog.all_andThen (all_rinitCore (fun _ _ => rfl) hr (fun _ => rfl) (fun _ => rfl) _ _) <|
      Prog.all_bind (all_read hr _) fun _ => Prog.all_andThen (all_write trivial) (Prog.all_pure _ _)
  | attempt =>
    exact Prog.all_bind (may_attemptCore (.inl rfl)) fun _ => Prog.all_andThen (all_write trivial) <|
      Prog.all_andThen (all_write trivial) (Prog.all_pure _ _)
  | discover =>
    exact Prog.all_bind (may_discoverCore (.inl rfl)) fun _ => Prog.all_andThen (all_write trivial)
      (may_discoverResult _)
  | boot =>
    have bd : (bootDiscover c).All (Instr.boot.may c a0 a1) :=
      Prog.all_bind (may_discoverCore (.inr rfl)) fun _ => Prog.all_andThen (all_write trivial)
        (may_discoverResult _)
    refine Prog.all_op rfl fun ans => Prog.all_andThen (all_note rfl) ?_
    cases ans with
    | none => exact bd
    | some v =>
      refine Prog.all_ite (fun _ => ?_) fun _ => bd
      exact Prog.all_andThen (all_write rfl) <|
        Prog.all_andThen (all_rinitCore (fun _ _ => rfl) hr (fun _ => rfl) (fun _ => rfl) _ _) <|
        Prog.all_andThen (all_write trivial) <| Prog.all_andThen (all_write trivial) (Prog.all_pure _ _)

end Sys2Proof.Machine
end

