-- ==== Sys2Proof/Laws/State.lean ====
section
/-! SUPPORT. What each named operation does to each field of the state, one lemma a field, so that no later proof unfolds
a record update. -/

namespace Sys2Proof.Machine

/-! ### emit -/

@[simp] theorem emit_cfg (e : Event) (s : State) : (emit e s).cfg = s.cfg := rfl
@[simp] theorem emit_status (e : Event) (s : State) : (emit e s).status = s.status := rfl
@[simp] theorem emit_regs (e : Event) (s : State) : (emit e s).regs = s.regs := rfl
@[simp] theorem emit_ctx (e : Event) (s : State) : (emit e s).ctx = s.ctx := rfl
@[simp] theorem emit_ram (e : Event) (s : State) : (emit e s).ram = s.ram := rfl
@[simp] theorem emit_history (e : Event) (s : State) : (emit e s).history = s.history ++ [e] := rfl
@[simp] theorem emit_oracle (e : Event) (s : State) : (emit e s).oracle = s.oracle := rfl
@[simp] theorem emit_agenda (e : Event) (s : State) : (emit e s).agenda = s.agenda := rfl
@[simp] theorem emit_response (e : Event) (s : State) : (emit e s).response = s.response := rfl

/-! ### memWrite -/

@[simp] theorem memWrite_cfg (off : Nat) (bytes : List Byte) (s : State) : (memWrite off bytes s).cfg = s.cfg := rfl
@[simp] theorem memWrite_status (off : Nat) (bytes : List Byte) (s : State) :
    (memWrite off bytes s).status = s.status := rfl
@[simp] theorem memWrite_regs (off : Nat) (bytes : List Byte) (s : State) :
    (memWrite off bytes s).regs = s.regs := rfl
@[simp] theorem memWrite_ctx (off : Nat) (bytes : List Byte) (s : State) : (memWrite off bytes s).ctx = s.ctx := rfl
@[simp] theorem memWrite_ram (off : Nat) (bytes : List Byte) (s : State) :
    (memWrite off bytes s).ram = s.ram.write off bytes := rfl
@[simp] theorem memWrite_history (off : Nat) (bytes : List Byte) (s : State) :
    (memWrite off bytes s).history = s.history := rfl
@[simp] theorem memWrite_oracle (off : Nat) (bytes : List Byte) (s : State) :
    (memWrite off bytes s).oracle = s.oracle := rfl
@[simp] theorem memWrite_agenda (off : Nat) (bytes : List Byte) (s : State) :
    (memWrite off bytes s).agenda = s.agenda := rfl
@[simp] theorem memWrite_response (off : Nat) (bytes : List Byte) (s : State) :
    (memWrite off bytes s).response = s.response := rfl

/-! ### elapse -/

@[simp] theorem elapse_cfg (n : Nat) (s : State) : (elapse n s).cfg = s.cfg := rfl
@[simp] theorem elapse_status (n : Nat) (s : State) : (elapse n s).status = s.status := rfl
@[simp] theorem elapse_ctx (n : Nat) (s : State) : (elapse n s).ctx = s.ctx := rfl
@[simp] theorem elapse_ram (n : Nat) (s : State) : (elapse n s).ram = s.ram := rfl
@[simp] theorem elapse_history (n : Nat) (s : State) : (elapse n s).history = s.history := rfl
@[simp] theorem elapse_oracle (n : Nat) (s : State) : (elapse n s).oracle = s.oracle := rfl
@[simp] theorem elapse_agenda (n : Nat) (s : State) : (elapse n s).agenda = s.agenda := rfl
@[simp] theorem elapse_response (n : Nat) (s : State) : (elapse n s).response = s.response := rfl

/-! ### complete -/

@[simp] theorem complete_cfg (c : ResultCode) (s : State) : (complete c s).cfg = s.cfg := rfl
@[simp] theorem complete_status (c : ResultCode) (s : State) : (complete c s).status = s.status.completed c := rfl
@[simp] theorem complete_regs (c : ResultCode) (s : State) : (complete c s).regs = s.regs := rfl
@[simp] theorem complete_ctx (c : ResultCode) (s : State) : (complete c s).ctx = .idle := rfl
@[simp] theorem complete_ram (c : ResultCode) (s : State) : (complete c s).ram = s.ram := rfl
@[simp] theorem complete_history (c : ResultCode) (s : State) :
    (complete c s).history = s.history ++ [.done c s.regs.now] := rfl
@[simp] theorem complete_oracle (c : ResultCode) (s : State) : (complete c s).oracle = s.oracle := rfl
@[simp] theorem complete_agenda (c : ResultCode) (s : State) : (complete c s).agenda = s.agenda := rfl
@[simp] theorem complete_response (c : ResultCode) (s : State) : (complete c s).response = s.response := rfl

/-! ### accept -/

@[simp] theorem accept_cfg (w : Word) (s : State) : (accept w s).cfg = s.cfg := rfl
@[simp] theorem accept_status (w : Word) (s : State) : (accept w s).status = s.status.accepted := rfl
@[simp] theorem accept_regs (w : Word) (s : State) :
    (accept w s).regs = { s.regs with res0 := 0#32, res1 := 0#32 } := rfl
@[simp] theorem accept_ctx (w : Word) (s : State) : (accept w s).ctx = ⟨w, s.regs.arg0, s.regs.arg1, [], none⟩ := rfl
@[simp] theorem accept_ram (w : Word) (s : State) : (accept w s).ram = s.ram := rfl
@[simp] theorem accept_history (w : Word) (s : State) :
    (accept w s).history = s.history ++ [.cmd w s.regs.arg0 s.regs.arg1 s.regs.now] := rfl
@[simp] theorem accept_oracle (w : Word) (s : State) : (accept w s).oracle = s.oracle := rfl
@[simp] theorem accept_agenda (w : Word) (s : State) : (accept w s).agenda = s.agenda := rfl
@[simp] theorem accept_response (w : Word) (s : State) : (accept w s).response = s.response := rfl

/-! ### blockReset -/

@[simp] theorem blockReset_cfg (s : State) : (blockReset s).cfg = s.cfg := rfl
@[simp] theorem blockReset_status (s : State) : (blockReset s).status = .reset := rfl
@[simp] theorem blockReset_regs (s : State) : (blockReset s).regs = .reset := rfl
@[simp] theorem blockReset_ctx (s : State) : (blockReset s).ctx = .idle := rfl
@[simp] theorem blockReset_ram (s : State) : (blockReset s).ram = [] := rfl
@[simp] theorem blockReset_history (s : State) : (blockReset s).history = [] := rfl
@[simp] theorem blockReset_oracle (s : State) : (blockReset s).oracle = s.oracle := rfl
@[simp] theorem blockReset_agenda (s : State) : (blockReset s).agenda = s.agenda := rfl
@[simp] theorem blockReset_response (s : State) : (blockReset s).response = s.response := rfl

/-! ### memRead -/

@[simp] theorem memRead_cfg (off n : Nat) (s : State) : (memRead off n s).2.cfg = s.cfg := rfl
@[simp] theorem memRead_status (off n : Nat) (s : State) : (memRead off n s).2.status = s.status := rfl
@[simp] theorem memRead_regs (off n : Nat) (s : State) : (memRead off n s).2.regs = s.regs := rfl
@[simp] theorem memRead_ctx (off n : Nat) (s : State) : (memRead off n s).2.ctx = s.ctx := rfl
@[simp] theorem memRead_ram (off n : Nat) (s : State) : (memRead off n s).2.ram = s.ram := rfl
@[simp] theorem memRead_history (off n : Nat) (s : State) : (memRead off n s).2.history = s.history := rfl
@[simp] theorem memRead_oracle (off n : Nat) (s : State) :
    (memRead off n s).2.oracle = (readBytes s.ram off n s.oracle).2 := rfl
@[simp] theorem memRead_agenda (off n : Nat) (s : State) : (memRead off n s).2.agenda = s.agenda := rfl
@[simp] theorem memRead_response (off n : Nat) (s : State) : (memRead off n s).2.response = s.response := rfl

/-! ### doXfer -/

@[simp] theorem doXfer_cfg (hd : Byte) (tl : List Byte) (s : State) : (doXfer hd tl s).2.cfg = s.cfg := rfl
@[simp] theorem doXfer_status (hd : Byte) (tl : List Byte) (s : State) :
    (doXfer hd tl s).2.status = chipStatus (doXfer hd tl s).1.1 s.status := rfl
@[simp] theorem doXfer_regs (hd : Byte) (tl : List Byte) (s : State) : (doXfer hd tl s).2.regs = s.regs := rfl
@[simp] theorem doXfer_ctx (hd : Byte) (tl : List Byte) (s : State) : (doXfer hd tl s).2.ctx = s.ctx := rfl
@[simp] theorem doXfer_ram (hd : Byte) (tl : List Byte) (s : State) : (doXfer hd tl s).2.ram = s.ram := rfl
@[simp] theorem doXfer_history (hd : Byte) (tl : List Byte) (s : State) :
    (doXfer hd tl s).2.history = s.history ++ [.xfer (hd :: tl) ((doXfer hd tl s).1.1 :: (doXfer hd tl s).1.2.1) s.regs.now] := rfl
@[simp] theorem doXfer_oracle (hd : Byte) (tl : List Byte) (s : State) :
    (doXfer hd tl s).2.oracle = (drawExchange tl.length s.oracle).2 := rfl
@[simp] theorem doXfer_agenda (hd : Byte) (tl : List Byte) (s : State) : (doXfer hd tl s).2.agenda = s.agenda := rfl
@[simp] theorem doXfer_response (hd : Byte) (tl : List Byte) (s : State) :
    (doXfer hd tl s).2.response = s.response := rfl

/-! ### doGdo -/

@[simp] theorem doGdo_cfg (s : State) : (doGdo s).2.cfg = s.cfg := rfl
@[simp] theorem doGdo_status (s : State) : (doGdo s).2.status = s.status := rfl
@[simp] theorem doGdo_regs (s : State) : (doGdo s).2.regs = s.regs := rfl
@[simp] theorem doGdo_ctx (s : State) : (doGdo s).2.ctx = s.ctx := rfl
@[simp] theorem doGdo_ram (s : State) : (doGdo s).2.ram = s.ram := rfl
@[simp] theorem doGdo_history (s : State) : (doGdo s).2.history = s.history := rfl
@[simp] theorem doGdo_oracle (s : State) : (doGdo s).2.oracle = (drawGdo s.oracle).2 := rfl
@[simp] theorem doGdo_agenda (s : State) : (doGdo s).2.agenda = s.agenda := rfl
@[simp] theorem doGdo_response (s : State) : (doGdo s).2.response = s.response := rfl

/-! ### doLoad -/

@[simp] theorem doLoad_cfg (s : State) : (doLoad s).2.cfg = s.cfg := rfl
@[simp] theorem doLoad_status (s : State) : (doLoad s).2.status = s.status := rfl
@[simp] theorem doLoad_regs (s : State) : (doLoad s).2.regs = s.regs := rfl
@[simp] theorem doLoad_ctx (s : State) : (doLoad s).2.ctx = s.ctx := rfl
@[simp] theorem doLoad_ram (s : State) : (doLoad s).2.ram = s.ram := rfl
@[simp] theorem doLoad_history (s : State) : (doLoad s).2.history = s.history := rfl
@[simp] theorem doLoad_oracle (s : State) : (doLoad s).2.oracle = (drawLoad s.oracle).2 := rfl
@[simp] theorem doLoad_agenda (s : State) : (doLoad s).2.agenda = s.agenda := rfl
@[simp] theorem doLoad_response (s : State) : (doLoad s).2.response = s.response := rfl

/-! ### recordAnswer -/

@[simp] theorem recordAnswer_cfg (a : Answer) (s : State) : (recordAnswer a s).cfg = s.cfg := rfl
@[simp] theorem recordAnswer_status (a : Answer) (s : State) : (recordAnswer a s).status = s.status := rfl
@[simp] theorem recordAnswer_regs (a : Answer) (s : State) : (recordAnswer a s).regs = s.regs := rfl
@[simp] theorem recordAnswer_ctx (a : Answer) (s : State) :
    (recordAnswer a s).ctx = { s.ctx with answers := s.ctx.answers ++ [a], delayLeft := none } := rfl
@[simp] theorem recordAnswer_ram (a : Answer) (s : State) : (recordAnswer a s).ram = s.ram := rfl
@[simp] theorem recordAnswer_history (a : Answer) (s : State) : (recordAnswer a s).history = s.history := rfl
@[simp] theorem recordAnswer_oracle (a : Answer) (s : State) : (recordAnswer a s).oracle = s.oracle := rfl
@[simp] theorem recordAnswer_agenda (a : Answer) (s : State) : (recordAnswer a s).agenda = s.agenda := rfl
@[simp] theorem recordAnswer_response (a : Answer) (s : State) : (recordAnswer a s).response = s.response := rfl

/-! ### respond -/

@[simp] theorem respond_cfg (r : Response) (s : State) : (respond r s).cfg = s.cfg := rfl
@[simp] theorem respond_status (r : Response) (s : State) : (respond r s).status = s.status := rfl
@[simp] theorem respond_regs (r : Response) (s : State) : (respond r s).regs = s.regs := rfl
@[simp] theorem respond_ctx (r : Response) (s : State) : (respond r s).ctx = s.ctx := rfl
@[simp] theorem respond_ram (r : Response) (s : State) : (respond r s).ram = s.ram := rfl
@[simp] theorem respond_history (r : Response) (s : State) : (respond r s).history = s.history := rfl
@[simp] theorem respond_oracle (r : Response) (s : State) : (respond r s).oracle = s.oracle := rfl
@[simp] theorem respond_agenda (r : Response) (s : State) : (respond r s).agenda = s.agenda := rfl
@[simp] theorem respond_response (r : Response) (s : State) : (respond r s).response = r := rfl

/-! ### elapse: NOW alone -/

@[simp] theorem elapse_now (n : Nat) (s : State) : (elapse n s).regs.now = s.regs.now + BitVec.ofNat 32 n := rfl
@[simp] theorem elapse_ie (n : Nat) (s : State) : (elapse n s).regs.ie = s.regs.ie := rfl
@[simp] theorem elapse_arg0 (n : Nat) (s : State) : (elapse n s).regs.arg0 = s.regs.arg0 := rfl
@[simp] theorem elapse_arg1 (n : Nat) (s : State) : (elapse n s).regs.arg1 = s.regs.arg1 := rfl
@[simp] theorem elapse_res0 (n : Nat) (s : State) : (elapse n s).regs.res0 = s.regs.res0 := rfl
@[simp] theorem elapse_res1 (n : Nat) (s : State) : (elapse n s).regs.res1 = s.regs.res1 := rfl
@[simp] theorem elapse_freqMhz (n : Nat) (s : State) : (elapse n s).regs.freqMhz = s.regs.freqMhz := rfl
@[simp] theorem elapse_freqWord (n : Nat) (s : State) : (elapse n s).regs.freqWord = s.regs.freqWord := rfl
@[simp] theorem elapse_meterId (n : Nat) (s : State) : (elapse n s).regs.meterId = s.regs.meterId := rfl
@[simp] theorem elapse_rdIndex (n : Nat) (s : State) : (elapse n s).regs.rdIndex = s.regs.rdIndex := rfl
@[simp] theorem elapse_rdMisc (n : Nat) (s : State) : (elapse n s).regs.rdMisc = s.regs.rdMisc := rfl
@[simp] theorem elapse_cand (n : Nat) (s : State) : (elapse n s).regs.cand = s.regs.cand := rfl

/-! ### STATUS -/

@[simp] theorem chipStatus_busy (st : Byte) (t : Status) : (chipStatus st t).busy = t.busy := rfl
@[simp] theorem chipStatus_done (st : Byte) (t : Status) : (chipStatus st t).done = t.done := rfl
@[simp] theorem chipStatus_rej (st : Byte) (t : Status) : (chipStatus st t).rej = t.rej := rfl
@[simp] theorem chipStatus_result (st : Byte) (t : Status) : (chipStatus st t).result = t.result := rfl
@[simp] theorem chipStatus_csState (st : Byte) (t : Status) : (chipStatus st t).csState = st.extractLsb' 4 3 := rfl
@[simp] theorem chipStatus_csValid (st : Byte) (t : Status) : (chipStatus st t).csValid = true := rfl
@[simp] theorem chipStatus_csFifo (st : Byte) (t : Status) : (chipStatus st t).csFifo = st.extractLsb' 0 4 := rfl
@[simp] theorem chipStatus_att (st : Byte) (t : Status) : (chipStatus st t).att = t.att := rfl
@[simp] theorem chipStatus_disc (st : Byte) (t : Status) : (chipStatus st t).disc = t.disc := rfl

@[simp] theorem completed_busy (c : ResultCode) (t : Status) : (t.completed c).busy = false := rfl
@[simp] theorem completed_done (c : ResultCode) (t : Status) : (t.completed c).done = true := rfl
@[simp] theorem completed_rej (c : ResultCode) (t : Status) : (t.completed c).rej = t.rej := rfl
@[simp] theorem completed_result (c : ResultCode) (t : Status) : (t.completed c).result = c := rfl
@[simp] theorem completed_csState (c : ResultCode) (t : Status) : (t.completed c).csState = t.csState := rfl
@[simp] theorem completed_csValid (c : ResultCode) (t : Status) : (t.completed c).csValid = t.csValid := rfl
@[simp] theorem completed_csFifo (c : ResultCode) (t : Status) : (t.completed c).csFifo = t.csFifo := rfl
@[simp] theorem completed_att (c : ResultCode) (t : Status) : (t.completed c).att = t.att := rfl
@[simp] theorem completed_disc (c : ResultCode) (t : Status) : (t.completed c).disc = t.disc := rfl

@[simp] theorem accepted_busy (t : Status) : (t.accepted).busy = true := rfl
@[simp] theorem accepted_done (t : Status) : (t.accepted).done = false := rfl
@[simp] theorem accepted_rej (t : Status) : (t.accepted).rej = t.rej := rfl
@[simp] theorem accepted_result (t : Status) : (t.accepted).result = .ok := rfl
@[simp] theorem accepted_csState (t : Status) : (t.accepted).csState = t.csState := rfl
@[simp] theorem accepted_csValid (t : Status) : (t.accepted).csValid = t.csValid := rfl
@[simp] theorem accepted_csFifo (t : Status) : (t.accepted).csFifo = t.csFifo := rfl
@[simp] theorem accepted_att (t : Status) : (t.accepted).att = t.att := rfl
@[simp] theorem accepted_disc (t : Status) : (t.accepted).disc = t.disc := rfl

@[simp] theorem rejected_busy (t : Status) : (t.rejected).busy = t.busy := rfl
@[simp] theorem rejected_done (t : Status) : (t.rejected).done = t.done := rfl
@[simp] theorem rejected_rej (t : Status) : (t.rejected).rej = true := rfl
@[simp] theorem rejected_result (t : Status) : (t.rejected).result = t.result := rfl
@[simp] theorem rejected_csState (t : Status) : (t.rejected).csState = t.csState := rfl
@[simp] theorem rejected_csValid (t : Status) : (t.rejected).csValid = t.csValid := rfl
@[simp] theorem rejected_csFifo (t : Status) : (t.rejected).csFifo = t.csFifo := rfl
@[simp] theorem rejected_att (t : Status) : (t.rejected).att = t.att := rfl
@[simp] theorem rejected_disc (t : Status) : (t.rejected).disc = t.disc := rfl

/-! ### writeDst: registers and two status fields -/

@[simp] theorem writeDst_cfg (d : Dst) (s : State) : (writeDst d s).cfg = s.cfg := by cases d <;> rfl
@[simp] theorem writeDst_ctx (d : Dst) (s : State) : (writeDst d s).ctx = s.ctx := by cases d <;> rfl
@[simp] theorem writeDst_ram (d : Dst) (s : State) : (writeDst d s).ram = s.ram := by cases d <;> rfl
@[simp] theorem writeDst_history (d : Dst) (s : State) : (writeDst d s).history = s.history := by cases d <;> rfl
@[simp] theorem writeDst_oracle (d : Dst) (s : State) : (writeDst d s).oracle = s.oracle := by cases d <;> rfl
@[simp] theorem writeDst_agenda (d : Dst) (s : State) : (writeDst d s).agenda = s.agenda := by cases d <;> rfl
@[simp] theorem writeDst_response (d : Dst) (s : State) : (writeDst d s).response = s.response := by cases d <;> rfl
@[simp] theorem writeDst_now (d : Dst) (s : State) : (writeDst d s).regs.now = s.regs.now := by cases d <;> rfl
@[simp] theorem writeDst_ie (d : Dst) (s : State) : (writeDst d s).regs.ie = s.regs.ie := by cases d <;> rfl
@[simp] theorem writeDst_arg0 (d : Dst) (s : State) : (writeDst d s).regs.arg0 = s.regs.arg0 := by cases d <;> rfl
@[simp] theorem writeDst_arg1 (d : Dst) (s : State) : (writeDst d s).regs.arg1 = s.regs.arg1 := by cases d <;> rfl
@[simp] theorem writeDst_meterId (d : Dst) (s : State) : (writeDst d s).regs.meterId = s.regs.meterId := by cases d <;> rfl
@[simp] theorem writeDst_busy (d : Dst) (s : State) : (writeDst d s).status.busy = s.status.busy := by cases d <;> rfl
@[simp] theorem writeDst_done (d : Dst) (s : State) : (writeDst d s).status.done = s.status.done := by cases d <;> rfl
@[simp] theorem writeDst_rej (d : Dst) (s : State) : (writeDst d s).status.rej = s.status.rej := by cases d <;> rfl
@[simp] theorem writeDst_result (d : Dst) (s : State) : (writeDst d s).status.result = s.status.result := by cases d <;> rfl
@[simp] theorem writeDst_csState (d : Dst) (s : State) : (writeDst d s).status.csState = s.status.csState := by cases d <;> rfl
@[simp] theorem writeDst_csValid (d : Dst) (s : State) : (writeDst d s).status.csValid = s.status.csValid := by cases d <;> rfl
@[simp] theorem writeDst_csFifo (d : Dst) (s : State) : (writeDst d s).status.csFifo = s.status.csFifo := by cases d <;> rfl

end Sys2Proof.Machine
end

