-- ==== Sys2Proof/Laws/Memory.lean ====
section
/-! SUPPORT. The laws of the buffer RAM: read after write, what a write leaves alone, and that every operation keeps the
canonical form (spec/20_memory.md R80 to R82). -/

namespace Sys2Proof.Machine

theorem byte_set (m : Memory) (a x : Nat) (b : Byte) :
    (m.set a b).byte x = if x = a then some b else m.byte x := by
  induction m with
  | nil => simp [Memory.set, Memory.byte, eq_comm]
  | cons e rest ih =>
    obtain ⟨k, c⟩ := e
    unfold Memory.set
    split
    · by_cases h : x = a
      · simp [Memory.byte, h]
      · have h' : a ≠ x := Ne.symm h
        simp [Memory.byte, h, h']
    · split
      · rename_i _ hak
        subst hak
        by_cases h : x = a
        · simp [Memory.byte, h]
        · have h' : a ≠ x := Ne.symm h
          simp [Memory.byte, h, h']
      · rename_i _ hak
        simp only [Memory.byte, ih]
        by_cases h : k = x
        · have : x ≠ a := fun hx => hak (hx ▸ h.symm)
          simp [h, this]
        · simp [h]

/-- The byte at `x` after a write of `bytes` from `off`: the byte written there, else the byte before. -/
theorem byte_write (m : Memory) (off : Nat) (bytes : List Byte) (x : Nat) :
    (m.write off bytes).byte x = if h : off ≤ x ∧ x < off + bytes.length then some (bytes[x - off]) else m.byte x := by
  induction bytes generalizing m off with
  | nil =>
    have : ¬ (off ≤ x ∧ x < off + ([] : List Byte).length) := by simp
    simp only [this, dite_false, Memory.write]
  | cons b rest ih =>
    simp only [Memory.write, ih, List.length_cons]
    by_cases h1 : off + 1 ≤ x ∧ x < off + 1 + rest.length
    · have h2 : off ≤ x ∧ x < off + (rest.length + 1) := by omega
      have h3 : x - off = (x - (off + 1)) + 1 := by omega
      simp only [h1, h2, and_self, dite_true]
      simp [h3]
    · simp only [h1, dite_false, byte_set]
      by_cases h4 : x = off
      · subst h4; simp
      · have h2 : ¬ (off ≤ x ∧ x < off + (rest.length + 1)) := by omega
        simp only [h4, h2, if_false, dite_false]

theorem byte_write_outside (m : Memory) (off : Nat) (bytes : List Byte) (x : Nat)
    (h : x < off ∨ off + bytes.length ≤ x) : (m.write off bytes).byte x = m.byte x := by
  have : ¬ (off ≤ x ∧ x < off + bytes.length) := by omega
  simp [byte_write, this]

theorem byte_write_inside (m : Memory) (off : Nat) (bytes : List Byte) (k : Nat) (h : k < bytes.length) :
    (m.write off bytes).byte (off + k) = some bytes[k] := by
  have : off ≤ off + k ∧ off + k < off + bytes.length := by omega
  simp [byte_write, this]

/-! ### The canonical form -/

theorem wfFrom_mono {lo lo' : Nat} (h : lo' ≤ lo) {m : Memory} (hm : m.wfFrom lo = true) : m.wfFrom lo' = true := by
  cases m with
  | nil => rfl
  | cons e rest =>
    simp only [Memory.wfFrom, Bool.and_eq_true, decide_eq_true_eq] at *
    exact ⟨⟨by omega, hm.1.2⟩, hm.2⟩

theorem wfFrom_set {lo : Nat} {m : Memory} (hm : m.wfFrom lo = true) {a : Nat} (ha : lo ≤ a) (h : a < ramSize) (b : Byte) :
    (m.set a b).wfFrom lo = true := by
  induction m generalizing lo with
  | nil => simp [Memory.set, Memory.wfFrom, ha, h]
  | cons e rest ih =>
    obtain ⟨k, c⟩ := e
    simp only [Memory.wfFrom, Bool.and_eq_true, decide_eq_true_eq] at hm
    unfold Memory.set
    split
    · rename_i hak
      simp only [Memory.wfFrom, Bool.and_eq_true, decide_eq_true_eq]
      exact ⟨⟨ha, h⟩, ⟨by omega, hm.1.2⟩, hm.2⟩
    · split
      · rename_i _ hak
        subst hak
        simp only [Memory.wfFrom, Bool.and_eq_true, decide_eq_true_eq]
        exact ⟨⟨ha, h⟩, hm.2⟩
      · simp only [Memory.wfFrom, Bool.and_eq_true, decide_eq_true_eq]
        exact ⟨hm.1, ih hm.2 (by omega)⟩

/-- A write that lies inside the RAM keeps the canonical form. -/
theorem wf_write {m : Memory} (hm : m.wf = true) (off : Nat) (bytes : List Byte) (h : off + bytes.length ≤ ramSize) :
    (m.write off bytes).wf = true := by
  induction bytes generalizing m off with
  | nil => exact hm
  | cons b rest ih =>
    simp only [List.length_cons] at h
    exact ih (wfFrom_set hm (Nat.zero_le _) (by omega) b) (off + 1) (by omega)

/-- The empty RAM of reset is canonical. -/
theorem wf_nil : Memory.wf [] = true := rfl

/-! ### Reads -/

/-- A byte that has been written is read as it is, with no free draw. -/
theorem readByte_some {m : Memory} {a : Nat} {b : Byte} (h : m.byte a = some b) (o : Oracle) : readByte m a o = (b, o) := by
  simp [readByte, h]

/-- A range whose bytes have all been written is read as it stands, with no free draw. -/
theorem readBytes_written {m : Memory} (off : Nat) (bytes : List Byte)
    (h : ∀ k (hk : k < bytes.length), m.byte (off + k) = some bytes[k]) (o : Oracle) :
    (readBytes m off bytes.length o).1.1 = bytes ∧ (readBytes m off bytes.length o).2 = o := by
  induction bytes generalizing off with
  | nil => exact ⟨rfl, rfl⟩
  | cons b rest ih =>
    have h0 : m.byte off = some b := h 0 (Nat.succ_pos _)
    have hr := ih (off + 1) fun k hk => by
      have := h (k + 1) (by simpa using hk)
      rw [show off + 1 + k = off + (k + 1) by omega]
      simpa using this
    simp only [List.length_cons, readBytes, readByte_some h0]
    exact ⟨by rw [hr.1], hr.2⟩

end Sys2Proof.Machine
end

