-- ==== Sys2Proof/Laws/Run.lean ====
section
/-! SUPPORT. What one primitive can change, what a whole program therefore leaves alone, and `exec` as the run of the
instruction's program. -/

namespace Sys2Proof.Machine

/-- Every instruction's meaning is its program carried out from the present position. -/
theorem exec_eq (i : Instr) (s : State) : exec i s = runCommand (program s.cfg s.ctx.a0 s.ctx.a1 i) s := by
  cases i <;> rfl

/-- From its first line, every instruction runs its program to the end and completes. -/
theorem exec_atStart (i : Instr) (s : State) (h : AtStart s) :
    exec i s = .next (finish (program s.cfg s.ctx.a0 s.ctx.a1 i) s) := by
  rw [exec_eq, runCommand_atStart _ _ h.1 h.2]

/-- A range that passes the end of the RAM (R116). -/
theorem pastRam_true {c : Cfg} {off n : Nat} (h : c.ramSize < off + n) : pastRam c off n = true := decide_eq_true h

/-- A range inside the RAM (R116). -/
theorem pastRam_false {c : Cfg} {off n : Nat} (h : off + n ≤ c.ramSize) : pastRam c off n = false :=
  decide_eq_false (Nat.not_lt.mpr h)

/-- A relation that every primitive of a program respects, the program respects. -/
theorem Prog.run_rel {α : Type} {R : State → State → Prop} {P : Prim → Prop} (hrefl : ∀ s, R s s)
    (htrans : ∀ {s t u}, R s t → R t u → R s u) (h : ∀ p s, P p → R s (runPrim p s).2) {m : Prog α} (hm : m.All P)
    (s : State) : R s (m.run s).2 := by
  induction m generalizing s with
  | pure a => exact hrefl s
  | op p k ih => exact htrans (h p s hm.1) (ih _ (hm.2 _) _)

/-- What no primitive changes: the host's own registers, the lifecycle flags, the context, CFG and the environment's
moves; and the history only grows, by events that are neither acceptances nor completions. -/
structure Inside (s t : State) : Prop where
  cfg : t.cfg = s.cfg
  ctx : t.ctx = s.ctx
  agenda : t.agenda = s.agenda
  response : t.response = s.response
  busy : t.status.busy = s.status.busy
  done : t.status.done = s.status.done
  rej : t.status.rej = s.status.rej
  result : t.status.result = s.status.result
  ie : t.regs.ie = s.regs.ie
  arg0 : t.regs.arg0 = s.regs.arg0
  arg1 : t.regs.arg1 = s.regs.arg1
  meterId : t.regs.meterId = s.regs.meterId
  history : ∃ events, t.history = s.history ++ events ∧ commandEventsOf events = []

theorem Inside.refl (s : State) : Inside s s :=
  ⟨rfl, rfl, rfl, rfl, rfl, rfl, rfl, rfl, rfl, rfl, rfl, rfl, [], by simp, rfl⟩

theorem Inside.trans {s t u : State} (h : Inside s t) (g : Inside t u) : Inside s u := by
  obtain ⟨e, he, hc⟩ := h.history
  obtain ⟨f, hf, hd⟩ := g.history
  exact ⟨g.cfg.trans h.cfg, g.ctx.trans h.ctx, g.agenda.trans h.agenda, g.response.trans h.response, g.busy.trans h.busy,
    g.done.trans h.done, g.rej.trans h.rej, g.result.trans h.result, g.ie.trans h.ie, g.arg0.trans h.arg0,
    g.arg1.trans h.arg1, g.meterId.trans h.meterId, e ++ f, by rw [hf, he, List.append_assoc],
    by simp only [commandEventsOf, List.filter_append] at *; rw [hc, hd]; rfl⟩

theorem inside_runPrim (p : Prim) (s : State) : Inside s (runPrim p s).2 := by
  cases p with
  | write d => cases d <;> exact ⟨rfl, rfl, rfl, rfl, rfl, rfl, rfl, rfl, rfl, rfl, rfl, rfl, [], by simp [runPrim, writeDst], rfl⟩
  | note e => cases e <;> exact ⟨rfl, rfl, rfl, rfl, rfl, rfl, rfl, rfl, rfl, rfl, rfl, rfl, _, rfl, rfl⟩
  | xfer hd tl => exact ⟨rfl, rfl, rfl, rfl, rfl, rfl, rfl, rfl, rfl, rfl, rfl, rfl, _, rfl, rfl⟩
  | _ => exact ⟨rfl, rfl, rfl, rfl, rfl, rfl, rfl, rfl, rfl, rfl, rfl, rfl, [], by simp [runPrim], rfl⟩

theorem Prog.inside {α : Type} (m : Prog α) (s : State) : Inside s (m.run s).2 :=
  Prog.run_rel (P := fun _ => True) Inside.refl Inside.trans (fun p s _ => inside_runPrim p s) (Prog.all_true m) s

/-- The answers a program records do not matter to it: replacing the context of the state changes nothing else. -/
theorem runPrim_ctx (p : Prim) (s : State) (x : Ctx) :
    runPrim p { s with ctx := x } = ((runPrim p s).1, { (runPrim p s).2 with ctx := x }) := by
  cases p with
  | write d => cases d <;> rfl
  | read r => cases r <;> rfl
  | _ => rfl

theorem Prog.run_ctx {α : Type} (m : Prog α) (s : State) (x : Ctx) :
    m.run { s with ctx := x } = ((m.run s).1, { (m.run s).2 with ctx := x }) := by
  induction m generalizing s with
  | pure a => rfl
  | op p k ih => simp only [Prog.run_op, runPrim_ctx, ih]

theorem finish_ctx (m : Prog ResultCode) (s : State) (x : Ctx) : finish m { s with ctx := x } = finish m s := by
  simp only [finish, Prog.run_ctx]
  rfl

theorem finish_recordAnswer (m : Prog ResultCode) (a : Answer) (s : State) :
    finish m (recordAnswer a s) = finish m s := finish_ctx m s _

/-- Where `exec` answers a next state, it has run a program to its end, after the rest of a pending `Delay` if there was one. -/
theorem exec_cases (i : Instr) (s t : State) (h : exec i s = .next t) :
    ∃ (m : Prog ResultCode) (u : State), (u = s ∨ ∃ n, u = elapse n s) ∧ t = finish m u := by
  rw [exec_eq] at h
  unfold runCommand at h
  split at h
  · cases h
  · split at h
    · cases h; exact ⟨_, _, .inl rfl, rfl⟩
    · split at h
      · cases h; exact ⟨_, _, .inr ⟨_, rfl⟩, rfl⟩
      · cases h

/-- A property kept by every primitive, by the passing of time, by completion, by a host access and by block reset, and
blind to the agenda and the context, is kept by every step. -/
theorem step_keeps {I : State → Prop} (hag : ∀ (s : State) a, I s → I { s with agenda := a })
  (hprim : ∀ p s, I s → I (runPrim p s).2) (helapse : ∀ n s, I s → I (elapse n s)) (hcomp : ∀ c s, I s → I (complete c s))
  (hctx : ∀ (s : State) c, I s → I { s with ctx := c }) (hhost : ∀ a s, I s → I (hostAccess a s)) (hreset : ∀ s, I s → I (blockReset s))
  : ∀ s t, I s → step s = .next t → I t := by
  have hfin : ∀ (m : Prog ResultCode) s, I s → I (finish m s) := fun m s hs =>
    hcomp _ _ (Prog.run_keeps (P := fun _ => True) (fun p s _ h => hprim p s h) (Prog.all_true m) hs)
  have hexec : ∀ i s t, I s → exec i s = .next t → I t := by
    intro i s t hs h
    obtain ⟨m, u, hu, rfl⟩ := exec_cases i s t h
    rcases hu with rfl | ⟨n, rfl⟩
    · exact hfin _ _ hs
    · exact hfin _ _ (helapse _ _ hs)
  have hrun : ∀ s t, I s → runMove s = .next t → I t := by
    intro s t hs h
    unfold runMove at h
    split at h
    · split at h
      · exact hexec _ _ _ hs h
      · cases h; exact hcomp _ _ hs
    · cases h; exact hs
  have htick : ∀ s, I s → I (tickStep s) := by
    intro s hs
    unfold tickStep
    split
    · split
      · exact hs
      · split
        · exact hctx _ _ (helapse _ _ hs)
        · exact hctx _ _ (helapse _ _ hs)
    · exact helapse _ _ hs
  intro s t hs h
  unfold step at h
  split at h
  case isFalse => cases h
  split at h
  · rename_i m r _
    have hs' := hag s r hs
    generalize { s with agenda := r } = s' at *
    cases m with
    | host a => cases h; exact hhost _ _ hs'
    | seq =>
      simp only [moveStep] at h
      unfold seqMove at h
      split at h
      · split at h
        · unfold seqStep at h
          split at h
          · cases h; exact hs'
          · split at h
            · cases h
            · cases h; exact hcomp _ _ hs'
            · split at h
              · cases h; exact hctx _ _ hs'
              · cases h; exact hctx _ _ hs'
            · cases h; exact hctx _ _ (hprim _ _ hs')
        · cases h; exact hcomp _ _ hs'
      · cases h; exact hs'
    | tick => cases h; exact htick _ hs'
    | run => exact hrun _ _ hs' h
    | reset => cases h; exact hreset _ hs'
  · split at h
    · exact hrun _ _ hs h
    · cases h; exact htick _ hs

end Sys2Proof.Machine
end

