-- ==== Sys2Proof/Laws/Radio.lean ====
section
/-! SUPPORT. What the core operations of the radio interface do when carried out: the exchange shapes, the polling loops
with their exact times, the drain loop, and the register tables (spec/40_radio_interface.md R141 to R159). -/

namespace Sys2Proof.Machine

/-! ### Exchange shapes -/

@[simp] theorem run_xw (c : Cfg) (a : ChipAddr) (b : Bool) (v : Byte) (s : State) :
    (xw c a b v).run s = ((), (doXfer (hdr c false b a) [v] s).2) := rfl

@[simp] theorem run_xbw (c : Cfg) (a : ChipAddr) (bytes : List Byte) (s : State) :
    (xbw c a bytes).run s = ((), (doXfer (hdr c false true a) bytes s).2) := rfl

@[simp] theorem run_xbr (c : Cfg) (a : ChipAddr) (n : Nat) (s : State) :
    (xbr c a n).run s = ((doXfer (hdr c true true a) (List.replicate n 0x00#8) s).1.2.1,
      (doXfer (hdr c true true a) (List.replicate n 0x00#8) s).2) := rfl

@[simp] theorem run_xs (c : Cfg) (code : ChipAddr) (s : State) :
    (xs c code).run s = ((), (doXfer (hdr c false false code) [] s).2) := rfl

theorem run_xr_snd (c : Cfg) (a : ChipAddr) (b : Bool) (s : State) :
    ((xr c a b).run s).2 = (doXfer (hdr c true b a) [0x00#8] s).2 := rfl

theorem singleton_of_length {l : List Byte} (h : l.length = 1) :
    [l.head (List.ne_nil_of_length_eq_add_one h)] = l := by
  match l, h with
  | [x], _ => rfl

/-- The byte a single read answers is the second byte of the exchange. -/
theorem run_xr_fst (c : Cfg) (a : ChipAddr) (b : Bool) (s : State) :
    (doXfer (hdr c true b a) [0x00#8] s).1.2.1 = [((xr c a b).run s).1] := by
  have h := (doXfer (hdr c true b a) [0x00#8] s).1.2.2
  exact (singleton_of_length h).symm

/-- The header of a write or a strobe is the address alone, wherever the read and burst bits stand (R142). -/
theorem hdr_strobe (c : Cfg) (a : ChipAddr) : hdr c false false a = 0#2 ++ a := by
  have h : ∀ n, (0#8) <<< n = 0#8 := fun n => BitVec.zero_shiftLeft n
  show (0#8 <<< _ ||| 0#8 <<< _ ||| a.setWidth 8) = _
  rw [h, h]
  revert a; decide +kernel

/-- The header byte with the read bit at 7 and the burst bit at 6, as R12 gives them (R142). -/
theorem hdr_eq {c : Cfg} (h7 : c.hdrReadBit = 7) (h6 : c.hdrBurstBit = 6) (r b : Bool) (a : ChipAddr) :
    hdr c r b a = BitVec.ofBool r ++ BitVec.ofBool b ++ a := by
  have : ∀ (r b : Bool) (a : ChipAddr), ((BitVec.ofBool r).zeroExtend 8 <<< 7 ||| (BitVec.ofBool b).zeroExtend 8 <<< 6 |||
      a.zeroExtend 8) = BitVec.ofBool r ++ BitVec.ofBool b ++ a := by decide +kernel
  rw [hdr, h7, h6]; exact this r b a

/-! ### Time -/

theorem elapse_zero (s : State) : elapse 0 s = s := by simp [elapse]

theorem elapse_elapse (m n : Nat) (s : State) : elapse m (elapse n s) = elapse (n + m) s := by
  simp only [elapse, BitVec.ofNat_add, BitVec.add_assoc]

/-- Elapsed time between two readings of NOW, below 2^32 (R41). -/
theorem elapsed_toNat (t0 : Word) (e : Nat) (h : e < 2 ^ 32) : (t0 + BitVec.ofNat 32 e - t0).toNat = e := by
  rw [BitVec.add_comm, BitVec.add_sub_cancel, BitVec.toNat_ofNat, Nat.mod_eq_of_lt h]

theorem elapsed_eq (t0 : Word) (e : Nat) : t0 + BitVec.ofNat 32 e - t0 = BitVec.ofNat 32 e := by
  rw [BitVec.add_comm, BitVec.add_sub_cancel]

/-! ### Polling (R144) -/

/-- `PollUntil` by its invariant: `J e s` holds of the state before the evaluation at elapsed time `e`. It starts at 0; an
evaluation that fails before the budget moves on to the next poll time, the last being exactly `t`. The loop ends at an
evaluation that succeeds, or at elapsed exactly `t`. -/
theorem run_pollUntil (pred : Prog Bool) (i t : Nat) (hi : 1 ≤ i) (ht : t < 2 ^ 32) (J : Nat → State → Prop) (s : State)
    (h0 : J 0 s) (hnow : ∀ u, (pred.run u).2.regs.now = u.regs.now)
    (hstep : ∀ e u, J e u → e < t → (pred.run u).1 = false → J (min (e + i) t) (elapse (min i (t - e)) (pred.run u).2)) :
    ∃ e u, e ≤ t ∧ J e u ∧ u.regs.now = s.regs.now + BitVec.ofNat 32 e ∧
      (pollUntil pred i t).run s = (((pred.run u).1, BitVec.ofNat 32 e), (pred.run u).2) ∧
      ((pred.run u).1 = false → e = t) := by
  have loop : ∀ fuel e u, t - e < fuel → e ≤ t → J e u → u.regs.now = s.regs.now + BitVec.ofNat 32 e →
      ∃ e' u', e' ≤ t ∧ J e' u' ∧ u'.regs.now = s.regs.now + BitVec.ofNat 32 e' ∧
        (pollLoop pred i t s.regs.now fuel).run u = (((pred.run u').1, BitVec.ofNat 32 e'), (pred.run u').2) ∧
        ((pred.run u').1 = false → e' = t) := by
    intro fuel
    induction fuel with
    | zero => intro e u h; omega
    | succ fuel ih =>
      intro e u hf he hJ hn
      have hu : (pred.run u).2.regs.now - s.regs.now = BitVec.ofNat 32 e := by rw [hnow, hn, elapsed_eq]
      have hun : (BitVec.ofNat 32 e).toNat = e := by rw [BitVec.toNat_ofNat, Nat.mod_eq_of_lt (by omega)]
      simp only [pollLoop, Prog.run_bind, run_pRead, readSrc, Prog.run_ite, Prog.run_pure, Prog.run_andThen, run_pDelay,
        hu, hun]
      cases hp : (pred.run u).1 with
      | true => exact ⟨e, u, he, hJ, hn, by simp [hp], by simp [hp]⟩
      | false =>
        by_cases hte : t ≤ e
        · exact ⟨e, u, he, hJ, hn, by simp only [Bool.false_eq_true, if_false, if_pos hte, hp], fun _ => by omega⟩
        · simp only [Bool.false_eq_true, if_false, hte]
          refine ih (min (e + i) t) _ (by omega) (by omega) (hstep e u hJ (by omega) hp) ?_
          rw [elapse_now, hnow, hn, BitVec.add_assoc]
          congr 1
          rw [← BitVec.ofNat_add, show e + min i (t - e) = min (e + i) t by omega]
  exact loop (t + 1) 0 s (by omega) (by omega) h0 (by simp)

/-- The state poll's predicate leaves NOW, and answers whether the status byte it has just read names the target. -/
theorem run_statePoll (c : Cfg) (target : BitVec 3) (s : State) :
    (statePoll c target).run s =
      ((doXfer (hdr c true true c.regStatePoll) [0x00#8] s).2.status.csState == target,
        (doXfer (hdr c true true c.regStatePoll) [0x00#8] s).2) := by
  have h : ∀ a b : BitVec 3, (a.zeroExtend 32 == b.zeroExtend 32) = (a == b) := by decide
  simp only [statePoll, Prog.run_andThen, Prog.run_bind, run_pRead, readSrc, Prog.run_pure, run_xr_snd, h]

/-- The edge poll's predicate samples the line once and records the sample. -/
theorem run_edgePoll (level : Bool) (s : State) :
    (edgePoll level).run s = ((doGdo s).1 == level, emit (.gdo (doGdo s).1 s.regs.now) (doGdo s).2) := rfl

/-! ### The FIFO drain (R159) -/

/-- One occupancy read: the count is masked, and nothing changes but what an exchange changes. -/
theorem run_occ_snd (c : Cfg) (s : State) :
    ((occ c).run s).2 = (doXfer (hdr c true true c.regRxbytes) [0x00#8] s).2 := rfl

theorem occ_le (c : Cfg) (s : State) : ((occ c).run s).1 ≤ c.occMask.toNat := by
  show (BitVec.toNat (_ &&& _)) ≤ _
  rw [BitVec.toNat_and]; exact Nat.and_le_right

/-- The state after the burst of a drain round. -/
def afterBurst (c : Cfg) (q at_ : Nat) (s : State) : State :=
  memWrite at_ (doXfer (hdr c true true c.fifoAddr) (List.replicate q 0x00#8) s).1.2.1
    (doXfer (hdr c true true c.fifoAddr) (List.replicate q 0x00#8) s).2

/-- How `DrainCore` ends, as a state `u` and an answer `r`: after a round that reaches the target, after the round at elapsed
exactly `t`, or at an occupancy read whose burst would pass the RAM. `J` holds before a round, `K` after it. -/
def DrainEnd (c : Cfg) (t n off : Nat) (J K : Nat → Nat → State → Prop) (e got : Nat) (r : Drained) (u : State) : Prop :=
  r.count = got ∧
    ((r.code = .ok ∧ K e got u ∧ r.ret = got ∧ n ≤ got ∧ got < n + c.occMask.toNat) ∨
     (r.code = .timeout ∧ K e got u ∧ r.ret = 0 ∧ got < n ∧ e = t) ∨
     (r.code = .alloc ∧ r.ret = 0 ∧ got < n ∧ ∃ v, J e got v ∧ u = ((occ c).run v).2 ∧
        c.ramSize < off + got + ((occ c).run v).1))

/-- `DrainCore` by its invariants: `J e got s` holds of the state before the round at elapsed time `e` with `got` bytes
captured, `K e got s` of the state after it. `hempty` and `hburst` say what a round does, `hwait` what the delay to the next. -/
theorem run_drainCore (c : Cfg) (t n off : Nat) (hi : 1 ≤ c.fifoPollMs) (hn : 1 ≤ n) (ht : t < 2 ^ 32)
    (J K : Nat → Nat → State → Prop) (s : State) (h0 : J 0 0 s)
    (hempty : ∀ e got u, J e got u → got < n → ((occ c).run u).1 = 0 → K e got ((occ c).run u).2)
    (hburst : ∀ e got u q, J e got u → ((occ c).run u).1 = q → 1 ≤ q → got < n → off + got + q ≤ c.ramSize →
      K e (got + q) (afterBurst c q (off + got) ((occ c).run u).2))
    (hwait : ∀ e got u, K e got u → e < t → got < n →
      J (min (e + c.fifoPollMs) t) got (elapse (min c.fifoPollMs (t - e)) u)) :
    ∃ e got u r, e ≤ t ∧ u.regs.now = s.regs.now + BitVec.ofNat 32 e ∧ (drainCore c t n off).run s = (r, u) ∧
      DrainEnd c t n off J K e got r u := by
  have loop : ∀ fuel e got u, t - e < fuel → e ≤ t → got < n → J e got u →
      u.regs.now = s.regs.now + BitVec.ofNat 32 e →
      ∃ e' got' u' r, e' ≤ t ∧ u'.regs.now = s.regs.now + BitVec.ofNat 32 e' ∧
        (drainLoop c t n off s.regs.now got fuel).run u = (r, u') ∧ DrainEnd c t n off J K e' got' r u' := by
    intro fuel
    induction fuel with
    | zero => intro e got u h; omega
    | succ fuel ih =>
      intro e got u hf he hg hJ hnow
      have check : ∀ g u', K e g u' → u'.regs.now = s.regs.now + BitVec.ofNat 32 e →
          (n ≤ g → g < n + c.occMask.toNat) →
          ∃ e' got' u'' r, e' ≤ t ∧ u''.regs.now = s.regs.now + BitVec.ofNat 32 e' ∧
            (drainCheck c t n s.regs.now g (drainLoop c t n off s.regs.now g fuel)).run u' = (r, u'') ∧
            DrainEnd c t n off J K e' got' r u'' := by
        intro g u' hK' hnow' hle
        by_cases hng : n ≤ g
        · exact ⟨e, g, u', ⟨g, .ok, g⟩, he, hnow', by simp [drainCheck, hng], rfl, .inl ⟨rfl, hK', rfl, hng, hle hng⟩⟩
        · have hun : (u'.regs.now - s.regs.now).toNat = e := by rw [hnow', elapsed_toNat _ _ (by omega)]
          by_cases hte : t ≤ e
          · exact ⟨e, g, u', ⟨0, .timeout, g⟩, he, hnow', by
              simp only [drainCheck, if_neg hng, Prog.run_bind, run_pRead, readSrc, hun, if_pos hte, Prog.run_pure], rfl,
              .inr (.inl ⟨rfl, hK', rfl, by omega, by omega⟩)⟩
          · have hr : (drainCheck c t n s.regs.now g (drainLoop c t n off s.regs.now g fuel)).run u' =
                (drainLoop c t n off s.regs.now g fuel).run (elapse (min c.fifoPollMs (t - e)) u') := by
              simp only [drainCheck, if_neg hng, Prog.run_bind, run_pRead, readSrc, hun, if_neg hte, Prog.run_andThen,
                run_pDelay]
            rw [hr]
            refine ih (min (e + c.fifoPollMs) t) g _ (by omega) (by omega) (by omega)
              (hwait e g u' hK' (by omega) (by omega)) ?_
            rw [elapse_now, hnow', BitVec.add_assoc]
            congr 1
            rw [← BitVec.ofNat_add, show e + min c.fifoPollMs (t - e) = min (e + c.fifoPollMs) t by omega]
      have hocc := occ_le c u
      have hnow1 : ((occ c).run u).2.regs.now = s.regs.now + BitVec.ofNat 32 e := by rw [run_occ_snd]; exact hnow
      simp only [drainLoop, Prog.run_bind, Prog.run_ite]
      by_cases hq : ((occ c).run u).1 = 0
      · simp only [hq, if_true]
        exact check got _ (hempty e got u hJ hg hq) hnow1 (fun h => by omega)
      · simp only [hq, if_false]
        by_cases hp : pastRam c (off + got) ((occ c).run u).1 = true
        · simp only [hp, if_true, Prog.run_pure]
          refine ⟨e, got, _, _, he, hnow1, rfl, rfl, .inr (.inr ⟨rfl, rfl, hg, u, hJ, rfl, ?_⟩)⟩
          simpa [pastRam] using hp
        · simp only [hp, Prog.run_andThen, run_xbr, run_pMemWrite]
          have hp' : off + got + ((occ c).run u).1 ≤ c.ramSize := by simpa [pastRam] using hp
          exact check _ _ (hburst e got u _ hJ rfl (by omega) hg hp') hnow1 (fun h => by omega)
  exact loop (t + 1) 0 0 s (by omega) (by omega) (by omega) h0 (by simp)

/-! ### Tables (R148, R149) -/

theorem insertEntry_perm (e : ChipAddr × Byte) (t : List (ChipAddr × Byte)) : (insertEntry e t).Perm (e :: t) := by
  induction t with
  | nil => exact .refl _
  | cons f rest ih =>
    unfold insertEntry
    split
    · exact .refl _
    · exact (ih.cons f).trans (.swap e f rest)

theorem inAddressOrder_perm (t : List (ChipAddr × Byte)) : (inAddressOrder t).Perm t := by
  induction t with
  | nil => exact .refl _
  | cons e rest ih => exact (insertEntry_perm e _).trans (ih.cons e)

theorem insertEntry_sorted (e : ChipAddr × Byte) (t : List (ChipAddr × Byte))
    (h : t.Pairwise fun a b => a.1.toNat ≤ b.1.toNat) : (insertEntry e t).Pairwise fun a b => a.1.toNat ≤ b.1.toNat := by
  induction t with
  | nil => simp [insertEntry]
  | cons f rest ih =>
    rw [List.pairwise_cons] at h
    unfold insertEntry
    split
    · rename_i hle
      refine List.pairwise_cons.mpr ⟨fun x hx => ?_, List.pairwise_cons.mpr h⟩
      rcases List.mem_cons.mp hx with rfl | hx
      · exact hle
      · exact Nat.le_trans hle (h.1 x hx)
    · rename_i hle
      refine List.pairwise_cons.mpr ⟨fun x hx => ?_, ih h.2⟩
      rcases List.mem_cons.mp ((insertEntry_perm e rest).mem_iff.mp hx) with rfl | hx
      · omega
      · exact h.1 x hx

theorem inAddressOrder_sorted (t : List (ChipAddr × Byte)) :
    (inAddressOrder t).Pairwise fun a b => a.1.toNat ≤ b.1.toNat := by
  induction t with
  | nil => exact List.Pairwise.nil
  | cons e rest ih => exact insertEntry_sorted e _ ih

end Sys2Proof.Machine
end

