-- ==== Sys2Proof/Laws/Trace.lean ====
section
/-! SUPPORT. What the core operations record, as traces of Safety.lean: exchanges, tables, the two waits, the drain with its
rounds, and the values ATT_STATE takes in a program (spec/40_radio_interface.md R140 to R159, spec/10_state.md R52). -/

namespace Sys2Proof.Machine

/-! ### A stretch from one state to another -/

/-- From `s` to `u` exactly the trace `T` is recorded. -/
def Did (T : Trace) (s u : State) : Prop := ∃ l, u.history = s.history ++ l ∧ T s.regs.now l u.regs.now

/-- Nothing recorded, no time. -/
theorem did_nothing {s u : State} (hh : u.history = s.history) (hn : u.regs.now = s.regs.now) : Did (.seq []) s u :=
  ⟨[], by rw [hh, List.append_nil], rfl, hn⟩

/-- One stretch before others. -/
theorem Did.cons {A : Trace} {rest : List Trace} {s t u : State} (h : Did A s t) (g : Did (.seq rest) t u) :
    Did (.seq (A :: rest)) s u := by
  obtain ⟨l, hl, hA⟩ := h
  obtain ⟨m, hm, hB⟩ := g
  exact ⟨l ++ m, by rw [hm, hl, List.append_assoc], l, _, m, hA, hB, rfl⟩

/-- A single stretch as a sequence. -/
theorem Did.one {A : Trace} {s u : State} (h : Did A s u) : Did (.seq [A]) s u := h.cons (did_nothing rfl rfl)

/-- Sequences of stretches, one after the other. -/
theorem Did.append {xs ys : List Trace} {s t u : State} (h : Did (.seq xs) s t) (g : Did (.seq ys) t u) :
    Did (.seq (xs ++ ys)) s u := by
  obtain ⟨l, hl, hA⟩ := h
  obtain ⟨m, hm, hB⟩ := g
  refine ⟨l ++ m, by rw [hm, hl, List.append_assoc], ?_⟩
  clear hl hm
  generalize s.regs.now = a at *
  generalize t.regs.now = b at *
  induction xs generalizing a l with
  | nil => obtain ⟨rfl, rfl⟩ := hA; exact hB
  | cons x xs ih =>
    obtain ⟨l₁, n, l₂, h1, h2, rfl⟩ := hA
    exact ⟨l₁, n, l₂ ++ m, h1, ih l₂ n h2, List.append_assoc ..⟩

/-- A trace depends on the history and NOW alone. -/
theorem Did.congr {T : Trace} {s s' u u' : State} (h : Did T s u) (hs : s'.history = s.history)
    (hn : s'.regs.now = s.regs.now) (hu : u'.history = u.history) (hm : u'.regs.now = u.regs.now) : Did T s' u' := by
  obtain ⟨l, hl, hT⟩ := h
  exact ⟨l, by rw [hu, hs, hl], by rw [hn, hm]; exact hT⟩

/-- An exchange (R140). -/
theorem did_xfer (hd : Byte) (tl : List Byte) (s : State) : Did (.sends (hd :: tl)) s (doXfer hd tl s).2 := by
  refine ⟨_, doXfer_history hd tl s, _, ?_, rfl, by simp⟩
  rw [List.length_cons, List.length_cons, (doXfer hd tl s).1.2.2]

/-- A delay. -/
theorem did_elapse (n : Nat) (s : State) : Did (.passes n) s (elapse n s) := ⟨[], by simp, rfl, by simp⟩

/-- A register table (R149). -/
theorem did_table (c : Cfg) (tab : List (ChipAddr × Byte)) (s : State) :
    Did (.writesTable c s.regs.freqWord tab) s ((applyTable c tab).run s).2 := by
  have entries : ∀ (order : List (ChipAddr × Byte)) (s : State),
      Did (.seq (order.map fun e => .sends [hdr c false false e.1, substFreq c (s.regs.freqWord.zeroExtend 32) e.1 e.2])) s
        ((writeEntries c order).run s).2 := by
    intro order
    induction order with
    | nil => intro s; exact did_nothing rfl rfl
    | cons e rest ih =>
      obtain ⟨a, v⟩ := e
      intro s
      have := ih (doXfer (hdr c false false a) [substFreq c (s.regs.freqWord.zeroExtend 32) a v] s).2
      rw [doXfer_regs] at this
      exact (did_xfer _ _ s).cons this
  obtain ⟨l, hl, hT⟩ := entries (inAddressOrder tab) s
  exact ⟨l, hl, _, inAddressOrder_perm tab, inAddressOrder_sorted tab, hT⟩

/-! ### The waits (R144 to R146) -/

/-- The last round of a wait: any round at elapsed below `T` comes before it, and a round at exactly `T` is not before it. -/
theorem lastRound_spec {i : Nat} (hi : 1 ≤ i) (n T : Nat) :
    (min (n * i) T = T → lastRound i T ≤ n) ∧ (min (n * i) T < T → n + 1 ≤ lastRound i T) := by
  unfold lastRound
  constructor
  · intro h
    rw [Nat.div_le_iff_le_mul_add_pred hi, Nat.mul_comm i n]; omega
  · intro h
    rw [Nat.succ_le_iff, Nat.lt_div_iff_mul_lt hi]; omega

/-- The polls of a state wait (R145), and all they leave alone. -/
theorem did_polls (c : Cfg) (target : BitVec 3) (T : Nat) (hi : 1 ≤ c.statePollMs) (hT : T < 2 ^ 32) (s : State) :
    Did (.polls c target T ((waitStateCore c target T).run s).1.1) s ((waitStateCore c target T).run s).2 := by
  generalize hI : c.statePollMs = i at *
  let poll (k : Nat) (ev : Option Event) (st : Byte) : Prop := ∃ v,
    ev = some (.xfer [hdr c true true c.regStatePoll, 0x00#8] [st, v] (s.regs.now + BitVec.ofNat 32 (min (k * i) T)))
  have one : ∀ u : State, ∃ st v,
      ((statePoll c target).run u).2.history = u.history ++
        [.xfer [hdr c true true c.regStatePoll, 0x00#8] [st, v] u.regs.now] ∧
      (((statePoll c target).run u).1 = true ↔ st.extractLsb' 4 3 = target) := by
    intro u
    rw [run_statePoll]
    obtain ⟨v, hv⟩ : ∃ v, (doXfer (hdr c true true c.regStatePoll) [0x00#8] u).1.2.1 = [v] :=
      ⟨_, run_xr_fst c c.regStatePoll true u⟩
    refine ⟨(doXfer (hdr c true true c.regStatePoll) [0x00#8] u).1.1, v, ?_, ?_⟩
    · rw [doXfer_history, hv]
    · simp only [beq_iff_eq]; rfl
  obtain ⟨e, u, he, ⟨n, l, rfl, hl, hn, hh, hmiss⟩, hnow, hrun, hto⟩ := run_pollUntil (statePoll c target) i T hi hT
    (fun e u => ∃ n l, e = min (n * i) T ∧ l.length = n ∧ n ≤ lastRound i T ∧ u.history = s.history ++ l ∧
      u.regs.now = s.regs.now + BitVec.ofNat 32 e ∧
      ∀ k, k < n → ∃ st, poll k l[k]? st ∧ st.extractLsb' 4 3 ≠ target) s
    ⟨0, [], by simp, rfl, Nat.zero_le _, by simp, by simp, by simp⟩
    (fun u => by rw [run_statePoll, doXfer_regs])
    (by
      rintro e u ⟨n, l, rfl, hl, hn, hh, hnow, hmiss⟩ hlt hp
      obtain ⟨st, v, h1, h2⟩ := one u
      have h3 : st.extractLsb' 4 3 ≠ target := fun h => by rw [h2.mpr h] at hp; exact absurd hp (by simp)
      refine ⟨n + 1, l ++ [.xfer [hdr c true true c.regStatePoll, 0x00#8] [st, v] u.regs.now], ?_, by simp [hl],
        (lastRound_spec hi n T).2 hlt, ?_, ?_, ?_⟩
      · rw [Nat.succ_mul]; omega
      · rw [elapse_history, h1, hh, List.append_assoc]
      · rw [elapse_now, run_statePoll, doXfer_regs, hnow, BitVec.add_assoc, ← BitVec.ofNat_add]
        congr 2; omega
      · intro k hk
        by_cases hkn : k < n
        · obtain ⟨st', hp', ht'⟩ := hmiss k hkn
          exact ⟨st', by rw [List.getElem?_append_left (by omega)]; exact hp', ht'⟩
        · obtain rfl : k = n := by omega
          exact ⟨st, ⟨v, by rw [← hl, List.getElem?_concat_length, hnow, hl]⟩, h3⟩)
  obtain ⟨hnow', hmiss⟩ := hmiss
  obtain ⟨st, v, h1, h2⟩ := one u
  have hr : (waitStateCore c target T).run s =
      ((((statePoll c target).run u).1, BitVec.ofNat 32 (min (n * i) T)), ((statePoll c target).run u).2) := by
    rw [waitStateCore, hI]; exact hrun
  rw [hr]
  refine ⟨_, by rw [h1, hh, List.append_assoc], n, by simp [hl], by rw [hI]; exact hn, ?_, ?_, ?_⟩
  · intro hf
    have := (lastRound_spec hi n T).1 (hto hf)
    rw [hI]; omega
  · rw [run_statePoll, doXfer_regs, hI]; exact hnow'
  · intro k hk
    rw [hI]
    by_cases hkn : k < n
    · obtain ⟨st', ⟨v', hv'⟩, ht'⟩ := hmiss k hkn
      refine ⟨st', v', by rw [List.getElem?_append_left (by omega)]; exact hv', ?_⟩
      exact ⟨fun h => absurd h ht', fun h => by omega⟩
    · obtain rfl : k = n := by omega
      refine ⟨st, v, by rw [← hl, List.getElem?_concat_length, hnow, hl], ?_⟩
      rw [← h2]; simp

/-- The samples of an edge wait (R146). -/
theorem did_samples (c : Cfg) (level : Bool) (T : Nat) (hi : 1 ≤ c.edgePollMs) (hT : T < 2 ^ 32) (s : State) :
    Did (.samples c level T ((waitEdgeCore c level T).run s).1.1) s ((waitEdgeCore c level T).run s).2 := by
  generalize hI : c.edgePollMs = i at *
  obtain ⟨e, u, he, ⟨n, l, rfl, hl, hn, hh, hnow', hmiss⟩, hnow, hrun, hto⟩ := run_pollUntil (edgePoll level) i T hi hT
    (fun e u => ∃ n l, e = min (n * i) T ∧ l.length = n ∧ n ≤ lastRound i T ∧ u.history = s.history ++ l ∧
      u.regs.now = s.regs.now + BitVec.ofNat 32 e ∧
      ∀ k, k < n → ∃ g, l[k]? = some (.gdo g (s.regs.now + BitVec.ofNat 32 (min (k * i) T))) ∧ g ≠ level) s
    ⟨0, [], by simp, rfl, Nat.zero_le _, by simp, by simp, by simp⟩ (fun u => rfl)
    (by
      rintro e u ⟨n, l, rfl, hl, hn, hh, hnow, hmiss⟩ hlt hp
      rw [run_edgePoll] at hp ⊢
      refine ⟨n + 1, l ++ [.gdo (doGdo u).1 u.regs.now], ?_, by simp [hl], (lastRound_spec hi n T).2 hlt, ?_, ?_, ?_⟩
      · rw [Nat.succ_mul]; omega
      · rw [elapse_history, emit_history, doGdo_history, hh, List.append_assoc]
      · rw [elapse_now, emit_regs, doGdo_regs, hnow, BitVec.add_assoc, ← BitVec.ofNat_add]
        congr 2; omega
      · intro k hk
        by_cases hkn : k < n
        · rw [List.getElem?_append_left (by omega)]; exact hmiss k hkn
        · obtain rfl : k = n := by omega
          exact ⟨_, by rw [← hl, List.getElem?_concat_length, hnow, hl], by simpa using hp⟩)
  have hr : (waitEdgeCore c level T).run s =
      (((doGdo u).1 == level, BitVec.ofNat 32 (min (n * i) T)), emit (.gdo (doGdo u).1 u.regs.now) (doGdo u).2) := by
    rw [waitEdgeCore, hI, hrun, run_edgePoll]
  rw [run_edgePoll] at hto
  rw [hr]
  refine ⟨l ++ [.gdo (doGdo u).1 u.regs.now], by rw [emit_history, doGdo_history, hh, List.append_assoc], n, by simp [hl],
    by rw [hI]; exact hn, ?_, ?_, ?_⟩
  · intro hf
    have := (lastRound_spec hi n T).1 (hto hf)
    rw [hI]; omega
  · rw [emit_regs, doGdo_regs, hI]; exact hnow'
  · intro k hk
    rw [hI]
    by_cases hkn : k < n
    · obtain ⟨g, hg, hne⟩ := hmiss k hkn
      exact ⟨g, by rw [List.getElem?_append_left (by omega)]; exact hg, fun h => absurd h hne, fun h => by omega⟩
    · obtain rfl : k = n := by omega
      exact ⟨_, by rw [← hl, List.getElem?_concat_length, hnow, hl], by simp⟩

/-! ### The drain (R158, R159) -/

theorem captured_append (a b : List DrainRound) : captured (a ++ b) = captured a ++ captured b := by simp [captured]

theorem captured_one (r : DrainRound) : captured [r] = r.data := by simp [captured]

theorem roundsEvents_snoc (c : Cfg) (T : Nat) (t : Word) (rounds : List DrainRound) (r : DrainRound) :
    roundsEvents c T t (rounds ++ [r]) = roundsEvents c T t rounds ++
      r.events c (t + BitVec.ofNat 32 (min (rounds.length * c.fifoPollMs) T)) := by
  simp [roundsEvents, List.zipIdx_append]

/-- One write after another, where the second begins at the end of the first. -/
theorem write_append (m : Memory) (off : Nat) (a b : List Byte) :
    (m.write off a).write (off + a.length) b = m.write off (a ++ b) := by
  induction a generalizing m off with
  | nil => rfl
  | cons x a ih =>
    simp only [Memory.write, List.cons_append, List.length_cons]
    rw [← ih, show off + (a.length + 1) = off + 1 + a.length by omega]

/-- The exchange of an occupancy read, and the count it gives (R158). -/
theorem run_occ (c : Cfg) (u : State) : ∃ st v,
    ((occ c).run u).1 = (v &&& c.occMask).toNat ∧
    ((occ c).run u).2.history = u.history ++ [.xfer [hdr c true true c.regRxbytes, 0x00#8] [st, v] u.regs.now] := by
  refine ⟨(doXfer (hdr c true true c.regRxbytes) [0x00#8] u).1.1, ((xr c c.regRxbytes true).run u).1, rfl, ?_⟩
  rw [run_occ_snd, doXfer_history, run_xr_fst]

/-- What the rounds `rounds` of a drain from `s` have done by the state `u`, at elapsed `e` and having recorded `events`: the
bytes they captured are in RAM, and nothing else is changed but ChipStatus, NOW and the history (R159). -/
structure DrainedTo (c : Cfg) (n off : Nat) (rounds : List DrainRound) (e : Nat) (events : List Event) (s u : State) :
    Prop where
  counts : ∀ r ∈ rounds, r.data.length = (r.occupancy &&& c.occMask).toNat
  short : ∀ k, k < rounds.length → (captured (rounds.take k)).length < n
  inside : captured rounds = [] ∨ off + (captured rounds).length ≤ c.ramSize
  regs : u.regs = { s.regs with now := s.regs.now + BitVec.ofNat 32 e }
  att : u.status.att = s.status.att
  disc : u.status.disc = s.status.disc
  ram : u.ram = s.ram.write off (captured rounds)
  history : u.history = s.history ++ events

/-- One more round. -/
theorem DrainedTo.snoc {c : Cfg} {n off e T : Nat} {rounds : List DrainRound} {s u v : State}
    (h : DrainedTo c n off rounds e (roundsEvents c T s.regs.now rounds) s u) (hg : (captured rounds).length < n)
    (he : e = min (rounds.length * c.fifoPollMs) T) (r : DrainRound)
    (hc : r.data.length = (r.occupancy &&& c.occMask).toNat)
    (hin : r.data = [] ∨ off + (captured rounds).length + r.data.length ≤ c.ramSize)
    (hregs : v.regs = u.regs) (hatt : v.status.att = u.status.att) (hdisc : v.status.disc = u.status.disc)
    (hram : v.ram = u.ram.write (off + (captured rounds).length) r.data)
    (hh : v.history = u.history ++ r.events c u.regs.now) :
    DrainedTo c n off (rounds ++ [r]) e (roundsEvents c T s.regs.now (rounds ++ [r])) s v := by
  have hcap : captured (rounds ++ [r]) = captured rounds ++ r.data := by rw [captured_append, captured_one]
  refine ⟨?_, ?_, ?_, hregs.trans h.regs, hatt.trans h.att, hdisc.trans h.disc, ?_, ?_⟩
  · intro x hx
    rcases List.mem_append.mp hx with hx | hx
    · exact h.counts x hx
    · rw [List.mem_singleton.mp hx]; exact hc
  · intro k hk
    rw [List.length_append, List.length_singleton] at hk
    by_cases hk' : k < rounds.length
    · rw [List.take_append_of_le_length (by omega)]; exact h.short k hk'
    · rw [show k = rounds.length by omega, List.take_left']
      · exact hg
      · rfl
  · rw [hcap]
    rcases hin with h0 | h0
    · rw [h0, List.append_nil]; exact h.inside
    · exact .inr (by rw [List.length_append]; omega)
  · rw [hram, h.ram, write_append, hcap]
  · rw [hh, h.history, List.append_assoc, roundsEvents_snoc, ← he, h.regs]

/-- `DrainCore` carried out: its rounds, and how it ends (R159). -/
theorem run_drain (c : Cfg) (T n off : Nat) (hi : 1 ≤ c.fifoPollMs) (hn : 1 ≤ n) (hT : T < 2 ^ 32) (s : State) :
    ∃ rounds r u, (drainCore c T n off).run s = (r, u) ∧ r.count = (captured rounds).length ∧
      ((r.code = .ok ∧ r.ret = (captured rounds).length ∧ n ≤ (captured rounds).length ∧
          (captured rounds).length < n + c.occMask.toNat ∧ rounds.length ≤ lastRound c.fifoPollMs T + 1 ∧
          DrainedTo c n off rounds (min ((rounds.length - 1) * c.fifoPollMs) T) (roundsEvents c T s.regs.now rounds) s u) ∨
       (r.code = .timeout ∧ r.ret = 0 ∧ (captured rounds).length < n ∧ rounds.length = lastRound c.fifoPollMs T + 1 ∧
          DrainedTo c n off rounds T (roundsEvents c T s.regs.now rounds) s u) ∨
       (r.code = .alloc ∧ r.ret = 0 ∧ (captured rounds).length < n ∧ rounds.length ≤ lastRound c.fifoPollMs T ∧
          ∃ st v, c.ramSize < off + (captured rounds).length + (v &&& c.occMask).toNat ∧
            DrainedTo c n off rounds (min (rounds.length * c.fifoPollMs) T) (roundsEvents c T s.regs.now rounds ++
              [.xfer [hdr c true true c.regRxbytes, 0x00#8] [st, v]
                (s.regs.now + BitVec.ofNat 32 (min (rounds.length * c.fifoPollMs) T))]) s u)) := by
  obtain ⟨e, got, u, r, he, hnow, hrun, hcount, hend⟩ := run_drainCore c T n off hi hn hT
    (fun e got u => ∃ rounds, e = min (rounds.length * c.fifoPollMs) T ∧ rounds.length ≤ lastRound c.fifoPollMs T ∧
      got = (captured rounds).length ∧ DrainedTo c n off rounds e (roundsEvents c T s.regs.now rounds) s u)
    (fun e got u => ∃ rounds, rounds ≠ [] ∧ e = min ((rounds.length - 1) * c.fifoPollMs) T ∧
      rounds.length ≤ lastRound c.fifoPollMs T + 1 ∧
      got = (captured rounds).length ∧ DrainedTo c n off rounds e (roundsEvents c T s.regs.now rounds) s u) s
    ⟨[], by simp, Nat.zero_le _, rfl, by simp, by simp, .inl rfl, by simp, rfl, rfl, rfl, by simp [roundsEvents]⟩
    (by
      rintro e got u ⟨rounds, he, hl, rfl, hd⟩ hg hq
      obtain ⟨st, v, h1, h2⟩ := run_occ c u
      refine ⟨rounds ++ [⟨st, v, 0x00#8, []⟩], by simp, by simpa using he, by simpa using hl,
        by rw [captured_append, captured_one, List.append_nil], ?_⟩
      exact hd.snoc hg he _ (by rw [← h1, hq]; rfl) (.inl rfl) rfl rfl rfl rfl (by rw [h2]; rfl))
    (by
      rintro e got u q ⟨rounds, he, hl, rfl, hd⟩ hq h1q hg hp
      obtain ⟨st, v, h1, h2⟩ := run_occ c u
      rw [hq] at h1
      rw [afterBurst]
      generalize hu1 : ((occ c).run u).2 = u1 at *
      have hu : u1.regs = u.regs ∧ u1.status.att = u.status.att ∧ u1.status.disc = u.status.disc ∧ u1.ram = u.ram := by
        rw [← hu1]; exact ⟨rfl, rfl, rfl, rfl⟩
      generalize hd' : doXfer (hdr c true true c.fifoAddr) (List.replicate q 0x00#8) u1 = d
      have hlen : d.1.2.1.length = q := by rw [d.1.2.2, List.length_replicate]
      have hne : d.1.2.1 ≠ [] := fun h => by rw [h] at hlen; simp at hlen; omega
      refine ⟨rounds ++ [⟨st, v, d.1.1, d.1.2.1⟩], by simp, by simpa using he, by simpa using hl, ?_, ?_⟩
      · rw [captured_append, captured_one, List.length_append, hlen]
      · refine hd.snoc hg he _ (hlen.trans h1) (.inr (by rw [hlen]; exact hp)) ?_ ?_ ?_ ?_ ?_
        · rw [memWrite_regs, ← hd', doXfer_regs, hu.1]
        · rw [← hu.2.1, ← hd']; rfl
        · rw [← hu.2.2.1, ← hd']; rfl
        · rw [← hu.2.2.2, ← hd']; rfl
        · rw [memWrite_history, ← hd', doXfer_history, hd', h2, hu.1, DrainRound.events, if_neg hne, hlen]
          simp)
    (by
      rintro e got u ⟨rounds, hne, he, hl, rfl, hd⟩ hlt hg
      have hpos : rounds.length ≠ 0 := fun h => hne (List.length_eq_zero_iff.mp h)
      obtain ⟨m, hm⟩ : ∃ m, rounds.length = m + 1 := ⟨rounds.length - 1, by omega⟩
      rw [hm, Nat.add_sub_cancel] at he
      refine ⟨rounds, ?_, ?_, rfl, hd.counts, hd.short, hd.inside, ?_, hd.att, hd.disc, hd.ram, hd.history⟩
      · rw [hm, Nat.succ_mul]; omega
      · rw [hm]; exact (lastRound_spec hi m T).2 (by omega)
      · rw [show min (e + c.fifoPollMs) T = e + min c.fifoPollMs (T - e) by omega, BitVec.ofNat_add, ← BitVec.add_assoc]
        simp only [elapse, hd.regs])
  rcases hend with ⟨hc, ⟨rounds, hne, he', hl, rfl, hd⟩, hret, hge, hlt⟩ | ⟨hc, ⟨rounds, hne, he', hl, rfl, hd⟩, hret, hlt, heT⟩ |
    ⟨hc, hret, hlt, v, ⟨rounds, he', hl, rfl, hd⟩, hu, hp⟩
  · exact ⟨rounds, r, u, hrun, hcount, .inl ⟨hc, hret, hge, hlt, hl, he' ▸ hd⟩⟩
  · refine ⟨rounds, r, u, hrun, hcount, .inr (.inl ⟨hc, hret, hlt, ?_, heT ▸ hd⟩)⟩
    have hpos : rounds.length ≠ 0 := fun h => hne (List.length_eq_zero_iff.mp h)
    have := (lastRound_spec hi (rounds.length - 1) T).1 (by omega)
    omega
  · obtain ⟨st, b, h1, h2⟩ := run_occ c v
    refine ⟨rounds, r, u, hrun, hcount, .inr (.inr ⟨hc, hret, hlt, hl, st, b, by rw [← h1]; exact hp, ?_⟩)⟩
    rw [hu]
    refine ⟨hd.counts, hd.short, hd.inside, ?_, ?_, ?_, ?_, ?_⟩
    · rw [run_occ_snd, doXfer_regs, ← he']; exact hd.regs
    · exact hd.att
    · exact hd.disc
    · exact hd.ram
    · rw [h2, hd.history, hd.regs, he', List.append_assoc]

/-- A drain of an attempt as a trace: the capture reached, or the timeout. -/
theorem DrainedTo.did {c : Cfg} {T n off e : Nat} {rounds : List DrainRound} {s u : State} {got : Option (List Byte)}
    (h : DrainedTo c n off rounds e (roundsEvents c T s.regs.now rounds) s u)
    (hl : rounds.length ≤ lastRound c.fifoPollMs T + 1) (he : e = min ((rounds.length - 1) * c.fifoPollMs) T)
    (hg : match got with
      | some raw => raw = captured rounds ∧ n ≤ raw.length
      | none => (captured rounds).length < n ∧ rounds.length = lastRound c.fifoPollMs T + 1) :
    Did (.drains c T n got) s u :=
  ⟨_, h.history, rounds, ⟨h.counts, h.short, hl⟩, rfl, by rw [h.regs, he], hg⟩

/-! ### The values ATT_STATE takes (R261) -/

@[simp] theorem Prog.attWrites_pure {α : Type} (a : α) (s : State) : (Prog.pure a).attWrites s = [] := rfl

theorem Prog.attWrites_bind {α β : Type} (m : Prog α) (f : α → Prog β) (s : State) :
    (m.bind f).attWrites s = m.attWrites s ++ (f (m.run s).1).attWrites (m.run s).2 := by
  induction m generalizing s with
  | pure a => rfl
  | op p k ih => simp only [Prog.op_bind, Prog.attWrites, ih, List.append_assoc]; rfl

theorem Prog.attWrites_andThen {α β : Type} (m : Prog α) (n : Prog β) (s : State) :
    (m.andThen n).attWrites s = m.attWrites s ++ n.attWrites (m.run s).2 := Prog.attWrites_bind m _ s

theorem attWrites_pWrite_att (a : AttState) (s : State) : (pWrite (.att a)).attWrites s = [a] := rfl

/-- The primitive leaves ATT_STATE. -/
def Prim.NoAtt (p : Prim) : Prop := p.attWrite = []

/-- A program none of whose primitives writes ATT_STATE. -/
theorem Prog.attWrites_none {α : Type} {m : Prog α} (h : m.All Prim.NoAtt) (s : State) : m.attWrites s = [] := by
  induction m generalizing s with
  | pure a => rfl
  | op p k ih => rw [Prog.attWrites, h.1, ih _ (h.2 _), List.append_nil]

/-! ### What a scan shows while it runs (R275) -/

@[simp] theorem Prog.scanWrites_pure {α : Type} (a : α) (s : State) : (Prog.pure a).scanWrites s = [] := rfl

theorem Prog.scanWrites_bind {α β : Type} (m : Prog α) (f : α → Prog β) (s : State) :
    (m.bind f).scanWrites s = m.scanWrites s ++ (f (m.run s).1).scanWrites (m.run s).2 := by
  induction m generalizing s with
  | pure a => rfl
  | op p k ih => simp only [Prog.op_bind, Prog.scanWrites, ih, List.append_assoc]; rfl

theorem Prog.scanWrites_andThen {α β : Type} (m : Prog α) (n : Prog β) (s : State) :
    (m.andThen n).scanWrites s = m.scanWrites s ++ n.scanWrites (m.run s).2 := Prog.scanWrites_bind m _ s

/-- The primitive writes neither CAND nor DISC nor FREQ_MHZ. -/
def Prim.AttAlone (p : Prim) : Prop := p.scanWrite = p.attWrite.map .att

/-- Of the registers a scan shows, a program of such primitives writes ATT_STATE alone. -/
theorem Prog.scanWrites_att {α : Type} {m : Prog α} (h : m.All Prim.AttAlone) (s : State) :
    m.scanWrites s = (m.attWrites s).map .att := by
  induction m generalizing s with
  | pure a => rfl
  | op p k ih => rw [Prog.scanWrites, Prog.attWrites, h.1, ih _ (h.2 _), List.map_append]

end Sys2Proof.Machine
end

