-- ==== Sys2Proof/Laws/Attempt.lean ====
section
/-! SUPPORT. What the protocol state machine does, part by part: tuning, the waits, the captures, the phases of an attempt
up to AttemptCore whole, field extraction, and the discovery scan (spec/43_protocol_engine.md R250 to R278). -/

namespace Sys2Proof.Machine

/-! ### Tuning (R149, R260) -/

/-- From `s` to `u` exactly the exchanges `l` are made, bytes sent and NOW, in order, and nothing else is recorded. -/
def Sends (l : List (List Byte × Word)) (s u : State) : Prop :=
  ∃ events, u.history = s.history ++ events ∧ xfersOf events = l ∧ ∀ ev ∈ events, ∃ out answer now, ev = .xfer out answer now

theorem Sends.trans {l m : List (List Byte × Word)} {s t u : State} (h : Sends l s t) (g : Sends m t u) :
    Sends (l ++ m) s u := by
  obtain ⟨e, h1, h2, h3⟩ := h
  obtain ⟨f, g1, g2, g3⟩ := g
  refine ⟨e ++ f, by rw [g1, h1, List.append_assoc], by rw [xfersOf_append, h2, g2], fun ev hev => ?_⟩
  rcases List.mem_append.mp hev with hev | hev
  exacts [h3 ev hev, g3 ev hev]

theorem sends_none {s u : State} (h : u.history = s.history) : Sends [] s u :=
  ⟨[], by rw [h, List.append_nil], rfl, by simp⟩

theorem sends_xfer (hd : Byte) (tl : List Byte) (s : State) : Sends [(hd :: tl, s.regs.now)] s (doXfer hd tl s).2 :=
  ⟨_, doXfer_history hd tl s, rfl, by simp⟩

theorem sends_elapse (n : Nat) (s : State) : Sends [] s (elapse n s) := sends_none rfl

/-- Exchanges are neither stores nor publications. -/
theorem only_xfers {events : List Event} (h : ∀ ev ∈ events, ∃ out answer now, ev = Event.xfer out answer now) :
    storesOf events = [] ∧ publishesOf events = [] := by
  induction events with
  | nil => exact ⟨rfl, rfl⟩
  | cons ev rest ih =>
    obtain ⟨out, answer, now, rfl⟩ := h ev (List.mem_cons_self ..)
    exact ih fun x hx => h x (List.mem_cons_of_mem _ hx)

/-- The writes of table entries, one exchange each (R149). -/
theorem run_writeEntries (c : Cfg) (t : List (ChipAddr × Byte)) (s : State) :
    ∃ u, (writeEntries c t).run s = ((), u) ∧ u.regs = s.regs ∧ u.ram = s.ram ∧ u.status.att = s.status.att ∧
      u.status.disc = s.status.disc ∧
      Sends (t.map fun e => ([hdr c false false e.1, substFreq c (s.regs.freqWord.zeroExtend 32) e.1 e.2], s.regs.now)) s u := by
  induction t generalizing s with
  | nil => exact ⟨s, rfl, rfl, rfl, rfl, rfl, sends_none rfl⟩
  | cons e r ih =>
    obtain ⟨a, v⟩ := e
    obtain ⟨u, h1, h2, h3, h4, h5, h6⟩ :=
      ih (doXfer (hdr c false false a) [substFreq c (s.regs.freqWord.zeroExtend 32) a v] s).2
    refine ⟨u, ?_, h2, h3, h4, h5, (sends_xfer _ _ _).trans h6⟩
    rw [← h1]; rfl

/-- ResetCore (R147): three strobes, each followed by SETTLE_MS. -/
theorem run_reset (c : Cfg) (s : State) :
    ∃ u, (resetCore c).run s = ((), u) ∧
      Sends [([0#2 ++ c.sRes], s.regs.now), ([0#2 ++ c.sFrx], s.regs.now + BitVec.ofNat 32 c.settleMs),
        ([0#2 ++ c.sFtx], s.regs.now + BitVec.ofNat 32 (2 * c.settleMs))] s u ∧
      u.regs = { s.regs with now := s.regs.now + BitVec.ofNat 32 (3 * c.settleMs) } ∧
      u.ram = s.ram ∧ u.status.att = s.status.att ∧ u.status.disc = s.status.disc := by
  have h2 : s.regs.now + BitVec.ofNat 32 c.settleMs + BitVec.ofNat 32 c.settleMs =
      s.regs.now + BitVec.ofNat 32 (2 * c.settleMs) := by
    rw [BitVec.add_assoc, ← BitVec.ofNat_add, show c.settleMs + c.settleMs = 2 * c.settleMs by omega]
  have h3 : s.regs.now + BitVec.ofNat 32 (2 * c.settleMs) + BitVec.ofNat 32 c.settleMs =
      s.regs.now + BitVec.ofNat 32 (3 * c.settleMs) := by
    rw [BitVec.add_assoc, ← BitVec.ofNat_add, show 2 * c.settleMs + c.settleMs = 3 * c.settleMs by omega]
  have sent := (((((sends_xfer (hdr c false false c.sRes) [] s).trans (sends_elapse c.settleMs _)).trans
    (sends_xfer (hdr c false false c.sFrx) [] _)).trans (sends_elapse c.settleMs _)).trans
    (sends_xfer (hdr c false false c.sFtx) [] _)).trans (sends_elapse c.settleMs _)
  simp only [hdr_strobe, elapse_now, doXfer_regs, h2, List.append_nil, List.cons_append, List.nil_append] at sent
  have hr : (resetCore c).run s = ((), elapse c.settleMs (doXfer (0#2 ++ c.sFtx) []
      (elapse c.settleMs (doXfer (0#2 ++ c.sFrx) [] (elapse c.settleMs (doXfer (0#2 ++ c.sRes) [] s).2)).2)).2) := by
    simp only [resetCore, Prog.run_andThen, run_xs, run_pDelay, hdr_strobe]
  refine ⟨_, hr, sent, ?_, rfl, rfl, rfl⟩
  simp only [elapse, doXfer_regs, h2, h3]

/-- SetFreqCore once the word is computed (R160). -/
def setWord (c : Cfg) (w : BitVec 24) : Prog Unit :=
  (pWrite (.freqWord w)).andThen <| (xw c c.regFreq2 false (w.extractLsb' 16 8)).andThen <|
  (xw c c.regFreq1 false (w.extractLsb' 8 8)).andThen <| (xw c c.regFreq0 false (w.extractLsb' 0 8))

theorem setFreqCore_eq (c : Cfg) (f : Word) : setFreqCore c f = setWord c (freqWordCore c f) := by
  unfold setFreqCore setWord; rfl

/-- FREQ_WORD, and its three bytes, high, mid, low (R160). -/
theorem run_setWord (c : Cfg) (w : BitVec 24) (s : State) :
    ∃ u, (setWord c w).run s = ((), u) ∧
      Sends [([0#2 ++ c.regFreq2, w.extractLsb' 16 8], s.regs.now), ([0#2 ++ c.regFreq1, w.extractLsb' 8 8], s.regs.now),
        ([0#2 ++ c.regFreq0, w.extractLsb' 0 8], s.regs.now)] s u ∧
      u.regs = { s.regs with freqWord := w } ∧ u.ram = s.ram ∧ u.status.att = s.status.att ∧
      u.status.disc = s.status.disc := by
  refine ⟨_, rfl, ?_, rfl, rfl, rfl, rfl⟩
  have sent := (((sends_none (s := s) (u := writeDst (.freqWord w) s) rfl).trans
    (sends_xfer (hdr c false false c.regFreq2) [w.extractLsb' 16 8] _)).trans
    (sends_xfer (hdr c false false c.regFreq1) [w.extractLsb' 8 8] _)).trans
    (sends_xfer (hdr c false false c.regFreq0) [w.extractLsb' 0 8] _)
  rw [← hdr_strobe c c.regFreq2, ← hdr_strobe c c.regFreq1, ← hdr_strobe c c.regFreq0]
  exact sent

/-- SetFreqCore (R160). -/
theorem run_setFreq (c : Cfg) (f : Word) (s : State) :
    ∃ u, (setFreqCore c f).run s = ((), u) ∧
      Sends [([0#2 ++ c.regFreq2, (freqWordCore c f).extractLsb' 16 8], s.regs.now),
        ([0#2 ++ c.regFreq1, (freqWordCore c f).extractLsb' 8 8], s.regs.now),
        ([0#2 ++ c.regFreq0, (freqWordCore c f).extractLsb' 0 8], s.regs.now)] s u ∧
      u.regs = { s.regs with freqWord := freqWordCore c f } ∧ u.ram = s.ram ∧ u.status.att = s.status.att ∧
      u.status.disc = s.status.disc := by
  rw [setFreqCore_eq]
  exact run_setWord c _ s

/-- ApplyTable (R149): its entries in increasing order of address. -/
theorem run_table (c : Cfg) (t : List (ChipAddr × Byte)) (s : State) :
    ∃ (u : State) (order : List (ChipAddr × Byte)), (applyTable c t).run s = ((), u) ∧ order.Perm t ∧ order.Pairwise (fun a b => a.1.toNat ≤ b.1.toNat) ∧
      Sends (order.map fun e => ([0#2 ++ e.1, substFreq c (s.regs.freqWord.zeroExtend 32) e.1 e.2], s.regs.now)) s u ∧
      u.regs = s.regs ∧ u.ram = s.ram ∧ u.status.att = s.status.att ∧ u.status.disc = s.status.disc := by
  obtain ⟨u, h1, h2, h3, h4, h5, h6⟩ := run_writeEntries c (inAddressOrder t) s
  simp only [hdr_strobe] at h6
  exact ⟨u, _, h1, inAddressOrder_perm t, inAddressOrder_sorted t, h6, h2, h3, h4, h5⟩

/-- RInitCore (R260): the exchanges in order with their times, the registers, and all it leaves alone. -/
theorem run_rinit (c : Cfg) (f : Word) (s : State) :
    ∃ (u : State) (order : List (ChipAddr × Byte)), (rinitCore c f).run s = ((), u) ∧ order.Perm c.presetDefault ∧
      order.Pairwise (fun a b => a.1.toNat ≤ b.1.toNat) ∧ Sends (rinitXfers c f s.regs.now order) s u ∧
      u.regs = { s.regs with
        freqWord := freqWordCore c f
        now := s.regs.now + BitVec.ofNat 32 (3 * c.settleMs) } ∧
      u.ram = s.ram ∧ u.status.att = s.status.att ∧ u.status.disc = s.status.disc := by
  obtain ⟨t, h1, h2, h3, h4, h5, h6⟩ := run_reset c s
  obtain ⟨v, g1, g2, g3, g4, g5, g6⟩ := run_setFreq c f t
  obtain ⟨u, order, k1, k2, k3, k4, k5, k6, k7, k8⟩ := run_table c c.presetDefault v
  have hv : v.regs = { s.regs with
      freqWord := freqWordCore c f
      now := s.regs.now + BitVec.ofNat 32 (3 * c.settleMs) } := by rw [g3, h3]
  refine ⟨u, order, ?_, k2, k3, ?_, k5.trans hv, k6.trans (g4.trans h4), k7.trans (g5.trans h5), k8.trans (g6.trans h6)⟩
  · simp only [rinitCore, Prog.run_andThen, h1, g1, k1]
  · have := (h2.trans g2).trans k4
    rw [hv, h3] at this
    exact this

/-! ### The parts of an attempt -/

/-- What a part of an attempt leaves: `e` ms elapse; no register changes but NOW and the reading registers; DISC, the stores
and the publications stay; and so does every RAM byte outside `W`. -/
structure Mid (W : Nat → Prop) (e : Nat) (s u : State) : Prop where
  regs : u.regs = { s.regs with now := s.regs.now + BitVec.ofNat 32 e, rdIndex := u.regs.rdIndex, rdMisc := u.regs.rdMisc }
  disc : u.status.disc = s.status.disc
  stores : storesOf u.history = storesOf s.history
  pubs : publishesOf u.history = publishesOf s.history
  ram : ∀ a, ¬ W a → u.ram.byte a = s.ram.byte a

/-- Nothing done. -/
theorem Mid.refl (s : State) : Mid (fun _ => False) 0 s s := ⟨by simp, rfl, rfl, rfl, fun _ _ => rfl⟩

/-- One part after another. -/
theorem Mid.trans {W W' e e'} {s t u : State} (h : Mid W e s t) (g : Mid W' e' t u) : Mid (fun a => W a ∨ W' a) (e + e') s u := by
  refine ⟨?_, g.disc.trans h.disc, g.stores.trans h.stores, g.pubs.trans h.pubs, fun a ha => (g.ram a fun x => ha (.inr x)).trans (h.ram a fun x => ha (.inl x))⟩
  rw [g.regs, h.regs]; simp [BitVec.ofNat_add, BitVec.add_assoc]

/-- A wider region, and the same time. -/
theorem Mid.mono {W W' : Nat → Prop} {e e'} {s u : State} (h : Mid W e s u) (hw : ∀ a, W a → W' a) (he : e = e') : Mid W' e' s u :=
  ⟨he ▸ h.regs, h.disc, h.stores, h.pubs, fun a ha => h.ram a fun x => ha (hw a x)⟩

/-- An exchange. -/
theorem mid_xfer (hd tl) (s : State) : Mid (fun _ => False) 0 s (doXfer hd tl s).2 :=
  ⟨by simp, rfl, by simp [storesOf_append, storesOf_xfer, storesOf_nil], by simp [publishesOf_append, publishesOf_xfer, publishesOf_nil], fun _ _ => rfl⟩

/-- A delay. -/
theorem mid_elapse (n) (s : State) : Mid (fun _ => False) n s (elapse n s) := ⟨rfl, rfl, rfl, rfl, fun _ _ => rfl⟩

/-- A write of ATT_STATE. -/
theorem mid_att (x) (s : State) : Mid (fun _ => False) 0 s (writeDst (.att x) s) := ⟨by simp [writeDst], rfl, rfl, rfl, fun _ _ => rfl⟩

/-- A write of RD_INDEX. -/
theorem mid_rdi (x) (s : State) : Mid (fun _ => False) 0 s (writeDst (.rdIndex x) s) := ⟨by simp [writeDst], rfl, rfl, rfl, fun _ _ => rfl⟩

/-- A write of RD_MISC. -/
theorem mid_rdm (x) (s : State) : Mid (fun _ => False) 0 s (writeDst (.rdMisc x) s) := ⟨by simp [writeDst], rfl, rfl, rfl, fun _ _ => rfl⟩

/-- A RAM write. -/
theorem mid_write (off) (l : List Byte) (s : State) : Mid (fun a => off ≤ a ∧ a < off + l.length) 0 s (memWrite off l s) :=
  ⟨by simp [memWrite], rfl, rfl, rfl, fun a ha => byte_write_outside _ _ _ _ (by omega)⟩

/-- A RAM read. -/
theorem mid_read (off n) (s : State) : Mid (fun _ => False) 0 s (memRead off n s).2 := ⟨by simp [memRead], rfl, rfl, rfl, fun _ _ => rfl⟩

/-- The writes of a register table. -/
theorem mid_table (c t) (s : State) : Mid (fun _ => False) 0 s ((applyTable c t).run s).2 := by
  have : ∀ l (s : State), Mid (fun _ => False) 0 s ((writeEntries c l).run s).2 := by
    intro l; induction l with
    | nil => exact Mid.refl
    | cons e r ih =>
      obtain ⟨a, v⟩ := e
      intro s
      exact ((mid_xfer (hdr c false false a) [substFreq c (s.regs.freqWord.zeroExtend 32) a v] s).trans (ih _)).mono (by simp) rfl
  exact this _ s

/-- A GDO sample. -/
theorem mid_edge (lvl : Bool) (s : State) : Mid (fun _ => False) 0 s ((edgePoll lvl).run s).2 := by
  rw [run_edgePoll]
  exact ⟨by simp [emit], rfl, by simp [emit, storesOf_append, storesOf_gdo, storesOf_nil], by simp [emit, publishesOf_append, publishesOf_gdo, publishesOf_nil], fun _ _ => rfl⟩

/-- A bounded poll takes at most its budget (R144). -/
theorem poll_mid (pred : Prog Bool) (i t : Nat) (hi : 1 ≤ i) (ht : t < 2^32) (hp : ∀ u, Mid (fun _ => False) 0 u (pred.run u).2) (s : State) :
   ∃ e, e ≤ t ∧ Mid (fun _ => False) e s ((pollUntil pred i t).run s).2 := by
  have hnow : ∀ u, (pred.run u).2.regs.now = u.regs.now := fun u => by rw [(hp u).regs]; simp
  obtain ⟨e, u, he, hJ, hn, hr, _⟩ := run_pollUntil pred i t hi ht (fun e u => e ≤ t ∧ Mid (fun _ => False) e s u) s ⟨by omega, Mid.refl s⟩ hnow (by
    rintro e u ⟨he, hm⟩ hlt _
    exact ⟨by omega, ((hm.trans (hp u)).trans (mid_elapse _ _)).mono (by simp) (by omega)⟩)
  refine ⟨e, he, ?_⟩
  rw [hr]
  exact (hJ.2.trans (hp u)).mono (by simp) rfl

/-- The times of a well-formed configuration (R13 g). -/
theorem wf_times {c : Cfg} (h : cfgWf c = true) : c.statePollMs ≤ 65535 ∧ c.waitStateMs ≤ 65535 ∧ c.edgePollMs ≤ 65535 ∧
    c.fifoPollMs ≤ 65535 ∧ c.ackTmoMs ≤ 65535 ∧ c.respTmoMs ≤ 65535 ∧ 1 ≤ c.statePollMs ∧ 1 ≤ c.edgePollMs ∧
    1 ≤ c.fifoPollMs := by
  simp only [cfgWf, Bool.and_eq_true, cfgTimesOk, List.all_cons, List.all_nil, decide_eq_true_eq, Bool.and_true] at h
  obtain ⟨_, _, _, _, h, _⟩ := h
  omega

/-- The capture lengths of a well-formed configuration (R13 d). -/
theorem wf_len {c : Cfg} (h : cfgWf c = true) : 1 ≤ c.ackRawLen ∧ c.ackRawLen ≤ 1537 ∧ 1 ≤ c.respRawLen ∧
    c.respRawLen ≤ 1537 := by
  have hl := (wf_layout h).2.2.2.2.2.2
  simp only [cfgWf, Bool.and_eq_true, cfgLengthsOk, decide_eq_true_eq] at h
  omega

/-- A burst of a well-formed configuration is at most 127 bytes (log 24). -/
theorem wf_burst {c : Cfg} (h : cfgWf c = true) : c.occMask.toNat ≤ 127 := by
  simp only [cfgWf, Bool.and_eq_true, cfgBurstOk, decide_eq_true_eq] at h
  exact h.2.2.2.2.2.2.2

/-- A state wait of an attempt (R145). -/
theorem wait_state_mid {c : Cfg} (h : cfgWf c = true) (target) (s : State) :
   ∃ e, e ≤ c.waitStateMs ∧ Mid (fun _ => False) e s ((waitStateCore c target c.waitStateMs).run s).2 := by
  have := wf_times h
  exact poll_mid _ _ _ this.2.2.2.2.2.2.1 (by omega) (fun u => by rw [run_statePoll]; exact mid_xfer _ _ _) s

/-- An edge wait of an attempt (R146). -/
theorem wait_edge_mid {c : Cfg} (h : cfgWf c = true) (l) (t) (ht : t ≤ 65535) (s : State) :
   ∃ e, e ≤ t ∧ Mid (fun _ => False) e s ((waitEdgeCore c l t).run s).2 := by
  have := wf_times h
  exact poll_mid _ _ _ this.2.2.2.2.2.2.2.1 (by omega) (fun u => mid_edge _ _) s

/-- RAM holds the bytes `l` from offset `off` on. -/
def Holds (off : Nat) (l : List Byte) (s : State) : Prop := ∀ k (h : k < l.length), s.ram.byte (off + k) = some l[k]

/-- Bytes outside the written region stay held. -/
theorem holds_mid {W e} {s u : State} {off l} (h : Holds off l s) (g : Mid W e s u) (hw : ∀ a, W a → a < off ∨ off + l.length ≤ a) : Holds off l u := by
  intro k hk
  rw [g.ram _ (fun x => by have := hw _ x; omega)]; exact h k hk

/-- A RAM write leaves its bytes held. -/
theorem holds_write (off l) (s : State) : Holds off l (memWrite off l s) := fun _ hk => byte_write_inside _ _ _ _ hk

/-- Two ranges held, one after the other. -/
theorem holds_append {off l m} {s : State} (h : Holds off l s) (g : Holds (off + l.length) m s) : Holds off (l ++ m) s := by
  intro k hk
  by_cases h1 : k < l.length
  · rw [List.getElem_append_left h1]; exact h k h1
  · rw [List.getElem_append_right (by omega)]
    have := g (k - l.length) (by rw [List.length_append] at hk; omega)
    rw [← this]; congr 1; omega

/-- The empty range. -/
theorem holds_nil (off) (s : State) : Holds off [] s := fun k h => absurd h (by simp)

/-- The exchanges of a drain's rounds are exchanges. -/
theorem rounds_xfers (c : Cfg) (T : Nat) (t : Word) (rounds : List DrainRound) :
    ∀ ev ∈ roundsEvents c T t rounds, ∃ out answer now, ev = Event.xfer out answer now := by
  intro ev hev
  simp only [roundsEvents, List.mem_flatMap, DrainRound.events, List.mem_cons] at hev
  obtain ⟨r, _, rfl | h⟩ := hev
  · exact ⟨_, _, _, rfl⟩
  · split at h
    · cases h
    · rw [List.mem_singleton.mp h]; exact ⟨_, _, _, rfl⟩

/-- A drain's rounds as a part of an attempt. -/
theorem DrainedTo.mid {c : Cfg} {n off e T : Nat} {rounds : List DrainRound} {s u : State}
    (h : DrainedTo c n off rounds e (roundsEvents c T s.regs.now rounds) s u) :
    Mid (fun a => off ≤ a ∧ a < off + (captured rounds).length) e s u ∧ Holds off (captured rounds) u := by
  obtain ⟨h1, h2⟩ := only_xfers (rounds_xfers c T s.regs.now rounds)
  refine ⟨⟨by rw [h.regs], h.disc, ?_, ?_, fun a ha => ?_⟩, fun k hk => ?_⟩
  · rw [h.history, storesOf_append, h1, List.append_nil]
  · rw [h.history, publishesOf_append, h2, List.append_nil]
  · rw [h.ram, byte_write_outside _ _ _ _ (by omega)]
  · rw [h.ram, byte_write_inside _ _ _ _ hk]

/-- A capture of an attempt (R159): what it takes, writes, records and answers. -/
theorem drain_mid {c : Cfg} (h : cfgWf c = true) (t n : Nat) (hn : 1 ≤ n) (hl : n ≤ 1537) (ht : t ≤ 65535) (s : State) :
    ∃ e raw r u, e ≤ t ∧ (drainCore c t n c.rxrBase).run s = (r, u) ∧ raw.length < n + max 1 c.occMask.toNat ∧
      Mid (fun a => 0x180 ≤ a ∧ a < 0x180 + raw.length) e s u ∧ Holds 0x180 raw u ∧
      ((r = ⟨raw.length, .ok, raw.length⟩ ∧ n ≤ raw.length ∧ Did (.drains c t n (some raw)) s u) ∨
       (r = ⟨0, .timeout, raw.length⟩ ∧ Did (.drains c t n none) s u)) := by
  have hi := (wf_times h).2.2.2.2.2.2.2.2
  obtain ⟨hram, _, _, _, _, hbase, _⟩ := wf_layout h
  have hb := wf_burst h
  obtain ⟨rounds, r, u, hrun, hcnt, hend⟩ := run_drain c t n c.rxrBase hi hn (by omega) s
  rw [hbase] at hrun hend ⊢
  rcases hend with ⟨h1, h2, h3, h4, h5, hd⟩ | ⟨h1, h2, h3, h4, hd⟩ | ⟨h1, h2, h3, h4, st, v, h5, _⟩
  · refine ⟨_, captured rounds, r, u, ?_, hrun, by omega, hd.mid.1, hd.mid.2, .inl ⟨?_, h3, hd.did h5 rfl ⟨rfl, h3⟩⟩⟩
    · omega
    · rw [← h1, ← h2]; cases r; simp only at *; rw [h2, hcnt]
  · have hlast := (lastRound_spec hi (rounds.length - 1) t).2
    refine ⟨_, captured rounds, r, u, Nat.le_refl _, hrun, by omega, hd.mid.1, hd.mid.2,
      .inr ⟨?_, hd.did (by omega) (by omega) ⟨h3, h4⟩⟩⟩
    cases r; simp only at *; rw [h1, h2, hcnt]
  · have : (v &&& c.occMask).toNat ≤ c.occMask.toNat := by rw [BitVec.toNat_and]; exact Nat.and_le_right
    omega

/-- The preamble takes its pacing, sends its chunks, and does nothing else (R264). -/
theorem preamble_mid (c : Cfg) (s : State) : Mid (fun _ => False) (c.preChunks * c.prePaceMs) s ((preamble c).run s).2 ∧
    Did (.seq (List.replicate c.preChunks
      (.seq [.bursts c c.fifoAddr (List.replicate c.preChunkLen c.preByte), .passes c.prePaceMs]))) s
      ((preamble c).run s).2 := by
  have : ∀ n (s : State), Mid (fun _ => False) (n * c.prePaceMs) s ((Prog.times n ((xbw c c.fifoAddr
        (List.replicate c.preChunkLen c.preByte)).andThen (pDelay c.prePaceMs))).run s).2 ∧
      Did (.seq (List.replicate n
        (.seq [.bursts c c.fifoAddr (List.replicate c.preChunkLen c.preByte), .passes c.prePaceMs]))) s
        ((Prog.times n ((xbw c c.fifoAddr (List.replicate c.preChunkLen c.preByte)).andThen (pDelay c.prePaceMs))).run s).2 := by
    intro n
    induction n with
    | zero => intro s; rw [Nat.zero_mul]; exact ⟨Mid.refl s, did_nothing rfl rfl⟩
    | succ n ih =>
      intro s
      rw [Prog.run_times_succ]
      simp only [Prog.run_andThen, run_xbw, run_pDelay]
      obtain ⟨h1, h2⟩ := ih (elapse c.prePaceMs
        (doXfer (hdr c false true c.fifoAddr) (List.replicate c.preChunkLen c.preByte) s).2)
      exact ⟨(((mid_xfer _ _ _).trans (mid_elapse _ _)).trans h1).mono (by simp) (by rw [Nat.succ_mul]; omega),
        ((did_xfer _ _ _).cons (did_elapse _ _).one).cons h2⟩
  exact this c.preChunks s

/-- The frame is staged at offset 0, and what is sent after it (R263). -/
theorem send_mid {c : Cfg} (h : cfgWf c = true) (s : State) :
    Mid (fun a => a < 33) c.frameHoldMs s ((sendRequest c).run s).2 ∧
    Holds 0 (reqFrame c s.regs.meterId) ((sendRequest c).run s).2 ∧
    Did (.seq [.bursts c c.fifoAddr (reqFrame c s.regs.meterId), .passes c.frameHoldMs, .strobes c c.sFtx,
      .writesTable c s.regs.freqWord c.presetDefault]) s ((sendRequest c).run s).2 := by
  obtain ⟨f, hf⟩ : ∃ f, f = reqFrame c s.regs.meterId := ⟨_, rfl⟩
  have hlen : f.length = frameLen := hf ▸ length_reqFrame c _
  obtain ⟨b, hb, hbf⟩ : ∃ b : Bytes frameLen, memRead 0 frameLen (memWrite 0 f s) = (b, memWrite 0 f s) ∧ b.1 = f := by
    have h1 := readBytes_written (m := s.ram.write 0 f) 0 f (fun k hk => byte_write_inside _ _ _ _ hk) s.oracle
    rw [hlen] at h1
    refine ⟨_, Prod.ext rfl ?_, h1.1⟩
    show { memWrite 0 f s with oracle := (readBytes (s.ram.write 0 f) 0 frameLen s.oracle).2 } = memWrite 0 f s
    rw [h1.2]; rfl
  simp only [sendRequest, Prog.run_bind, Prog.run_andThen, run_pRead, readSrc, run_pMemWrite, run_pMemRead, run_xbw,
    run_pDelay, run_xs, (wf_layout h).2.1, ← hf, hb, hbf]
  have m1 := mid_write 0 f s
  rw [hlen] at m1
  have m2 := (((mid_xfer (hdr c false true c.fifoAddr) f (memWrite 0 f s)).trans (mid_elapse c.frameHoldMs _)).trans
    (mid_xfer (hdr c false false c.sFtx) [] _)).trans (mid_table c c.presetDefault _)
  refine ⟨(m1.trans m2).mono (by intro a; simp) (by omega), holds_mid (holds_write _ _ _) m2 (by simp), ?_⟩
  exact ((did_xfer _ _ _).congr (s' := s) rfl rfl rfl rfl).cons <| (did_elapse _ _).cons <| (did_xfer _ _ _).cons
    (did_table c c.presetDefault _).one

/-- Replacing a byte of RD_MISC, bit by bit (R40). -/
theorem setMiscByte_bit (k : Nat) (b : Byte) (w : Word) (hk : k < 4) (i : Nat) (hi : i < 32) :
    (setMiscByte k b w).getLsbD i = if 8 * k ≤ i ∧ i < 8 * k + 8 then b.getLsbD (i - 8 * k) else w.getLsbD i := by
  have hff : ∀ j, (0xFF#32).getLsbD j = decide (j < 8) := by
    intro j
    by_cases h : j < 32
    · have : ∀ j : Fin 32, (0xFF#32).getLsbD j = decide (j.1 < 8) := by decide
      exact this ⟨j, h⟩
    · rw [BitVec.getLsbD_of_ge _ _ (by omega)]; simp; omega
  unfold setMiscByte
  rw [BitVec.getLsbD_or, BitVec.getLsbD_and, BitVec.getLsbD_not, BitVec.getLsbD_shiftLeft, BitVec.getLsbD_shiftLeft, hff]
  change (_ || (_ && _ && (b.setWidth 32).getLsbD (i - 8 * k))) = _
  rw [BitVec.getLsbD_setWidth]
  by_cases h1 : i < 8 * k
  · simp [h1, hi, show ¬ (8 * k ≤ i) by omega]
  · by_cases h2 : i < 8 * k + 8
    · simp [h1, h2, hi, show 8 * k ≤ i by omega, show i - 8 * k < 8 by omega, show i - 8 * k < 32 by omega]
    · simp [h1, h2, hi, show 8 * k ≤ i by omega, show ¬ i - 8 * k < 8 by omega, BitVec.getLsbD_of_ge b (i - 8 * k) (by omega)]

/-- Four byte writes make the whole of RD_MISC (R250). -/
theorem misc_chain (a b c d : Byte) (w : Word) :
    setMiscByte 3 d (setMiscByte 2 c (setMiscByte 1 b (setMiscByte 0 a w))) = (d ++ c ++ b ++ a : BitVec 32) := by
  apply BitVec.eq_of_getLsbD_eq
  intro i hi
  rw [setMiscByte_bit 3 _ _ (by omega) i hi, setMiscByte_bit 2 _ _ (by omega) i hi, setMiscByte_bit 1 _ _ (by omega) i hi, setMiscByte_bit 0 _ _ (by omega) i hi]
  change _ = (d ++ c ++ b ++ a : BitVec (8+8+8+8)).getLsbD i
  rw [BitVec.getLsbD_append, BitVec.getLsbD_append, BitVec.getLsbD_append]
  by_cases h0 : i < 8
  · simp [h0, show ¬ (24 ≤ i) by omega, show ¬ (16 ≤ i) by omega, show ¬ (8 ≤ i) by omega]
  · by_cases h1 : i < 16
    · simp [h0, h1, show ¬ (24 ≤ i) by omega, show ¬ (16 ≤ i) by omega, show (8 ≤ i) by omega, show i - 8 < 8 by omega]
    · by_cases h2 : i < 24
      · simp [h0, h1, h2, show ¬ (24 ≤ i) by omega, show (16 ≤ i) by omega, show ¬ i - 8 < 8 by omega, show i - 8 - 8 = i - 16 by omega, show i - 16 < 8 by omega]
      · simp [h0, h1, h2, hi, show (24 ≤ i) by omega, show ¬ i - 8 < 8 by omega, show i - 8 - 8 = i - 16 by omega, show ¬ i - 16 < 8 by omega, show i - 16 - 8 = i - 24 by omega]

/-- A field byte as an element of the list read. -/
theorem fieldByte_getD (b : Bytes extractLen) (k : Fin extractLen) : fieldByte b k = b.1.getD k.val 0 := by
  unfold fieldByte
  rw [List.getD_eq_getElem?_getD, List.getElem?_eq_getElem (by rw [b.2]; exact k.isLt)]; rfl

theorem indexOf_getD (c : Cfg) (b : Bytes extractLen) : indexOf c b = indexAt c b.1 := by
  simp only [indexOf, indexByte, fieldByte_getD, indexAt]; rfl

/-- The fields come from the first 49 bytes. -/
theorem fields_congr (c : Cfg) {l m : List Byte} (h : ∀ k, k < 49 → l.getD k 0 = m.getD k 0) :
    indexAt c l = indexAt c m ∧ miscAt c l = miscAt c m := by
  have hi := c.offIndex.isLt
  simp only [indexAt, miscAt, h _ c.offBattery.isLt, h _ c.offWakeStart.isLt, h _ c.offWakeStop.isLt, h _ c.offReads.isLt,
    h _ (show c.offIndex.val + 3 < 49 by omega), h _ (show c.offIndex.val + 2 < 49 by omega),
    h _ (show c.offIndex.val + 1 < 49 by omega), h _ (show c.offIndex.val < 49 by omega), and_self]

/-- ExtractCore on too few bytes (R250). -/
theorem run_extract_short (c : Cfg) (src d : Nat) (s : State) (h : d < c.minDecoded) : (extractCore c src d).run s =
    (false, { s with regs := { s.regs with rdIndex := 0#32, rdMisc := 0#32 } }) := by
  simp [extractCore, h, writeDst]

/-- ExtractCore on enough bytes (R250). -/
theorem run_extract (c : Cfg) (src d : Nat) (s : State) (h : c.minDecoded ≤ d) :
    ∃ (b : Bytes 49) (o : Oracle), memRead src 49 s = (b, { s with oracle := o }) ∧ (extractCore c src d).run s =
      (true, { s with oracle := o, regs := { s.regs with rdIndex := indexAt c b.1, rdMisc := miscAt c b.1 } }) := by
  refine ⟨_, _, rfl, ?_⟩
  have hd : ¬ d < c.minDecoded := by omega
  simp only [extractCore, if_neg hd, Prog.run_andThen, run_pWrite, Prog.run_bind, run_pMemRead, Prog.run_pure, writeDst,
    memRead, misc_chain, indexOf_getD, fieldByte_getD, miscAt]

/-- What the Decoding phase leaves, from the captured bytes `raw` on (R268, R269). -/
structure Dec (c : Cfg) (raw : List Byte) (s u : State) (a : Attempt) (out : List Byte) : Prop where
  hout : out = (decodeCore raw (osrFactor c.respOsr) 256).1
  nr : a.nr = raw.length
  d : a.d = out.length
  hr : Holds 0x180 raw u
  hd : Holds 0x80 (out ++ List.replicate (256 - out.length) 0x00#8) u
  regs : u.regs = { s.regs with rdIndex := u.regs.rdIndex, rdMisc := u.regs.rdMisc }
  disc : u.status.disc = s.status.disc
  ram : ∀ x, (x < 0x80 ∨ 0x180 ≤ x) → u.ram.byte x = s.ram.byte x
  fin : (a.code = .ok ∧ u.status.att = .success ∧ c.minDecoded ≤ out.length ∧
          (indexAt c out ≠ 0#32 ∨ miscAt c out ≠ 0#32) ∧ u.regs.rdIndex = indexAt c out ∧ u.regs.rdMisc = miscAt c out ∧
          u.history = s.history ++ [.publish (indexAt c out) ((miscAt c out).extractLsb' 0 8)
            ((miscAt c out).extractLsb' 8 8) ((miscAt c out).extractLsb' 16 8) ((miscAt c out).extractLsb' 24 8)]) ∨
        (a.code = .malformed ∧ u.status.att = .failed ∧ out.length < c.minDecoded ∧ u.regs.rdIndex = 0#32 ∧
          u.regs.rdMisc = 0#32 ∧ u.history = s.history) ∨
        (a.code = .zeroReading ∧ u.status.att = .failed ∧ c.minDecoded ≤ out.length ∧ indexAt c out = 0#32 ∧
          miscAt c out = 0#32 ∧ u.regs.rdIndex = 0#32 ∧ u.regs.rdMisc = 0#32 ∧ u.history = s.history)

/-- Reading held bytes takes no draw. -/
theorem memRead_held {off : Nat} {l : List Byte} {s : State} (h : Holds off l s) : memRead off l.length s = (⟨l, rfl⟩, s) := by
  have h := readBytes_written off l h s.oracle
  unfold memRead
  refine Prod.ext (Subtype.ext h.1) ?_
  show { s with oracle := _ } = s
  rw [h.2]

/-- Zero padding reads as the default. -/
theorem getD_pad (out : List Byte) (n k : Nat) : (out ++ List.replicate n 0x00#8).getD k 0x00#8 = out.getD k 0x00#8 := by
  simp only [List.getD_eq_getElem?_getD]
  by_cases h : k < out.length
  · rw [List.getElem?_append_left h]
  · rw [List.getElem?_append_right (by omega), List.getElem?_replicate, List.getElem?_eq_none (by omega : out.length ≤ k)]
    split <;> rfl

/-- Reading a first part of held bytes. -/
theorem memRead_prefix {off n : Nat} {l : List Byte} {s : State} (h : Holds off l s) (hn : n ≤ l.length) :
    ∃ b : Bytes n, memRead off n s = (b, s) ∧ ∀ k, k < n → b.1.getD k 0x00#8 = l.getD k 0x00#8 := by
  have hl : (l.take n).length = n := by rw [List.length_take]; omega
  have h2 : Holds off (l.take n) s := fun k hk => by rw [List.getElem_take]; exact h k (by rw [hl] at hk; omega)
  have := memRead_held h2
  generalize hq : l.take n = q at *
  subst hl
  refine ⟨_, this, ?_⟩
  intro k hk
  rw [← hq]
  simp only [List.getD_eq_getElem?_getD, List.getElem?_take, if_pos hk]

/-- The values `Fail(c)` and the success give ATT_STATE. -/
theorem attWrites_fail (code : ResultCode) (nr d : Nat) (s : State) : (attemptFail code nr d).attWrites s = [.failed] := rfl

theorem attWrites_success (nr d : Nat) (s : State) : (attemptSuccess nr d).attWrites s = [.success] := rfl

theorem noAtt_extract (c : Cfg) (src d : Nat) : (extractCore c src d).All Prim.NoAtt :=
  all_extractCore (fun p hp => by
    cases p with
    | write d => cases d <;> first | rfl | exact hp.elim
    | _ => rfl) c src d

/-- The Decoding phase (R268, R269). -/
theorem decode_phase {c : Cfg} (h : cfgWf c = true) (raw : List Byte) (s : State) (hh : Holds 0x180 raw s) :
    ∃ u a out, (attemptDecode c raw.length).run s = (a, u) ∧ Dec c raw s u a out ∧
      (attemptDecode c raw.length).attWrites s = [.decoding, if a.code = .ok then .success else .failed] := by
  obtain ⟨_, _, _, hdecr, hcap, hrxr, _⟩ := wf_layout h
  generalize ho : (decodeCore raw (osrFactor c.respOsr) 256).1 = out
  have hlen : out.length ≤ 256 := ho ▸ length_decodeCore_le _ _ _
  obtain ⟨z, hz⟩ : ∃ z, z = List.replicate 256 0x00#8 := ⟨_, rfl⟩
  have hzl : z.length = 256 := by rw [hz, List.length_replicate]
  have hzg : ∀ k (h : k < z.length), z[k] = 0x00#8 := by intro k h; subst hz; exact List.getElem_replicate _
  generalize hs1 : memWrite 0x80 out (memWrite 0x80 z (writeDst (.att .decoding) s)) = s1
  have hh' : Holds 0x180 raw (writeDst (.att .decoding) s) := hh
  let ending : Prog Attempt := (extractCore c 0x80 out.length).bind fun okay =>
    if okay then readingZero.bind fun zero =>
      if zero then attemptFail .zeroReading raw.length out.length else attemptSuccess raw.length out.length
    else attemptFail .malformed raw.length out.length
  have hrun : (attemptDecode c raw.length).run s = ending.run s1 ∧
      (attemptDecode c raw.length).attWrites s = .decoding :: ending.attWrites s1 := by
    have hread := memRead_held hh'
    constructor
    · simp only [attemptDecode, Prog.run_andThen, run_pWrite, Prog.run_bind, run_pMemRead, run_pMemWrite, hrxr, hread]
      simp only [hcap, hdecr, ho, ← hs1, ← hz, ending, Prog.run_bind]
    · simp only [attemptDecode, Prog.attWrites_andThen, Prog.attWrites_bind, Prog.run_andThen, run_pWrite, Prog.run_bind,
        run_pMemRead, run_pMemWrite, hrxr, hread, hcap, hdecr, ho, ← hs1, ← hz, ending]
      rfl
  have hram : s1.ram = (s.ram.write 0x80 z).write 0x80 out := by subst hs1; rfl
  have hout : Holds 0x80 (out ++ List.replicate (256 - out.length) 0x00#8) s1 := by
    refine holds_append (fun k hk => by rw [hram]; exact byte_write_inside _ _ _ _ hk) ?_
    intro k hk
    rw [List.length_replicate] at hk
    rw [hram, byte_write_outside _ _ _ _ (by omega), show 0x80 + out.length + k = 0x80 + (out.length + k) by omega,
      byte_write_inside _ _ _ _ (by omega), hzg]
    simp
  have hraw1 : Holds 0x180 raw s1 := by
    intro k hk
    rw [hram, byte_write_outside _ _ _ _ (by omega), byte_write_outside _ _ _ _ (by omega)]; exact hh k hk
  have hram1 : ∀ x, (x < 0x80 ∨ 0x180 ≤ x) → s1.ram.byte x = s.ram.byte x := by
    intro x hx
    rw [hram, byte_write_outside _ _ _ _ (by omega), byte_write_outside _ _ _ _ (by omega)]
  have hregs1 : s1.regs = s.regs := by subst hs1; rfl
  have hhist1 : s1.history = s.history := by subst hs1; rfl
  have hdisc1 : s1.status.disc = s.status.disc := by subst hs1; rfl
  have hatt : ending.attWrites s1 = (if ((extractCore c 0x80 out.length).run s1).1 then readingZero.bind fun zero =>
      if zero then attemptFail .zeroReading raw.length out.length else attemptSuccess raw.length out.length
    else attemptFail .malformed raw.length out.length).attWrites ((extractCore c 0x80 out.length).run s1).2 := by
    rw [Prog.attWrites_bind, Prog.attWrites_none (noAtt_extract ..), List.nil_append]
  clear hs1
  by_cases hd : out.length < c.minDecoded
  · have he := run_extract_short c 0x80 out.length s1 hd
    rw [he] at hatt
    have hfin : ending.run s1 = (⟨.malformed, raw.length, out.length⟩,
        writeDst (.att .failed) { s1 with regs := { s1.regs with rdIndex := 0#32, rdMisc := 0#32 } }) := by
      rw [Prog.run_bind, he]; rfl
    refine ⟨_, _, out, hrun.1.trans hfin, ?_, by rw [hrun.2, hatt]; rfl⟩
    exact ⟨ho.symm, rfl, rfl, hraw1, hout, by simp [writeDst, hregs1], hdisc1, hram1,
      .inr (.inl ⟨rfl, rfl, hd, rfl, rfl, hhist1⟩)⟩
  · obtain ⟨b, o, h1, h2⟩ := run_extract c 0x80 out.length s1 (by omega)
    obtain ⟨b', h3, h4⟩ := memRead_prefix (n := 49) hout (by rw [List.length_append, List.length_replicate]; omega)
    rw [h1] at h3
    obtain ⟨rfl, _⟩ := Prod.mk.inj h3
    obtain ⟨hi, hm⟩ := fields_congr c (l := b.1) (m := out) fun k hk => (h4 k hk).trans (getD_pad _ _ _)
    rw [hi, hm] at h2
    rw [h2] at hatt
    generalize hei : indexAt c out = index at *
    generalize hem : miscAt c out = misc at *
    have hgo : ending.run s1 = (readingZero.bind fun zero => if zero then attemptFail .zeroReading raw.length out.length
        else attemptSuccess raw.length out.length).run
        { s1 with oracle := o, regs := { s1.regs with rdIndex := index, rdMisc := misc } } := by
      rw [Prog.run_bind, h2]; rfl
    by_cases hz0 : index = 0#32 ∧ misc = 0#32
    · obtain ⟨hi0, hm0⟩ := hz0
      rw [hi0, hm0] at hgo hatt
      have hfin : ending.run s1 = (⟨.zeroReading, raw.length, out.length⟩, writeDst (.att .failed)
          { s1 with oracle := o, regs := { s1.regs with rdIndex := 0#32, rdMisc := 0#32 } }) := by rw [hgo]; rfl
      refine ⟨_, _, out, hrun.1.trans hfin, ?_, by rw [hrun.2, hatt]; rfl⟩
      exact ⟨ho.symm, rfl, rfl, hraw1, hout, by simp [writeDst, hregs1], hdisc1, hram1,
        .inr (.inr ⟨rfl, rfl, by omega, hei.trans hi0, hem.trans hm0, rfl, rfl, hhist1⟩)⟩
    · have hzf : (index == 0#32 && misc == 0#32) = false := by
        rw [Bool.eq_false_iff]; simpa using hz0
      have hfin : ending.run s1 = (⟨.ok, raw.length, out.length⟩, emit (.publish index (misc.extractLsb' 0 8)
          (misc.extractLsb' 8 8) (misc.extractLsb' 16 8) (misc.extractLsb' 24 8)) (writeDst (.att .success)
            { s1 with oracle := o, regs := { s1.regs with rdIndex := index, rdMisc := misc } })) := by
        rw [hgo]
        simp only [readingZero, Prog.run_bind, run_pRead, readSrc, Prog.run_pure, hzf]
        rfl
      refine ⟨_, _, out, hrun.1.trans hfin, ?_, ?_⟩
      · refine ⟨ho.symm, rfl, rfl, hraw1, hout, ?_, hdisc1, hram1, .inl ⟨rfl, rfl, by omega, ?_, hei.symm, hem.symm, ?_⟩⟩
        · simp [emit, writeDst, hregs1]
        · rw [hei, hem]
          by_cases hi0 : index = 0#32
          · exact .inr fun hm0 => hz0 ⟨hi0, hm0⟩
          · exact .inl hi0
        · rw [hei, hem]; simp [emit, writeDst, hhist1]
      · rw [hrun.2, hatt]
        simp only [if_true, readingZero, Prog.attWrites_bind, Prog.run_bind, run_pRead, readSrc, Prog.run_pure, hzf]
        rfl

/-! ### How an attempt ends (R262, R267) -/

/-- The bytes the captures of an attempt may write (R346). -/
def span (c : Cfg) (a : Nat) : Prop := 0x180 ≤ a ∧ a < 0x180 + max c.ackRawLen c.respRawLen + c.occMask.toNat

/-- `Fail(TIMEOUT)` before Decoding (R267). -/
structure Failed (s u : State) (a : Attempt) : Prop where
  ret : a = ⟨.timeout, 0, 0⟩
  att : u.status.att = .failed
  i0 : u.regs.rdIndex = 0#32
  m0 : u.regs.rdMisc = 0#32
  regs : u.regs = { s.regs with rdIndex := u.regs.rdIndex, rdMisc := u.regs.rdMisc }
  disc : u.status.disc = s.status.disc
  history : u.history = s.history
  ram : u.ram = s.ram

theorem fail_phase (s : State) : ∃ u a, (attemptFail .timeout 0 0).run s = (a, u) ∧ Failed s u a :=
  ⟨writeDst (.att .failed) (writeDst (.rdMisc 0#32) (writeDst (.rdIndex 0#32) s)), _, rfl,
    rfl, rfl, rfl, rfl, rfl, rfl, rfl, rfl⟩

/-- The end itself, from the state in which the attempt fails or has restored the default table. -/
def Final (c : Cfg) (ending : AttemptEnd) (s u : State) (a : Attempt) : Prop :=
  match ending with
  | .response raw => c.respRawLen ≤ raw.length ∧ ∃ out, Dec c raw s u a out
  | _ => Failed s u a

/-- The end of an attempt, at most `B` ms after `s`: the trace `T` of its ending is recorded, then it fails or decodes. -/
def Ended (c : Cfg) (W : Nat → Prop) (B : Nat) (T : AttemptEnd → Trace) (ending : AttemptEnd) (s u : State) (a : Attempt) :
    Prop :=
  ∃ e v, e ≤ B ∧ Mid W e s v ∧ Did (T ending) s v ∧ Final c ending v u a

/-- A part before the end. -/
theorem Ended.after {c : Cfg} {W W' : Nat → Prop} {B e B' : Nat} {T T' : AttemptEnd → Trace} {ending : AttemptEnd}
    {s t u : State} {a : Attempt} (h : Mid W e s t) (g : Ended c W' B T ending t u a) (hB : e + B ≤ B')
    (hT : ∀ v, Did (T ending) t v → Did (T' ending) s v) : Ended c (fun a => W a ∨ W' a) B' T' ending s u a := by
  obtain ⟨e', v, he, hm, hd, hf⟩ := g
  exact ⟨e + e', v, by omega, h.trans hm, hT v hd, hf⟩

/-- A wider region. -/
theorem Ended.mono {c : Cfg} {W W' : Nat → Prop} {B : Nat} {T : AttemptEnd → Trace} {ending : AttemptEnd} {s u : State}
    {a : Attempt} (g : Ended c W B T ending s u a) (hw : ∀ a, W a → W' a) : Ended c W' B T ending s u a := by
  obtain ⟨e', v, he, hm, hd, hf⟩ := g
  exact ⟨e', v, he, hm.mono hw rfl, hd, hf⟩

/-! ### The phases (R263 to R266) -/

/-- The two waits and the capture of a phase, then `f` on the capture, or `g` where a wait fails. -/
def listening {β : Type} (c : Cfg) (level : Bool) (t n : Nat) (f : Drained → Prog β) (g : Prog β) : Prog β :=
  (waitStateCore c c.stateRx c.waitStateMs).bind fun rx =>
    if rx.1 then
      (waitEdgeCore c level t).bind fun edge => if edge.1 then (drainCore c t n c.rxrBase).bind f else g
    else g

theorem noAtt_waitState (c : Cfg) (target : BitVec 3) (t : Nat) : (waitStateCore c target t).All Prim.NoAtt :=
  all_waitStateCore (fun _ _ => rfl) (fun _ => rfl) (fun _ => rfl) c target t

theorem noAtt_waitEdge (c : Cfg) (level : Bool) (t : Nat) : (waitEdgeCore c level t).All Prim.NoAtt :=
  all_waitEdgeCore (P := Prim.NoAtt) rfl (fun _ => rfl) (fun _ => rfl) (fun _ => rfl) c level t

theorem noAtt_drain (c : Cfg) (t n off : Nat) : (drainCore c t n off).All Prim.NoAtt :=
  all_drainCore (fun _ _ => rfl) (fun _ => rfl) (fun _ => rfl) c t n off fun _ _ _ _ _ => rfl

theorem noAtt_table (c : Cfg) (t : List (ChipAddr × Byte)) : (applyTable c t).All Prim.NoAtt :=
  all_applyTable (fun _ _ => rfl) (fun _ => rfl) c t

/-- The continuation a phase's waits and capture choose. -/
def chosen {β : Type} (f : Drained → Prog β) (g : Prog β) (r : Option Drained) : Prog β :=
  match r with
  | some d => f d
  | none => g

/-- The waits and the capture of a phase: what they take, record, capture and choose. -/
theorem listen_phase {c : Cfg} (h : cfgWf c = true) (level : Bool) (t n : Nat) (ht : t ≤ 65535) (h1 : 1 ≤ n)
    (hn : n ≤ max c.ackRawLen c.respRawLen) (s : State) :
    ∃ e u got r, e ≤ c.waitStateMs + 2 * t ∧ Mid (span c) e s u ∧ Did (.listens c level t n got) s u ∧
      (∀ (β : Type) (f : Drained → Prog β) (g : Prog β), (listening c level t n f g).run s = (chosen f g r).run u ∧
        (listening c level t n f g).attWrites s = (chosen f g r).attWrites u) ∧
      ((∃ raw, got = some raw ∧ r = some ⟨raw.length, .ok, raw.length⟩ ∧ n ≤ raw.length ∧ Holds 0x180 raw u) ∨
       (got = none ∧ (r = none ∨ ∃ k, r = some ⟨0, .timeout, k⟩))) := by
  have hw := wf_times h
  have hl := wf_len h
  have hb := wf_burst h
  obtain ⟨e1, he1, m1⟩ := wait_state_mid h c.stateRx s
  have d1 := did_polls c c.stateRx c.waitStateMs (by omega) (by omega) s
  have w1 : ∀ (β : Type) (f : Bool × Word → Prog β), ((waitStateCore c c.stateRx c.waitStateMs).bind f).attWrites s =
      (f ((waitStateCore c c.stateRx c.waitStateMs).run s).1).attWrites
        ((waitStateCore c c.stateRx c.waitStateMs).run s).2 := fun β f => by
    rw [Prog.attWrites_bind, Prog.attWrites_none (noAtt_waitState ..), List.nil_append]
  simp only [listening, Prog.run_bind, w1]
  generalize (waitStateCore c c.stateRx c.waitStateMs).run s = p at *
  obtain ⟨⟨rx, x⟩, s1⟩ := p
  cases rx with
  | false =>
    exact ⟨e1, s1, none, none, by omega, m1.mono (by simp) rfl, let ⟨l, a, b⟩ := d1; ⟨l, a, .inl b⟩,
      fun _ _ _ => ⟨rfl, rfl⟩, .inr ⟨rfl, .inl rfl⟩⟩
  | true =>
    simp only [if_true]
    obtain ⟨e2, he2, m2⟩ := wait_edge_mid h level t ht s1
    have d2 := did_samples c level t (by omega) (by omega) s1
    have w2 : ∀ (β : Type) (f : Bool × Word → Prog β), ((waitEdgeCore c level t).bind f).attWrites s1 =
        (f ((waitEdgeCore c level t).run s1).1).attWrites ((waitEdgeCore c level t).run s1).2 := fun β f => by
      rw [Prog.attWrites_bind, Prog.attWrites_none (noAtt_waitEdge ..), List.nil_append]
    simp only [Prog.run_bind, w2]
    generalize (waitEdgeCore c level t).run s1 = p at *
    obtain ⟨⟨hit, y⟩, s2⟩ := p
    cases hit with
    | false =>
      exact ⟨e1 + e2, s2, none, none, by omega, (m1.trans m2).mono (by simp) rfl,
        let ⟨l, a, b⟩ := Did.cons d1 d2.one; ⟨l, a, .inr (.inl b)⟩, fun _ _ _ => ⟨rfl, rfl⟩, .inr ⟨rfl, .inl rfl⟩⟩
    | true =>
      simp only [if_true]
      obtain ⟨e3, raw, r, u, he3, hr, hlt, m3, hh, hc⟩ := drain_mid h t n h1 (by omega) ht s2
      have w3 : ∀ (β : Type) (f : Drained → Prog β), ((drainCore c t n c.rxrBase).bind f).attWrites s2 =
          (f r).attWrites u := fun β f => by
        rw [Prog.attWrites_bind, Prog.attWrites_none (noAtt_drain ..), List.nil_append, hr]
      simp only [Prog.run_bind, w3, hr]
      have m := ((m1.trans m2).trans m3).mono (W' := span c) (by intro a ha; simp only [false_or] at ha; simp only [span]; omega) rfl
      rcases hc with ⟨h4, h5, d3⟩ | ⟨h4, d3⟩
      · exact ⟨_, u, some raw, some r, by omega, m, Did.cons d1 (Did.cons d2 d3.one), fun _ _ _ => ⟨rfl, rfl⟩,
          .inl ⟨raw, rfl, by rw [h4], h5, hh⟩⟩
      · exact ⟨_, u, none, some r, by omega, m,
          let ⟨l, a, b⟩ := Did.cons d1 (Did.cons d2 d3.one); ⟨l, a, .inr (.inr b)⟩, fun _ _ _ => ⟨rfl, rfl⟩,
          .inr ⟨rfl, .inr ⟨_, by rw [h4]⟩⟩⟩

/-- The trace of WaitingForResponse (R266). -/
def responseTrace (c : Cfg) (w : BitVec 24) : AttemptEnd → Trace
  | .noResponse => .seq (awaitResponse c w none)
  | .response raw => .seq (awaitResponse c w (some raw))
  | _ => fun _ _ _ => False

/-- The trace from WaitingForAck on (R265, R266). -/
def ackTrace (c : Cfg) (w : BitVec 24) : AttemptEnd → Trace
  | .noAck => .seq (awaitAck c w none)
  | .noResponse => fun t l u => ∃ ack, Trace.seq (awaitAck c w (some ack) ++ awaitResponse c w none) t l u
  | .response raw => fun t l u => ∃ ack, Trace.seq (awaitAck c w (some ack) ++ awaitResponse c w (some raw)) t l u
  | .noTx => fun _ _ _ => False

theorem captureResponse_eq (c : Cfg) : captureResponse c = listening c (!c.ackEdgeLevel) c.respTmoMs c.respRawLen
    (fun r => .pure (r.ret, r.code)) (.pure (0, .timeout)) := rfl

theorem attWrites_xs (c : Cfg) (code : ChipAddr) (s : State) : (xs c code).attWrites s = [] := rfl

theorem attWrites_table (c : Cfg) (t : List (ChipAddr × Byte)) (s : State) : (applyTable c t).attWrites s = [] :=
  Prog.attWrites_none (noAtt_table c t) s

/-- WaitingForResponse and what follows (R266). -/
theorem response_phase {c : Cfg} (h : cfgWf c = true) (s : State) :
    ∃ u a ending, (attemptResponse c).run s = (a, u) ∧
      (attemptResponse c).attWrites s = (attemptStates ending (decide (a.code = .ok))).drop 2 ∧
      Ended c (span c) (c.waitStateMs + 2 * c.respTmoMs) (responseTrace c s.regs.freqWord) ending s u a := by
  have ht := wf_times h
  have hl := wf_len h
  unfold attemptResponse
  simp only [Prog.attWrites_andThen, Prog.attWrites_bind, attWrites_pWrite_att, attWrites_xs, attWrites_table,
    Prog.run_andThen, run_pWrite, run_xs, Prog.run_bind, captureResponse_eq, List.nil_append]
  have m0 := (((mid_att .waitingForResponse s).trans (mid_table c c.presetData _)).trans
    (mid_xfer (hdr c false false c.sFrx) [] _)).trans (mid_xfer (hdr c false false c.sRx) [] _)
  have d0 := fun rest (u : State) (g : Did (.seq rest) _ u) =>
    Did.cons ((did_table c c.presetData (writeDst (.att .waitingForResponse) s)).congr (s' := s) rfl rfl rfl rfl) <|
    Did.cons (did_xfer (hdr c false false c.sFrx) [] _) <| Did.cons (did_xfer (hdr c false false c.sRx) [] _) g
  generalize (doXfer (hdr c false false c.sRx) [] _).2 = s1 at *
  obtain ⟨e, s2, got, r, he, m1, d1, hch, hc⟩ := listen_phase h (!c.ackEdgeLevel) c.respTmoMs c.respRawLen (by omega)
    (by omega) (Nat.le_max_right _ _) s1
  obtain ⟨hrun, hatt⟩ := hch (Nat × ResultCode) (fun r => .pure (r.ret, r.code)) (.pure (0, .timeout))
  obtain ⟨k, hk, hc⟩ : ∃ k : Nat × ResultCode,
      chosen (fun r : Drained => Prog.pure (r.ret, r.code)) (.pure (0, .timeout)) r = .pure k ∧
      ((∃ raw, got = some raw ∧ k = (raw.length, .ok) ∧ c.respRawLen ≤ raw.length ∧ Holds 0x180 raw s2) ∨
        (got = none ∧ k = (0, .timeout))) := by
    rcases hc with ⟨raw, rfl, rfl, h4, hh⟩ | ⟨rfl, rfl | ⟨k, rfl⟩⟩
    · exact ⟨_, rfl, .inl ⟨raw, rfl, rfl, h4, hh⟩⟩
    · exact ⟨_, rfl, .inr ⟨rfl, rfl⟩⟩
    · exact ⟨_, rfl, .inr ⟨rfl, rfl⟩⟩
  rw [hrun, hatt, hk]
  simp only [Prog.run_pure, Prog.attWrites_pure, List.nil_append]
  have m2 := mid_table c c.presetDefault s2
  have d2 := did_table c c.presetDefault s2
  have hw : s2.regs.freqWord = s.regs.freqWord := by rw [(m0.trans m1).regs]
  rw [hw] at d2
  have m := ((m0.trans m1).trans m2).mono (W' := span c) (by intro a; simp) rfl
  have hd : ∀ u : State, Did (.listens c (!c.ackEdgeLevel) c.respTmoMs c.respRawLen got) s1 s2 →
      Did (.writesTable c s.regs.freqWord c.presetDefault) s2 u →
      Did (.seq (awaitResponse c s.regs.freqWord got)) s u := fun u g k => d0 _ u (g.cons k.one)
  generalize ((applyTable c c.presetDefault).run s2).2 = s3 at *
  have d := hd s3 d1 d2
  rcases hc with ⟨raw, rfl, rfl, h4, hh⟩ | ⟨rfl, rfl⟩
  · have hh3 : Holds 0x180 raw s3 := holds_mid hh m2 (by simp)
    obtain ⟨u, a, out, h5, h6, h7⟩ := decode_phase h raw s3 hh3
    refine ⟨u, a, .response raw, h5, ?_, _, s3, by omega, m, d, h4, out, h6⟩
    simp only [if_true, h7, attemptStates]
    by_cases hok : a.code = .ok <;> simp [hok]
  · obtain ⟨u, a, h5, h6⟩ := fail_phase s3
    exact ⟨u, a, .noResponse, h5, by rw [h6.ret]; rfl, _, s3, by omega, m, d, h6⟩

/-- WaitingForAck and what follows (R265). -/
theorem ack_phase {c : Cfg} (h : cfgWf c = true) (s : State) :
    ∃ u a ending, (attemptAck c).run s = (a, u) ∧
      (attemptAck c).attWrites s = (attemptStates ending (decide (a.code = .ok))).drop 1 ∧
      Ended c (span c) (2 * c.waitStateMs + 2 * c.ackTmoMs + 2 * c.respTmoMs) (ackTrace c s.regs.freqWord) ending s u a := by
  have ht := wf_times h
  have hl := wf_len h
  have hprog : attemptAck c = (pWrite (.att .waitingForAck)).andThen ((applyTable c c.presetSync).andThen
      ((xs c c.sRx).andThen (listening c c.ackEdgeLevel c.ackTmoMs c.ackRawLen
        (fun r => if r.code = .ok then attemptResponse c else attemptFail r.code 0 0) (attemptFail .timeout 0 0)))) := rfl
  rw [hprog]
  simp only [Prog.attWrites_andThen, attWrites_pWrite_att, attWrites_xs, attWrites_table, Prog.run_andThen, run_pWrite,
    run_xs, List.nil_append]
  have m0 := ((mid_att .waitingForAck s).trans (mid_table c c.presetSync _)).trans (mid_xfer (hdr c false false c.sRx) [] _)
  have d0 := fun rest (u : State) (g : Did (.seq rest) _ u) =>
    Did.cons ((did_table c c.presetSync (writeDst (.att .waitingForAck) s)).congr (s' := s) rfl rfl rfl rfl) <|
    Did.cons (did_xfer (hdr c false false c.sRx) [] _) g
  generalize (doXfer (hdr c false false c.sRx) [] _).2 = s1 at *
  obtain ⟨e, s2, got, r, he, m1, d1, hch, hc⟩ := listen_phase h c.ackEdgeLevel c.ackTmoMs c.ackRawLen (by omega) (by omega)
    (Nat.le_max_left _ _) s1
  obtain ⟨hrun, hatt⟩ := hch Attempt (fun r => if r.code = .ok then attemptResponse c else attemptFail r.code 0 0)
    (attemptFail .timeout 0 0)
  rw [hrun, hatt]
  have hw : s2.regs.freqWord = s.regs.freqWord := by rw [(m0.trans m1).regs]
  have m := (m0.trans m1).mono (W' := span c) (by intro a; simp) rfl
  have d : Did (.seq (awaitAck c s.regs.freqWord got)) s s2 := d0 _ s2 d1.one
  rcases hc with ⟨ack, rfl, rfl, _, _⟩ | ⟨rfl, hr⟩
  · obtain ⟨u, a, ending, h5, h6, h7⟩ := response_phase h s2
    refine ⟨u, a, ending, ?_, ?_, (Ended.after (T' := ackTrace c s.regs.freqWord) m h7 (by omega) ?_).mono (by simp)⟩
    · simpa only [chosen, if_true] using h5
    · simp only [chosen, if_true, h6]
      obtain ⟨e', v, _, _, ⟨l, _, hT⟩, _⟩ := h7
      cases ending <;> first | exact hT.elim | rfl
    · rw [hw]
      intro v g
      cases ending with
      | noTx => obtain ⟨_, _, g⟩ := g; exact g.elim
      | noAck => obtain ⟨_, _, g⟩ := g; exact g.elim
      | noResponse => obtain ⟨l, hl, hT⟩ := d.append g; exact ⟨l, hl, ack, hT⟩
      | response raw => obtain ⟨l, hl, hT⟩ := d.append g; exact ⟨l, hl, ack, hT⟩
  · obtain ⟨u, a, h5, h6⟩ := fail_phase s2
    have hf : (chosen (fun r : Drained => if r.code = .ok then attemptResponse c else attemptFail r.code 0 0)
        (attemptFail .timeout 0 0) r) = attemptFail .timeout 0 0 := by
      rcases hr with rfl | ⟨k, rfl⟩ <;> rfl
    rw [hf]
    exact ⟨u, a, .noAck, h5, by rw [h6.ret]; rfl, _, s2, by omega, m, d, h6⟩

/-- The sum of the delays and budgets of an attempt (R351). -/
def budget (c : Cfg) : Nat :=
  3 * c.waitStateMs + c.preChunks * c.prePaceMs + c.postPreMs + c.frameHoldMs + 2 * c.ackTmoMs + 2 * c.respTmoMs

/-- AttemptCore (R262), and where it comes past Transmitting the frame stands at offset 0 (R263). -/
theorem attempt_phase {c : Cfg} (h : cfgWf c = true) (s : State) :
    ∃ u a ending, (attemptCore c).run s = (a, u) ∧
      (attemptCore c).attWrites s = attemptStates ending (decide (a.code = .ok)) ∧
      Ended c (fun x => x < 33 ∨ span c x) (budget c) (attemptTrace c s.regs.freqWord (reqFrame c s.regs.meterId)) ending s
        u a ∧
      (ending ≠ .noTx → Holds 0 (reqFrame c s.regs.meterId) u) := by
  have ht := wf_times h
  have hprog : attemptCore c = (pWrite (.rdIndex 0#32)).andThen ((pWrite (.rdMisc 0#32)).andThen
      ((pWrite (.att .transmitting)).andThen ((applyTable c c.txConfig).andThen ((xs c c.sTx).andThen
        ((waitStateCore c c.stateTx c.waitStateMs).bind fun tx => if tx.1 then (preamble c).andThen ((pDelay c.postPreMs).andThen
          ((sendRequest c).andThen (attemptAck c))) else attemptFail .timeout 0 0))))) := rfl
  have noPre : ∀ s, (preamble c).attWrites s = [] := fun s => Prog.attWrites_none (Prog.all_times (Prog.all_andThen
    (all_xbw (fun _ _ => rfl) c _ _) (all_delay (fun _ => rfl) _)) _) s
  have noSend : ∀ s, (sendRequest c).attWrites s = [] := fun s => Prog.attWrites_none
    (Prog.all_bind (P := Prim.NoAtt) (all_read (fun _ => rfl) _) fun m => Prog.all_andThen (all_memWrite rfl) <|
      Prog.all_bind (all_memRead rfl) fun f => Prog.all_andThen (all_xbw (fun _ _ => rfl) c _ _) <|
      Prog.all_andThen (all_delay (fun _ => rfl) _) <| Prog.all_andThen (all_xs (fun _ _ => rfl) c _) (noAtt_table c _)) s
  have noWait : ∀ s, (waitStateCore c c.stateTx c.waitStateMs).attWrites s = [] :=
    fun s => Prog.attWrites_none (noAtt_waitState ..) s
  have noI : ∀ w s, (pWrite (.rdIndex w)).attWrites s = [] := fun _ _ => rfl
  have noM : ∀ w s, (pWrite (.rdMisc w)).attWrites s = [] := fun _ _ => rfl
  have noD : ∀ n s, (pDelay n).attWrites s = [] := fun _ _ => rfl
  rw [hprog]
  simp only [Prog.attWrites_andThen, Prog.attWrites_bind, attWrites_pWrite_att, attWrites_xs, attWrites_table, noWait, noI,
    noM, Prog.run_andThen, run_pWrite, run_xs, Prog.run_bind, List.nil_append]
  have m0 := (((mid_rdi 0#32 s).trans (mid_rdm 0#32 _)).trans (mid_att .transmitting _)).trans (mid_table c c.txConfig _)
    |>.trans (mid_xfer (hdr c false false c.sTx) [] _)
  have d0 := fun rest (u : State) (g : Did (.seq rest) _ u) =>
    Did.cons ((did_table c c.txConfig (writeDst (.att .transmitting) (writeDst (.rdMisc 0#32) (writeDst (.rdIndex 0#32) s)))).congr
      (s' := s) rfl rfl rfl rfl) <| Did.cons (did_xfer (hdr c false false c.sTx) [] _) g
  generalize (doXfer (hdr c false false c.sTx) [] _).2 = s1 at *
  obtain ⟨e1, he1, m1⟩ := wait_state_mid h c.stateTx s1
  have d1 := did_polls c c.stateTx c.waitStateMs (by omega) (by omega) s1
  generalize (waitStateCore c c.stateTx c.waitStateMs).run s1 = p at *
  obtain ⟨⟨tx, x⟩, s2⟩ := p
  have d : Did (.seq (toTx c s.regs.freqWord tx)) s s2 := d0 _ s2 d1.one
  have m := (m0.trans m1).mono (W' := fun _ => False) (by simp) rfl
  cases tx with
  | false =>
    obtain ⟨u, a, h5, h6⟩ := fail_phase s2
    refine ⟨u, a, .noTx, h5, by rw [h6.ret]; rfl, ⟨_, s2, ?_, m.mono (by simp) rfl, d, h6⟩, by simp⟩
    simp only [budget]; omega
  | true =>
    simp only [if_true, Prog.attWrites_andThen, noPre, noD, noSend, Prog.run_andThen, run_pDelay, List.nil_append]
    obtain ⟨m2, d2⟩ := preamble_mid c s2
    generalize ((preamble c).run s2).2 = s3 at *
    obtain ⟨m4, hf, d4⟩ := send_mid h (elapse c.postPreMs s3)
    have m3 := m2.trans (mid_elapse c.postPreMs s3)
    have mm := (m.trans m3).mono (W' := fun _ => False) (by simp) rfl
    have hmeter : (elapse c.postPreMs s3).regs.meterId = s.regs.meterId := by rw [mm.regs]
    have hword : (elapse c.postPreMs s3).regs.freqWord = s.regs.freqWord := by rw [mm.regs]
    rw [hmeter] at hf d4
    rw [hword] at d4
    have dd : Did (.seq (toTx c s.regs.freqWord true ++ request c s.regs.freqWord (reqFrame c s.regs.meterId))) s
        ((sendRequest c).run (elapse c.postPreMs s3)).2 := d.append (d2.cons ((did_elapse _ _).cons d4))
    generalize ((sendRequest c).run (elapse c.postPreMs s3)).2 = s4 at *
    have hw4 : s4.regs.freqWord = s.regs.freqWord := by rw [(mm.trans m4).regs]
    obtain ⟨u, a, ending, h5, h6, h7⟩ := ack_phase h s4
    rw [hw4] at h7
    refine ⟨u, a, ending, h5, ?_, (Ended.after
      (T' := attemptTrace c s.regs.freqWord (reqFrame c s.regs.meterId)) (mm.trans m4) h7 ?_ ?_).mono (by simp), ?_⟩
    · rw [h6]
      obtain ⟨e', v, _, _, ⟨l, _, hT⟩, _⟩ := h7
      cases ending <;> first | exact hT.elim | rfl
    · simp only [budget]; omega
    · intro v g
      cases ending with
      | noTx => obtain ⟨_, _, g⟩ := g; exact g.elim
      | noAck => exact dd.append g
      | noResponse =>
        obtain ⟨l, hl, ack, hT⟩ := g
        obtain ⟨l', hl', hT'⟩ := dd.append (u := v) ⟨l, hl, hT⟩
        exact ⟨l', hl', ack, by rw [List.append_assoc]; exact hT'⟩
      | response raw =>
        obtain ⟨l, hl, ack, hT⟩ := g
        obtain ⟨l', hl', hT'⟩ := dd.append (u := v) ⟨l, hl, hT⟩
        exact ⟨l', hl', ack, by rw [List.append_assoc]; exact hT'⟩
    · intro _
      obtain ⟨e', v, _, hm, _, hfin⟩ := h7
      have h2 : Holds 0 (reqFrame c s.regs.meterId) v := holds_mid hf hm (by
        intro a; rw [length_reqFrame]; simp only [span, frameLen]; omega)
      intro k hk
      have hk33 : k < 33 := by rw [length_reqFrame] at hk; exact hk
      cases ending with
      | response raw =>
        obtain ⟨_, out, hd⟩ := hfin
        rw [hd.ram _ (by omega)]; exact h2 k hk
      | noTx => rw [Failed.ram hfin]; exact h2 k hk
      | noAck => rw [Failed.ram hfin]; exact h2 k hk
      | noResponse => rw [Failed.ram hfin]; exact h2 k hk

/-! ### The discovery scan (R275 to R278) -/

/-- What an attempt leaves, as a scan sees it: its trace, and then the PUBLISH of the reading it gives, if any (R262, R269). -/
theorem Ended.summary {c : Cfg} (h : cfgWf c = true) {W : Nat → Prop} {B : Nat} {T : AttemptEnd → Trace} {ending : AttemptEnd}
    {s u : State} {a : Attempt} (hend : Ended c W B T ending s u a) :
    u.regs = { s.regs with now := u.regs.now, rdIndex := u.regs.rdIndex, rdMisc := u.regs.rdMisc } ∧
    u.status.disc = s.status.disc ∧ storesOf u.history = storesOf s.history ∧
    (∀ x, ¬ W x → (x < 0x80 ∨ 0x180 ≤ x) → u.ram.byte x = s.ram.byte x) ∧
    (a.code = .ok ↔ (ending.reading c).isSome = true) ∧
    ∃ v, Did (T ending) s v ∧ v.regs.now = u.regs.now ∧
      match ending.reading c with
      | some (index, misc) => u.status.att = .success ∧ u.regs.rdIndex = index ∧ u.regs.rdMisc = misc ∧
          publishesOf v.history = publishesOf s.history ∧ u.history = v.history ++ [publication index misc]
      | none => u.status.att = .failed ∧ u.regs.rdIndex = 0#32 ∧ u.regs.rdMisc = 0#32 ∧
          publishesOf v.history = publishesOf s.history ∧ u.history = v.history := by
  obtain ⟨e, v, _, hm, hT, hf⟩ := hend
  have hf' : (ending.reading c = none ∧ Failed v u a) ∨ ∃ raw out, ending = .response raw ∧ Dec c raw v u a out := by
    cases ending with
    | response raw => obtain ⟨_, out, hd⟩ := hf; exact .inr ⟨raw, out, rfl, hd⟩
    | _ => exact .inl ⟨rfl, hf⟩
  rcases hf' with ⟨hnone, hf⟩ | ⟨raw, out, rfl, hd⟩
  · refine ⟨by rw [hf.regs, hm.regs], hf.disc.trans hm.disc, by rw [hf.history]; exact hm.stores,
      fun x hx _ => by rw [hf.ram]; exact hm.ram x hx, by rw [hnone, hf.ret]; simp, v, hT, by rw [hf.regs], ?_⟩
    rw [hnone]
    exact ⟨hf.att, hf.i0, hf.m0, hm.pubs, hf.history⟩
  · have hcap : c.decCap = 256 := (wf_layout h).2.2.2.2.1
    have hr : AttemptEnd.reading c (.response raw) =
        if c.minDecoded ≤ out.length ∧ (indexAt c out ≠ 0#32 ∨ miscAt c out ≠ 0#32) then
          some (indexAt c out, miscAt c out) else none := by
      simp only [AttemptEnd.reading, hcap, ← hd.hout]
    refine ⟨by rw [hd.regs, hm.regs], hd.disc.trans hm.disc, ?_, fun x hx hr => (hd.ram x hr).trans (hm.ram x hx), ?_, v, hT,
      by rw [hd.regs], ?_⟩
    · rcases hd.fin with ⟨_, _, _, _, _, _, h7⟩ | ⟨_, _, _, _, _, h7⟩ | ⟨_, _, _, _, _, _, _, h7⟩
      · rw [h7, storesOf_append, storesOf_publish, storesOf_nil, List.append_nil]; exact hm.stores
      · rw [h7]; exact hm.stores
      · rw [h7]; exact hm.stores
    · rw [hr]
      rcases hd.fin with ⟨h1, _, h3, h4, _⟩ | ⟨h1, _, h3, _⟩ | ⟨h1, _, _, h4, h5, _⟩
      · simp [h1, h3, h4]
      · simp [h1, show ¬ c.minDecoded ≤ out.length by omega]
      · simp [h1, h4, h5]
    · rw [hr]
      rcases hd.fin with ⟨_, h2, h3, h4, h5, h6, h7⟩ | ⟨_, h2, h3, h4, h5, h6⟩ | ⟨_, h2, _, h4, h5, h6, h7, h8⟩
      · rw [if_pos ⟨h3, h4⟩]; exact ⟨h2, h5, h6, hm.pubs, h7⟩
      · rw [if_neg (by omega)]; exact ⟨h2, h4, h5, hm.pubs, h6⟩
      · rw [if_neg (by simp [h4, h5])]; exact ⟨h2, h6, h7, hm.pubs, h8⟩

/-- RInitCore as a trace (R260). -/
theorem Sends.tunes {c : Cfg} {f : Word} {order : List (ChipAddr × Byte)} {s u : State} (hp : order.Perm c.presetDefault)
    (ho : order.Pairwise fun a b => a.1.toNat ≤ b.1.toNat) (h : Sends (rinitXfers c f s.regs.now order) s u)
    (hn : u.regs.now = s.regs.now + BitVec.ofNat 32 (3 * c.settleMs)) : Did (.tunes c f) s u := by
  obtain ⟨events, h1, h2, h3⟩ := h
  exact ⟨events, h1, order, hp, ho, h2, h3, hn⟩

/-- Of the registers a scan shows, tuning writes none. -/
theorem scanWrites_rinit (c : Cfg) (f : Word) (s : State) : (rinitCore c f).scanWrites s = [] := by
  rw [Prog.scanWrites_att (all_rinitCore (fun _ _ => rfl) (fun _ => rfl) (fun _ => rfl) (fun _ => rfl) c f),
    Prog.attWrites_none (all_rinitCore (fun _ _ => rfl) (fun _ => rfl) (fun _ => rfl) (fun _ => rfl) c f)]
  rfl

/-- Of the registers a scan shows, an attempt writes ATT_STATE alone. -/
theorem scanWrites_attempt (c : Cfg) (s : State) : (attemptCore c).scanWrites s = ((attemptCore c).attWrites s).map .att :=
  Prog.scanWrites_att (all_attemptCore c fun p hp => by
    cases p with
    | write d => cases d <;> first | rfl | exact hp.elim
    | _ => rfl) s

/-- One candidate's part of a scan: tuned to, then attempted (R275). -/
theorem candidate_phase {c : Cfg} (h : cfgWf c = true) (f : Word) (s : State) :
    ∃ t u a ending, (rinitCore c f).run s = ((), t) ∧ (attemptCore c).run t = (a, u) ∧
      (a.code = .ok ↔ (ending.reading c).isSome = true) ∧
      (attemptCore c).scanWrites t = (attemptStates ending (ending.reading c).isSome).map .att ∧
      u.regs = { s.regs with
        freqWord := freqWordCore c f
        now := u.regs.now
        rdIndex := u.regs.rdIndex
        rdMisc := u.regs.rdMisc } ∧
      storesOf u.history = storesOf s.history ∧
      (∀ x, ¬ (x < 33 ∨ span c x) → (x < 0x80 ∨ 0x180 ≤ x) → u.ram.byte x = s.ram.byte x) ∧
      ∃ v, Did (.seq [.tunes c f, attemptTrace c (freqWordCore c f) (reqFrame c s.regs.meterId) ending]) s v ∧
        v.regs.now = u.regs.now ∧ publishesOf v.history = publishesOf s.history ∧
        match ending.reading c with
        | some (index, misc) => u.status.att = .success ∧ u.regs.rdIndex = index ∧ u.regs.rdMisc = misc ∧
            u.history = v.history ++ [publication index misc]
        | none => u.status.att = .failed ∧ u.regs.rdIndex = 0#32 ∧ u.regs.rdMisc = 0#32 ∧ u.history = v.history := by
  obtain ⟨t, order, ht, hp, ho, hs, hregs, hram, _, _⟩ := run_rinit c f s
  obtain ⟨events, hh, _, hx⟩ := id hs
  obtain ⟨hst, hpub⟩ := only_xfers hx
  have hst : storesOf t.history = storesOf s.history := by rw [hh, storesOf_append, hst, List.append_nil]
  have hpub : publishesOf t.history = publishesOf s.history := by rw [hh, publishesOf_append, hpub, List.append_nil]
  have dt : Did (.tunes c f) s t := hs.tunes hp ho (by rw [hregs])
  obtain ⟨u, a, ending, ha, hatt, hend, _⟩ := attempt_phase h t
  obtain ⟨g1, _, g3, g4, g5, v, g6, g7, g8⟩ := hend.summary h
  rw [hregs] at g6
  refine ⟨t, u, a, ending, ht, ha, g5, ?_, ?_, g3.trans hst, fun x hx hr => (g4 x hx hr).trans (by rw [hram]), v,
    dt.cons g6.one, g7, ?_⟩
  · rw [scanWrites_attempt, hatt]
    congr 2
    rw [Bool.eq_iff_iff, decide_eq_true_iff]; exact g5
  · rw [g1, hregs]
  · split at g8
    · exact ⟨g8.2.2.2.1.trans hpub, g8.1, g8.2.1, g8.2.2.1, g8.2.2.2.2⟩
    · exact ⟨g8.2.2.2.1.trans hpub, g8.1, g8.2.1, g8.2.2.1, g8.2.2.2.2⟩

/-- What a scan from candidate `j` leaves, and how it answers: the attempts before the last end as `failed` says and give no
reading, and the last, of candidate `k`, ends as `last` says. -/
structure Scanned (c : Cfg) (frame : List Byte) (j k : Nat) (failed : List AttemptEnd) (last : AttemptEnd) (writes : List Dst)
    (s u : State) (r : Discovery) : Prop where
  count : k = j + failed.length
  tried : r.tried = k + 1
  none : ∀ e ∈ failed, e.reading c = none
  disc : u.status.disc = false
  inRange : ∀ i, j ≤ i → i ≤ k → f32Val (candidate c j) ≤ f32Val (candidate c i) ∧
    f32Val (candidate c i) ≤ f32Val c.freqMax
  ram : ∀ x, ¬ (x < 33 ∨ span c x) → (x < 0x80 ∨ 0x180 ≤ x) → u.ram.byte x = s.ram.byte x
  fin : ∃ v, Did (.seq (scanParts c frame j (failed ++ [last]))) s v ∧ v.regs.now = u.regs.now ∧
    storesOf v.history = storesOf s.history ∧ publishesOf v.history = publishesOf s.history ∧
    match last.reading c with
    | some (index, misc) => r.found = some (candidate c k) ∧ u.status.att = .success ∧
        u.history = v.history ++ [publication index misc, .store (candidate c k)] ∧
        writes = scanStates c j (failed ++ [last]) ++ [.freqMhz (candidate c k), .disc false] ∧
        u.regs = { s.regs with
          freqMhz := candidate c k
          freqWord := freqWordCore c (candidate c k)
          cand := candidate c k
          rdIndex := index
          rdMisc := misc
          now := u.regs.now }
    | Option.none => r.found = Option.none ∧ u.status.att = .failed ∧ f32Val c.freqMax < f32Val (candidate c (k + 1)) ∧
        u.history = v.history ∧ writes = scanStates c j (failed ++ [last]) ++ [.disc false] ∧
        u.regs = { s.regs with
          freqWord := freqWordCore c (candidate c k)
          cand := candidate c k
          rdIndex := 0#32
          rdMisc := 0#32
          now := u.regs.now }

/-- The scan from candidate `j`, given at least as many candidates as there are bit patterns left below FREQ_MAX. -/
theorem discover_phase {c : Cfg} (h : cfgWf c = true) : ∀ (fuel j : Nat) (s : State), 0 ≤ f32Val (candidate c j) →
    f32Val (candidate c j) ≤ f32Val c.freqMax → c.freqMax.toNat + 1 ≤ f32Abs (candidate c j) + fuel →
    ∃ u r k failed last, (discoverLoop c (candidate c j) j fuel).run s = (r, u) ∧
      Scanned c (reqFrame c s.regs.meterId) j k failed last ((discoverLoop c (candidate c j) j fuel).scanWrites s) s u r := by
  intro fuel
  induction fuel with
  | zero =>
    intro j s h0 hle hf
    have := (candidate_rises h h0 hle).2.1
    omega
  | succ fuel ih =>
    intro j s h0 hle hf
    obtain ⟨hup, _, hnext⟩ := candidate_rises h h0 hle
    have hval : f32Val (candidate c j) ≤ f32Val (candidate c (j + 1)) := candidate_val_rises h h0 hle
    obtain ⟨t, s2, a, ending, ht, ha, hok, hatt, hregs, hst, hram, v, hd, hnow, hpub, hfin⟩ :=
      candidate_phase h (candidate c j) (writeDst (.cand (candidate c j)) s)
    have hst : storesOf s2.history = storesOf s.history := hst
    have hpub : publishesOf v.history = publishesOf s.history := hpub
    have hd : Did (.seq [.tunes c (candidate c j),
      attemptTrace c (freqWordCore c (candidate c j)) (reqFrame c s.regs.meterId) ending]) s v := hd
    have hram : ∀ x, ¬ (x < 33 ∨ span c x) → (x < 0x80 ∨ 0x180 ≤ x) → s2.ram.byte x = s.ram.byte x := hram
    have hcand : ∀ s : State, (pWrite (.cand (candidate c j))).scanWrites s = [.cand (candidate c j)] := fun _ => rfl
    simp only [discoverLoop, if_pos hle, Prog.run_andThen, run_pWrite, Prog.run_bind, Prog.scanWrites_andThen, hcand,
      Prog.scanWrites_bind, ht, scanWrites_rinit, ha, hatt]
    cases hread : ending.reading c with
    | some reading =>
      obtain ⟨index, misc⟩ := reading
      rw [hread] at hfin hok
      obtain ⟨k2, k3, k4, k5⟩ := hfin
      rw [if_pos (hok.mpr rfl)]
      refine ⟨_, _, j, [], ending, rfl, rfl, rfl, by simp, rfl, ?_, hram, v, hd, hnow, ?_, hpub, ?_⟩
      · intro i hi hk
        rw [show i = j by omega]; exact ⟨Int.le_refl _, hle⟩
      · rw [← hst, k5, storesOf_append]; exact (List.append_nil _).symm
      · rw [hread]
        refine ⟨rfl, k2, ?_, ?_, ?_⟩
        · show s2.history ++ [.store (candidate c j)] = _
          rw [k5, List.append_assoc]; rfl
        · simp [scanStates, hread]; rfl
        · show { s2.regs with freqMhz := candidate c j } = _
          rw [hregs, k3, k4]; rfl
    | none =>
      rw [hread] at hfin hok
      obtain ⟨k2, k3, k4, k5⟩ := hfin
      rw [if_neg (fun h => by simpa using hok.mp h)]
      have hstv : storesOf v.history = storesOf s.history := by rw [← k5]; exact hst
      have hd2 : Did (.seq [.tunes c (candidate c j),
        attemptTrace c (freqWordCore c (candidate c j)) (reqFrame c s.regs.meterId) ending]) s s2 :=
        hd.congr rfl rfl k5 hnow.symm
      by_cases hmore : f32Val (candidate c (j + 1)) ≤ f32Val c.freqMax
      · obtain ⟨u, r, k, failed, last, hr, hs⟩ := ih (j + 1) s2 hnext hmore (by change _ ≤ f32Abs (f32AddPos _ _) + _; omega)
        obtain ⟨w, f1, f2, f3, f4, f5⟩ := hs.fin
        have hm : s2.regs.meterId = s.regs.meterId := by rw [hregs]; rfl
        rw [hm] at f1
        refine ⟨u, r, k, ending :: failed, last, hr, ?_, hs.tried, ?_, hs.disc, ?_, ?_, w, hd2.append f1, f2, f3.trans hst,
          f4.trans (by rw [k5]; exact hpub), ?_⟩
        · rw [hs.count, List.length_cons]; omega
        · intro e he
          rcases List.mem_cons.mp he with rfl | he
          exacts [hread, hs.none e he]
        · intro i hi hk
          by_cases hij : i = j
          · rw [hij]; exact ⟨Int.le_refl _, hle⟩
          · exact ⟨Int.le_trans hval (hs.inRange i (by omega) hk).1, (hs.inRange i (by omega) hk).2⟩
        · intro x hx hb
          exact (hs.ram x hx hb).trans (hram x hx hb)
        · have hw : ∀ l : List Dst, [Dst.cand (candidate c j)] ++ ([] ++ ((attemptStates ending false).map .att ++
              (scanStates c (j + 1) (failed ++ [last]) ++ l))) = scanStates c j (ending :: failed ++ [last]) ++ l := by
            intro l; simp [scanStates, hread]
          split at f5
          · obtain ⟨q1, q2, q3, q4, q5⟩ := f5
            refine ⟨q1, q2, q3, by rw [← hw, ← q4]; rfl, ?_⟩
            rw [q5, hregs]; rfl
          · obtain ⟨q1, q2, q3, q4, q5, q6⟩ := f5
            refine ⟨q1, q2, q3, q4, by rw [← hw, ← q5]; rfl, ?_⟩
            rw [q6, hregs]; rfl
      · have hstop : (discoverLoop c (f32AddPos (candidate c j) c.freqStep) (j + 1) fuel).run s2 =
            (⟨none, j + 1⟩, writeDst (.disc false) s2) ∧
            (discoverLoop c (f32AddPos (candidate c j) c.freqStep) (j + 1) fuel).scanWrites s2 = [.disc false] := by
          cases fuel with
          | zero => exact ⟨rfl, rfl⟩
          | succ n =>
            rw [discoverLoop, if_neg (show ¬ f32Val (f32AddPos (candidate c j) c.freqStep) ≤ _ from hmore)]
            exact ⟨rfl, rfl⟩
        refine ⟨_, _, j, [], ending, hstop.1, rfl, rfl, by simp, rfl, ?_, hram, v, hd, hnow, hstv, hpub, ?_⟩
        · intro i hi hk
          rw [show i = j by omega]; exact ⟨Int.le_refl _, hle⟩
        · rw [hread]
          refine ⟨rfl, k2, by omega, k5, ?_, ?_⟩
          · rw [hstop.2]; simp [scanStates, hread]
          · show s2.regs = _
            rw [hregs, k3, k4]; rfl

/-- DiscoverCore (R275). -/
theorem discoverCore_phase {c : Cfg} (h : cfgWf c = true) (s : State) :
    ∃ u r k failed last writes, (discoverCore c).run s = (r, u) ∧ (discoverCore c).scanWrites s = .disc true :: writes ∧
      Scanned c (reqFrame c s.regs.meterId) 0 k failed last writes s u r := by
  have hf : cfgFreqOk c = true := by
    unfold cfgWf at h; simp only [Bool.and_eq_true] at h; exact h.2.2.1
  simp only [cfgFreqOk, Bool.and_eq_true, decide_eq_true_eq] at hf
  obtain ⟨u, r, k, failed, last, hr, hs⟩ := discover_phase h (discoverFuel c) 0 (writeDst (.disc true) s) hf.1.1.1.1.2
    hf.1.1.1.2 (by rw [discoverFuel]; omega)
  exact ⟨u, r, k, failed, last, _, hr, rfl, hs.count, hs.tried, hs.none, hs.disc, hs.inRange, hs.ram, hs.fin⟩

end Sys2Proof.Machine
end

