-- ==== Sys2Proof/Laws/Crc.lean ====
section
/-! SUPPORT. The CRC register is linear, and a register shifted out by its own bytes is 0 (spec/42_crc.md R230, R233). -/

namespace Sys2Proof.Machine

/-- One bit step is linear. -/
theorem crcBit_xor : ∀ a b : BitVec 16, crcBit (a ^^^ b) = crcBit a ^^^ crcBit b := by
  intro a b
  unfold crcBit
  rw [BitVec.getLsbD_xor, BitVec.ushiftRight_xor_distrib]
  cases a.getLsbD 0 <;> cases b.getLsbD 0 <;> simp <;> (apply BitVec.eq_of_getLsbD_eq; intro i hi; simp; try (cases a.getLsbD (1+i) <;> cases b.getLsbD (1+i) <;> cases (33800#16).getLsbD i <;> rfl))

/-- One byte step is linear. -/
theorem crcByte_xor (a b : BitVec 16) (x y : Byte) : crcByte (a ^^^ b) (x ^^^ y) = crcByte a x ^^^ crcByte b y := by
  unfold crcByte
  have : (a ^^^ b) ^^^ (x ^^^ y).zeroExtend 16 = (a ^^^ x.zeroExtend 16) ^^^ (b ^^^ y.zeroExtend 16) := by
    rw [show (x ^^^ y).zeroExtend 16 = x.zeroExtend 16 ^^^ y.zeroExtend 16 by ext; simp]
    ext i; simp; cases a[i] <;> cases b[i] <;> simp
  rw [this]; simp only [crcBit_xor]

/-- The register over two sequences of equal length. -/
theorem crc_fold_xor (x y : List Byte) (h : x.length = y.length) (a b : BitVec 16) :
  (List.zipWith (· ^^^ ·) x y).foldl crcByte (a ^^^ b) = x.foldl crcByte a ^^^ y.foldl crcByte b := by
  induction x generalizing y a b with
  | nil => cases y with
    | nil => rfl
    | cons _ _ => cases h
  | cons p ps ih =>
    cases y with
    | nil => cases h
    | cons q qs =>
      simp only [List.zipWith_cons_cons, List.foldl_cons, crcByte_xor]
      exact ih qs (by simpa using h) _ _

/-- A register with only its high byte set, shifted out by that byte. -/
theorem crc_hi : ∀ h : Byte, crcByte (crcByte (h ++ 0#8 : BitVec 16) 0#8) h = 0#16 := by decide +kernel

/-- A register shifted out by its own two bytes, low byte first, is 0. -/
theorem crc_res (r : BitVec 16) : crcByte (crcByte r (r.extractLsb' 0 8)) (r.extractLsb' 8 8) = 0#16 := by
  have : crcByte r (r.extractLsb' 0 8) = crcByte (r.extractLsb' 8 8 ++ 0#8 : BitVec 16) 0#8 := by
    unfold crcByte
    have : r ^^^ (r.extractLsb' 0 8).zeroExtend 16 = (r.extractLsb' 8 8 ++ 0#8 : BitVec 16) ^^^ (0#8).zeroExtend 16 := by
      apply BitVec.eq_of_getLsbD_eq
      intro i hi
      simp only [BitVec.getLsbD_xor, BitVec.getLsbD_append, BitVec.getLsbD_extractLsb', BitVec.truncate_eq_setWidth, BitVec.getLsbD_setWidth, BitVec.getLsbD_zero]
      by_cases h : i < 8
      · simp [h, hi]
      · simp [h, hi, show 8 + (i - 8) = i by omega, show i - 8 < 8 by omega]
    rw [this]
  rw [this]; exact crc_hi _

/-- A 16-bit value in a 32-bit register. -/
theorem z16 (r : BitVec 16) : r.zeroExtend 32 = 0#16 ++ r := by
  apply BitVec.eq_of_getLsbD_eq
  intro i hi
  change (r.setWidth 32).getLsbD i = (0#16 ++ r : BitVec (16 + 16)).getLsbD i
  rw [BitVec.getLsbD_append, BitVec.getLsbD_setWidth]
  by_cases h : i < 16
  · simp [h, hi]
  · simp [h, hi, BitVec.getLsbD_of_ge r i (by omega)]

end Sys2Proof.Machine
end

