-- ==== Sys2Proof/Laws/Encoding.lean ====
section
/-! SUPPORT. The fields of a command word (spec/30_encoding.md R110): each field of `commandWord` reads back, and a word
whose C field is zero is the command word of its fields. -/

namespace Sys2Proof

theorem cmdOp_commandWord (op a b : Byte) : cmdOp (commandWord op a b) = op := by
  unfold cmdOp commandWord
  apply BitVec.eq_of_getLsbD_eq
  intro i h
  simp only [BitVec.getLsbD_extractLsb', h, decide_true, Bool.true_and]
  change (0#8 ++ b ++ a ++ op : BitVec (8 + 8 + 8 + 8)).getLsbD (0 + i) = _
  rw [BitVec.getLsbD_append, BitVec.getLsbD_append, BitVec.getLsbD_append]
  simp [h]

theorem cmdA_commandWord (op a b : Byte) : cmdA (commandWord op a b) = a := by
  unfold cmdA commandWord
  apply BitVec.eq_of_getLsbD_eq
  intro i h
  simp only [BitVec.getLsbD_extractLsb', h, decide_true, Bool.true_and]
  change (0#8 ++ b ++ a ++ op : BitVec (8 + 8 + 8 + 8)).getLsbD (8 + i) = _
  rw [BitVec.getLsbD_append, BitVec.getLsbD_append, BitVec.getLsbD_append]
  simp [h]

theorem cmdB_commandWord (op a b : Byte) : cmdB (commandWord op a b) = b := by
  unfold cmdB commandWord
  apply BitVec.eq_of_getLsbD_eq
  intro i h
  simp only [BitVec.getLsbD_extractLsb', h, decide_true, Bool.true_and]
  change (0#8 ++ b ++ a ++ op : BitVec (8 + 8 + 8 + 8)).getLsbD (16 + i) = _
  rw [BitVec.getLsbD_append, BitVec.getLsbD_append, BitVec.getLsbD_append]
  simp [h, show ¬ 16 + i < 8 by omega, show ¬ 16 + i - 8 < 8 by omega, show 16 + i - 8 - 8 = i by omega]

theorem cmdC_commandWord (op a b : Byte) : cmdC (commandWord op a b) = 0#8 := by
  unfold cmdC commandWord
  apply BitVec.eq_of_getLsbD_eq
  intro i h
  simp only [BitVec.getLsbD_extractLsb', h, decide_true, Bool.true_and]
  change (0#8 ++ b ++ a ++ op : BitVec (8 + 8 + 8 + 8)).getLsbD (24 + i) = _
  rw [BitVec.getLsbD_append, BitVec.getLsbD_append, BitVec.getLsbD_append]
  simp [show ¬ 24 + i < 8 by omega, show ¬ 24 + i - 8 < 8 by omega, show ¬ 24 + i - 8 - 8 < 8 by omega]

/-- Decoding a command word decodes its fields. -/
theorem decode_commandWord (op a b : Byte) : decode (commandWord op a b) = decodeFields op a b := by
  simp [decode, cmdOp_commandWord, cmdA_commandWord, cmdB_commandWord, cmdC_commandWord]

/-- A word with C = 0 is the command word of its own fields. -/
theorem commandWord_fields (w : Word) (h : cmdC w = 0#8) : commandWord (cmdOp w) (cmdA w) (cmdB w) = w := by
  unfold commandWord
  rw [← h]
  unfold cmdC cmdOp cmdA cmdB
  apply BitVec.eq_of_getLsbD_eq
  intro i hi
  change (BitVec.extractLsb' 24 8 w ++ BitVec.extractLsb' 16 8 w ++ BitVec.extractLsb' 8 8 w
    ++ BitVec.extractLsb' 0 8 w : BitVec (8 + 8 + 8 + 8)).getLsbD i = _
  simp only [BitVec.getLsbD_append, BitVec.getLsbD_extractLsb']
  by_cases h1 : i < 8
  · simp [h1]
  · by_cases h2 : i - 8 < 8
    · simp [h1, h2, show 8 + (i - 8) = i by omega]
    · by_cases h3 : i - 8 - 8 < 8
      · simp [h1, h2, h3, show 16 + (i - 8 - 8) = i by omega]
      · have h4 : i - 8 - 8 - 8 < 8 := by omega
        simp [h1, h2, h3, h4, show 24 + (i - 8 - 8 - 8) = i by omega]

theorem whenZero_some {r : Bool} {i j : Instr} (h : whenZero r i = some j) : r = true ∧ i = j := by
  unfold whenZero at h
  split at h <;> simp_all

end Sys2Proof
end

