-- ==== Sys2Proof/Laws/PerInstr.lean ====
section
/-! SUPPORT. The family `Encoded`, one lemma per instruction: its command word carries the opcode the map of
spec/30_encoding.md R114 gives it, and a zero C field (R110). -/

namespace Sys2Proof.Laws.Encoded

/-- The opcode of an instruction (R114). -/
def opcode : Instr → Byte
  | .wreg _ _ _ => 0x01#8
  | .rreg _ _ => 0x02#8
  | .wburst _ _ => 0x03#8
  | .rburst _ _ => 0x04#8
  | .strobe _ => 0x05#8
  | .waitst _ => 0x06#8
  | .waitedge _ => 0x07#8
  | .drain => 0x08#8
  | .setfreq => 0x09#8
  | .rssi _ => 0x0A#8
  | .rreset => 0x0B#8
  | .preset _ => 0x0C#8
  | .encode => 0x10#8
  | .decode _ => 0x11#8
  | .crc => 0x12#8
  | .buildreq => 0x13#8
  | .extract => 0x14#8
  | .rinit => 0x20#8
  | .attempt => 0x21#8
  | .discover => 0x22#8
  | .boot => 0x23#8

/-- The word of `i` has the opcode of `i` in its OP field and zero in its C field. -/
def Statement (i : Instr) : Prop := cmdOp (encode i) = opcode i ∧ cmdC (encode i) = 0#8

theorem of_commandWord {op a b : Byte} : cmdOp (commandWord op a b) = op ∧ cmdC (commandWord op a b) = 0#8 :=
  ⟨cmdOp_commandWord op a b, cmdC_commandWord op a b⟩

theorem wreg (addr : ChipAddr) (bst : Bool) (value : Byte) : Statement (.wreg addr bst value) := of_commandWord
theorem rreg (addr : ChipAddr) (bst : Bool) : Statement (.rreg addr bst) := of_commandWord
theorem wburst (addr : ChipAddr) (n : Byte) : Statement (.wburst addr n) := of_commandWord
theorem rburst (addr : ChipAddr) (n : Byte) : Statement (.rburst addr n) := of_commandWord
theorem strobe (code : ChipAddr) : Statement (.strobe code) := of_commandWord
theorem waitst (target : BitVec 3) : Statement (.waitst target) := of_commandWord
theorem waitedge (level : Bool) : Statement (.waitedge level) := of_commandWord
theorem drain : Statement .drain := of_commandWord
theorem setfreq : Statement .setfreq := of_commandWord
theorem rssi (raw : Byte) : Statement (.rssi raw) := of_commandWord
theorem rreset : Statement .rreset := of_commandWord
theorem preset (id : PresetId) : Statement (.preset id) := of_commandWord
theorem encode : Statement .encode := of_commandWord
theorem decode (osr : Osr) : Statement (.decode osr) := of_commandWord
theorem crc : Statement .crc := of_commandWord
theorem buildreq : Statement .buildreq := of_commandWord
theorem extract : Statement .extract := of_commandWord
theorem rinit : Statement .rinit := of_commandWord
theorem attempt : Statement .attempt := of_commandWord
theorem discover : Statement .discover := of_commandWord
theorem boot : Statement .boot := of_commandWord

end Sys2Proof.Laws.Encoded
end

