-- ==== Sys2Proof/Tests/Slice0.lean ====
section
/-! SUPPORT. The model's own tests, on the vectors of spec/95_test_vectors.md (named V1 to V183, P1 to P7 there), and for
every statement with hypotheses a state that meets them. -/

namespace Sys2Proof.Tests

open Sys2Proof Sys2Proof.Machine

-- One test at a time: side by side, each waiting test holds a thread's stack.
set_option Elab.async false

/-! ### Helpers -/

/-- The next state of an outcome. -/
def nextOf (o : Host.Outcome State Fault Refusal) : Option State := match o with | .next t => some t | _ => none

/-- Reset with the operand words and METER_ID written, and the environment's answers lined up. -/
def ready (a0 a1 : Word) (o : Oracle) : State :=
  { State.reset with regs := { Regs.reset with arg0 := a0, arg1 := a1, meterId := 0x1003EED6#32 }, oracle := o }

/-- The state after the word `w` has been accepted and has run. -/
def after (w : Nat) (s : State) : Option State := nextOf (step (s.withFetchWord 32 w))

/-- The chip answers `l`. -/
def chip (l : List (List Byte)) : Oracle := { Oracle.quiet with chip := l }

/-- The GDO line reads `l`. -/
def gdo (l : List Bool) : Oracle := { Oracle.quiet with gdo := l }

/-- RAM written at an offset. -/
def withRam (off : Nat) (l : List Byte) (s : State) : State := memWrite off l s

/-- Result code, RES0, RES1 and NOW of a completed command. -/
def outcome (t : State) : ResultCode × Nat × Nat × Nat :=
  (t.status.result, t.regs.res0.toNat, t.regs.res1.toNat, t.regs.now.toNat)

/-- The bytes a RAM range holds. -/
def held (off n : Nat) (t : State) : List (Option Byte) := (List.range n).map fun k => t.ram.byte (off + k)

/-- One move made from a state. -/
def move (m : Move) (s : State) : Option State := nextOf (step { s with agenda := [m] })

/-! ### Well-formedness (R112, R116) -/

theorem test_wburst_zero_ill_formed : Instr.wellFormed (.wburst 0x3F#6 0#8) = false := by decide
theorem test_rburst_zero_ill_formed : Instr.wellFormed (.rburst 0x3F#6 0#8) = false := by decide
theorem test_wburst_one_well_formed : Instr.wellFormed (.wburst 0x3F#6 1#8) = true := by decide
theorem test_rburst_255_well_formed : Instr.wellFormed (.rburst 0x3F#6 255#8) = true := by decide

/-! ### Decoding, each word written out from R110, R112 and R114 -/

/-- V51. -/
theorem test_decode_wreg : decode 0x00557F01#32 = some (.wreg 0x3F#6 true 0x55#8) := by decide
/-- V52. -/
theorem test_decode_rreg : decode 0x00000A02#32 = some (.rreg 0x0A#6 false) := by decide
/-- V55. -/
theorem test_decode_wburst : decode 0x00023F03#32 = some (.wburst 0x3F#6 2#8) := by decide
/-- V57. -/
theorem test_decode_rburst : decode 0x00FF3F04#32 = some (.rburst 0x3F#6 255#8) := by decide
/-- V58. -/
theorem test_decode_strobe : decode 0x00003A05#32 = some (.strobe 0x3A#6) := by decide
/-- V67. -/
theorem test_decode_waitst : decode 0x00000706#32 = some (.waitst 7#3) := by decide
/-- V69. -/
theorem test_decode_waitedge : decode 0x00000107#32 = some (.waitedge true) := by decide
/-- V74. -/
theorem test_decode_drain : decode 0x00000008#32 = some (.drain) := by decide
/-- V82. -/
theorem test_decode_setfreq : decode 0x00000009#32 = some (.setfreq) := by decide
/-- V106. -/
theorem test_decode_rssi : decode 0x0000FF0A#32 = some (.rssi 0xFF#8) := by decide
/-- V108. -/
theorem test_decode_rreset : decode 0x0000000B#32 = some (.rreset) := by decide
/-- V111. -/
theorem test_decode_preset : decode 0x0000030C#32 = some (.preset .txcfg) := by decide
/-- V20. -/
theorem test_decode_encode : decode 0x00000010#32 = some (.encode) := by decide
/-- V133. -/
theorem test_decode_decode : decode 0x00000211#32 = some (.decode .x4) := by decide
/-- P1. -/
theorem test_decode_crc : decode 0x00000012#32 = some (.crc) := by decide
/-- V25. -/
theorem test_decode_buildreq : decode 0x00000013#32 = some (.buildreq) := by decide
/-- V24. -/
theorem test_decode_extract : decode 0x00000014#32 = some (.extract) := by decide
/-- V176. -/
theorem test_decode_rinit : decode 0x00000020#32 = some (.rinit) := by decide
/-- P5. -/
theorem test_decode_attempt : decode 0x00000021#32 = some (.attempt) := by decide
/-- P7. -/
theorem test_decode_discover : decode 0x00000022#32 = some (.discover) := by decide
/-- V178. -/
theorem test_decode_boot : decode 0x00000023#32 = some (.boot) := by decide
/-- V1 to V7, V107, V112: the reserved space. -/
theorem test_decode_reserved :
    [0x00000000#32, 0x0000000D#32, 0x000000FF#32, 0x01000021#32, 0x00000121#32, 0x00000311#32, 0x00008D01#32, 0x0001000A#32,
      0x0000040C#32].all (fun w => (decode w).isNone) = true := by decide
/-- The table's numbering: one word, nothing above 32 bits. -/
theorem test_decodeTableWord : decodeTableWord 32 0x00100D01 = some (.wreg 0x0D#6 false 0x10#8) ∧
    decodeTableWord 64 0x00100D01 = none := by decide

/-! ### Single instructions -/

/-- V51: sent `7F 55`; CS_STATE 2, CS_FIFO 15. -/
theorem test_wreg :
    (after 0x00557F01 (ready 0 0 (chip [[0x2F, 0x00]]))).map
      (fun t => (outcome t, sentOf t.history, t.status.csState, t.status.csFifo, t.status.csValid)) =
      some ((.ok, 0, 0, 0), [[0x7F#8, 0x55#8]], 2#3, 15#4, true) := by decide +kernel
/-- V54: RES0 is the second byte; bit 7 of the status byte is not stored. -/
theorem test_rreg :
    (after 0x00007502 (ready 0 0 (chip [[0x8F, 0x01]]))).map
      (fun t => (outcome t, sentOf t.history, t.status.csState, t.status.csFifo)) =
      some ((.ok, 1, 0, 0), [[0xF5#8, 0x00#8]], 0#3, 15#4) := by decide +kernel
/-- V55. -/
theorem test_wburst :
    (after 0x00023F03 (withRam 0 [0x55, 0x54] (ready 0 0 (chip [[0x2F, 0x2F, 0x2F]])))).map
      (fun t => (outcome t, sentOf t.history)) =
      some ((.ok, 0, 0, 0), [[0x7F#8, 0x55#8, 0x54#8]]) := by decide +kernel
/-- V8, V9, V18: BADARG comes before ALLOC; V19: the last byte of the RAM. -/
theorem test_wburst_checks :
    (after 0x00003F03 (ready 0 0 .quiet)).map outcome = some (.badArg, 0, 0, 0) ∧
    (after 0x00023F03 (ready 0x800 0 .quiet)).map outcome = some (.badArg, 0, 0, 0) ∧
    (after 0x00023F03 (ready 0x7FF 0 .quiet)).map outcome = some (.alloc, 0, 0, 0) ∧
    (after 0x00013F03 (ready 0x7FF 0 .quiet)).map outcome = some (.ok, 0, 0, 0) := by decide +kernel
/-- V56. -/
theorem test_rburst :
    (after 0x00033F04 (ready 0x180 0 (chip [[0x13, 0xAA, 0xBB, 0xCC]]))).map
      (fun t => (sentOf t.history, t.ram, t.status.csState, t.status.csFifo)) =
      some ([[0xFF#8, 0x00#8, 0x00#8, 0x00#8]], [(0x180, 0xAA#8), (0x181, 0xBB#8), (0x182, 0xCC#8)], 1#3, 3#4) :=
  by decide +kernel
/-- V59. -/
theorem test_strobe :
    (after 0x00003005 (ready 0 0 (chip [[0x7F]]))).map
      (fun t => (sentOf t.history, t.status.csState, t.status.csFifo)) =
      some ([[0x30#8]], 7#3, 15#4) := by decide +kernel
/-- V61: 14 polls, the last at exactly 25 ms. -/
theorem test_waitst_timeout :
    (after 0x00000206 (ready 0x19 0 (chip (List.replicate 20 [0x0F, 0x00])))).map
      (fun t => (outcome t, (xfersOf t.history).map (fun e => e.2.toNat))) =
      some ((.timeout, 0, 25, 25), [0, 2, 4, 6, 8, 10, 12, 14, 16, 18, 20, 22, 24, 25]) := by decide +kernel
/-- V62. -/
theorem test_waitst_reached :
    (after 0x00000206 (ready 0x19 0 (chip [[0x0F, 0], [0x0F, 0], [0x2F, 0]]))).map
      (fun t => (outcome t, (xfersOf t.history).map (fun e => e.2.toNat))) =
      some ((.ok, 1, 4, 4), [0, 2, 4]) := by decide +kernel
/-- V73: the test at exactly T succeeds; no exchange. -/
theorem test_waitedge :
    (after 0x00000107 (ready 5 0 (gdo [false, false, false, false, false, true]))).map
      (fun t => (outcome t, xfersOf t.history, t.status.csValid)) =
      some ((.ok, 1, 5, 5), [], false) := by decide +kernel
/-- V71. -/
theorem test_waitedge_zero_budget :
    (after 0x00000107 (ready 0 0 (gdo [false]))).map outcome = some (.timeout, 0, 0, 0) := by decide +kernel
/-- V74. -/
theorem test_drain_overshoot :
    (after 0x00000008 (ready 0x00040096 0x180 (chip [[0, 0], [0, 3], [0, 1, 2, 3], [0, 2], [0, 4, 5]]))).map
      (fun t => (outcome t, held 0x180 6 t)) =
      some ((.ok, 5, 5, 10), [some 1#8, some 2#8, some 3#8, some 4#8, some 5#8, none]) := by decide +kernel
/-- V76: polls at 0, 5, 10, 12. V77: RES1 counts the bytes written. V79: ALLOC before the burst. V81: the target test
comes first. V10, V11: BADARG. -/
theorem test_drain_ends :
    (after 8 (ready 0x0004000C 0x180 (chip (List.replicate 4 [0, 0])))).map
        (fun t => (xfersOf t.history).map (fun e => e.2.toNat)) = some [0, 5, 10, 12] ∧
    [(0x0004000A#32, 0x180#32, [[0, 2], [0, 1, 2], [0, 0], [0, 0]]), (0x00040096#32, 0x7FE#32, [[0, 3]]),
      (0x0004000A#32, 0x180#32, [[0, 0], [0, 0], [0, 4], [0, 1, 2, 3, 4]]), (0x00000096#32, 0x180#32, []),
      (0x08010096#32, 0x180#32, [])].map
      (fun (e : Word × Word × List (List Byte)) => (after 8 (ready e.1 e.2.1 (chip e.2.2))).map outcome) =
      [some (.timeout, 0, 2, 10), some (.alloc, 0, 0, 0), some (.ok, 4, 4, 10), some (.badArg, 0, 0, 0),
        some (.badArg, 0, 0, 0)] := by decide +kernel
/-- V82. -/
theorem test_setfreq :
    (after 0x00000009 (ready 0x43D8F5C3 0 (chip (List.replicate 3 [0x0F, 0x0F])))).map
      (fun t => (outcome t, sentOf t.history, t.regs.freqWord, t.regs.freqMhz)) =
      some ((.ok, 0x10B071, 0, 0), [[0x0D#8, 0x10#8], [0x0E#8, 0xB0#8], [0x0F#8, 0x71#8]], 0x10B071#24, 0#32) :=
  by decide +kernel
/-- V13 to V17. -/
theorem test_setfreq_domain :
    [0x7FC00000#32, 0xBF800000#32, 0x45D00000#32, 0x7F800000#32, 0x80000000#32].map f32InDomain =
      [false, false, false, false, true] := by decide +kernel
/-- V89, V91 to V95. -/
theorem test_freq_words :
    [(0x44591333#32, 0x21656A#24), (0x00000000#32, 0x000000#24), (0x3DD00000#32, 0x000100#24),
      (0x41D00000#32, 0x010000#24), (0x39D002E2#32, 0x000000#24), (0x3A51B717#32, 0x000002#24)].all
      (fun e => freqWordCore resetCfg e.1 == e.2) = true :=
  by decide +kernel
/-- R15: ties at 24 bits go to the even neighbour; one past 24 bits that is no tie goes to the nearer. -/
theorem test_round_ties : [(2 ^ 24 + 1, 2 ^ 24), (2 ^ 24 + 3, 2 ^ 24 + 4), (2 ^ 25 + 3, 2 ^ 25 + 4), (2 ^ 24 - 1, 2 ^ 24 - 1)].all
    (fun (e : Nat × Nat) => roundSig 24 e.1 == e.2) = true := by decide +kernel
/-- V97 to V106. -/
theorem test_rssi :
    [(0x00, 0xFFFFFFB6#32), (0x01, 0xFFFFFFB6#32), (0x02, 0xFFFFFFB7#32), (0x64, 0xFFFFFFE8#32), (0x7F, 0xFFFFFFF5#32),
      (0x80, 0xFFFFFF76#32), (0x81, 0xFFFFFF77#32), (0xC8, 0xFFFFFF9A#32), (0xFE, 0xFFFFFFB5#32), (0xFF, 0xFFFFFFB6#32)].all
      (fun e => (after (0x0A + 256 * e.1) (ready 0 0 .quiet)).map (fun t => t.regs.res0) == some e.2) = true :=
  by decide +kernel
/-- V108. -/
theorem test_rreset :
    (after 0x0000000B (ready 0 0 (chip (List.replicate 3 [0x0F])))).map
      (fun t => (outcome t, (xfersOf t.history).map (fun e => (e.1, e.2.toNat)))) =
      some ((.ok, 0, 0, 3), [([0x30#8], 0), ([0x3A#8], 1), ([0x3B#8], 2)]) := by decide +kernel
/-- V110: ascending address, frequency bytes put in. -/
theorem test_preset_order :
    (after 0x0000000C { ready 0 0 (chip (List.replicate 3 [0x0F, 0x0F])) with
      cfg := { resetCfg with presetDefault := [(0x0F#6, 0x00#8), (0x0D#6, 0x00#8), (0x0E#6, 0x00#8)] }
      regs := { Regs.reset with freqWord := 0x10B071#24 } }).map
      (fun t => sentOf t.history) =
      some [[0x0D#8, 0x10#8], [0x0E#8, 0xB0#8], [0x0F#8, 0x71#8]] :=
  by decide +kernel
/-- V111: no exchange; ChipStatus unchanged. -/
theorem test_preset_empty :
    (after 0x0000030C { ready 0 0 .quiet with cfg := { resetCfg with txConfig := [] } }).map
      (fun t => (outcome t, sentOf t.history, t.status.csValid)) =
      some ((.ok, 0, 0, 0), [], false) := by decide +kernel
/-- V120 to V130. -/
theorem test_encode_core :
    [([], []), ([0x13], [0x64, 0x7F]), ([0x00], [0x00, 0x7F]), ([0xFF], [0x7F, 0xFF]), ([0x55], [0x55, 0x7F]),
      ([0xF0], [0x07, 0xFF]), ([0xA5, 0x5A], [0x52, 0xCB, 0x5F]), ([0x00, 0x00], [0x00, 0x40, 0x1F]),
      ([0x01, 0x02, 0x03], [0x40, 0x48, 0x16, 0x07]), ([0x01, 0x02, 0x03, 0x04], [0x40, 0x48, 0x16, 0x04, 0x41]),
      ([0x10, 0x27, 0x00, 0x00], [0x04, 0x5C, 0x90, 0x04, 0x01])].all
      (fun (e : List Byte × List Byte) => encodeCore e.1 == e.2) = true := by decide +kernel
/-- V128 at src 0 and dst 0x100; V21, V21b: the end of the RAM. -/
theorem test_encode :
    (after 0x10 (withRam 0 [1, 2, 3] (ready 0x00030000 0x100 .quiet))).map (fun t => (outcome t, held 0x100 5 t)) =
      some ((.ok, 4, 0, 0), [some 0x40#8, some 0x48#8, some 0x16#8, some 0x07#8, none]) ∧
    (after 0x10 (withRam 0 [1, 2, 3, 4] (ready 0x00040000 0x7FB .quiet))).map outcome = some (.ok, 5, 0, 0) ∧
    (after 0x10 (withRam 0 [1, 2, 3, 4] (ready 0x00040000 0x7FC .quiet))).map outcome =
      some (.alloc, 0, 0, 0) := by decide +kernel
/-- V131 to V148. -/
theorem test_decode_core :
    [([0x64, 0x7F], 1, 4, [0x13], 0),
      ([0x64], 1, 4, [], 0),
      ([0x0F, 0xF0, 0x0F, 0x00, 0x0F, 0xFF, 0xFF, 0xFF], 4, 4, [0x13], 0),
      ([0x00, 0x00, 0x0F, 0x00, 0x0F, 0x0F, 0xFF, 0x00, 0xF0, 0x0F, 0, 0, 0, 0, 0x0F, 0, 0, 0, 0, 0x0F], 4, 256, [0x10, 0x27, 0, 0], 0),
      ([0, 0, 0, 0, 0x0F, 0xFF, 0xFF, 0xFF], 4, 4, [0x00], 0),
      ([0x0F, 0xFF, 0xFF, 0xFF, 0xFF, 0, 0, 0, 0, 0x0F, 0xFF, 0xFF], 4, 4, [0xFF, 0x00], 0),
      ([0x30, 0x00, 0x30, 0xC0, 0x03, 0x3C, 0x00, 0x3F], 2, 4, [1, 2, 3], 0),
      ([0x40, 0x48, 0x16, 0x07], 1, 2, [1, 2], 2),
      ([0x40, 0x48, 0x16, 0x07], 1, 3, [1, 2, 3], 2),
      ([0x40, 0x48, 0x16, 0x07], 1, 4, [1, 2, 3], 0),
      ([0, 0], 1, 4, [], 1),
      ([0xFF, 0xFF], 1, 4, [], 0),
      ([], 1, 4, [], 0),
      ([], 1, 0, [], 2),
      ([0xF0], 4, 4, [], 0),
      ([0xF7, 0x80], 4, 4, [], 0),
      ([0xF0], 2, 4, [], 0),
      ([0xF0], 1, 4, [], 0)].all
      (fun (e : List Byte × Nat × Nat × List Byte × Nat) => decodeCore e.1 e.2.1 e.2.2.1 == e.2.2.2) = true :=
  by decide +kernel
/-- V149. -/
theorem test_decode_zero_fill :
    (after 0x00000011 (withRam 0x80 [0xAA, 0xAA, 0xAA, 0xAA, 0xAA] (withRam 0x100 [0x64, 0x7F] (ready 0x00020100 0x00040080 .quiet)))).map
      (fun t => (outcome t, held 0x80 5 t)) =
      some ((.ok, 1, 0, 0), [some 0x13#8, some 0#8, some 0#8, some 0#8, some 0xAA#8]) := by decide +kernel
/-- V150 to V158, V160. -/
theorem test_crc_core :
    [([], 0x0000#16), ([0x31, 0x32, 0x33, 0x34, 0x35, 0x36, 0x37, 0x38, 0x39], 0x2189#16), ([0x00, 0x00], 0x0000#16),
      ([0x01], 0x1189#16), ([0xFF], 0x0F78#16), ([0x41], 0x538D#16), ([0x13, 0x10], 0xAF78#16),
      ([0x55, 0x55, 0x55, 0x55, 0x55, 0x55, 0x55, 0x55], 0x852C#16),
      ([0x13, 0x10, 0x00, 0x45, 0x10, 0x03, 0xEE, 0xD6, 0x00, 0x45, 0x20, 0x0A, 0x50, 0x14, 0x00, 0x0A, 0x40, 0x78, 0x74],
        0x0000#16)].all (fun (e : List Byte × BitVec 16) => crcCore e.1 == e.2) = true := by decide +kernel
/-- V151. -/
theorem test_crc :
    (after 0x00000012 (withRam 0x80 [0x31, 0x32, 0x33, 0x34, 0x35, 0x36, 0x37, 0x38, 0x39] (ready 0x00090080 0 .quiet))).map outcome =
      some (.ok, 0x2189, 0x8921, 0) := by decide +kernel
/-- The frame of V161. -/
def frame161 : List Byte :=
  [0x50, 0x00, 0x00, 0x00, 0x03, 0xFF, 0xFF, 0xFF, 0xFF, 0x64, 0x41, 0x10, 0x05, 0x45, 0x04, 0x58, 0x13, 0xBC, 0xD7, 0x00,
    0x54, 0x50, 0x24, 0xA1, 0x05, 0x45, 0x10, 0x04, 0xA1, 0x01, 0x43, 0xD1, 0x77]
/-- V161 at dst 0x7DF, V25. -/
theorem test_buildreq :
    (after 0x00000013 (ready 0 0x7DF .quiet)).map
      (fun t => (outcome t, held 0x7DF 33 t)) =
      some ((.ok, 33, 0x7478, 0), frame161.map some) := by decide +kernel
/-- V162 (METER_ID 0) and V25b. -/
theorem test_buildreq_other :
    (reqFrame resetCfg 0#32).drop 9 = [0x64, 0x41, 0x10, 0x05, 0x45, 0x00, 0x40, 0x10, 0x04, 0x01, 0x00, 0x54, 0x50,
      0x24, 0xA1, 0x05, 0x45, 0x10, 0x04, 0xA1, 0x01, 0x48, 0x11, 0x4F] ∧
    (after 0x13 (ready 0 0x7E0 .quiet)).map outcome = some (.alloc, 0, 0, 0) := by decide +kernel
/-- A 49-byte buffer with the given bytes set. -/
def buffer (l : List (Nat × Byte)) : List Byte := l.foldl (fun b e => b.set e.1 e.2) (List.replicate 49 0)

/-- The buffer of P3. -/
def bufferP3 : List Byte := buffer [(18, 0x10), (19, 0x27), (31, 0x24), (44, 0x06), (45, 0x12), (48, 0x05)]

/-- V168 and V164. -/
theorem test_extract :
    (after 0x14 (withRam 0x80 (buffer [(18, 0xFF), (19, 0xFF), (20, 0xFF), (21, 0xFF), (31, 0xFF), (44, 0x06), (45, 0x12),
        (48, 0x07)]) (ready 0x00310080 0 .quiet))).map
        (fun t => (outcome t, t.regs.rdIndex, t.regs.rdMisc)) = some ((.ok, 1, 0, 0), 0xFFFFFFFF#32, 0x1206FF07#32) ∧
    (after 0x14 (withRam 0x80 (buffer [(18, 0x10), (19, 0x27), (31, 0x24)]) (ready 0x00300080 0 .quiet))).map
        (fun t => (outcome t, t.regs.rdIndex, t.regs.rdMisc)) = some ((.ok, 1, 0, 0), 0x2710#32, 0x2400#32) :=
  by decide +kernel
/-- V165 (47 bytes), V169 (zero reading), V23 (past the RAM) and V24 (no range check below 48 bytes). -/
theorem test_extract_ends :
    (after 0x14 (withRam 0x80 bufferP3 (ready 0x002F0080 0 .quiet))).map outcome = some (.malformed, 0, 0, 0) ∧
    (after 0x14 (withRam 0x80 (buffer [(17, 0x99), (22, 0x99)]) (ready 0x00310080 0 .quiet))).map outcome =
      some (.zeroReading, 0, 0, 0) ∧
    (after 0x14 (ready 0x003007E0 0 .quiet)).map outcome = some (.alloc, 0, 0, 0) ∧
    (after 0x14 (ready 0x002F07F0 0 .quiet)).map outcome = some (.malformed, 0, 0, 0) := by decide +kernel
/-- V176. -/
theorem test_rinit :
    (after 0x00000020 (let s := ready 0 0 (chip (List.replicate 9 [0x0F, 0x0F]))
      { s with regs := { s.regs with freqMhz := 0x43D8F5C3#32 } })).map
      (fun t => (outcome t, sentOf t.history)) =
      some ((.ok, 0x10B071, 0, 3), [[0x30#8], [0x3A#8], [0x3B#8],
      [0x0D#8, 0x10#8], [0x0E#8, 0xB0#8], [0x0F#8, 0x71#8], [0x0D#8, 0x10#8], [0x0E#8, 0xB0#8], [0x0F#8, 0x71#8]]) :=
  by decide +kernel
/-- V177. -/
theorem test_rinit_nan :
    (after 0x00000020 { ready 0 0 .quiet with regs := { Regs.reset with freqMhz := 0x7FC00000#32 } }).map
      (fun t => (outcome t, sentOf t.history)) =
      some ((.badArg, 0, 0, 0), []) := by decide +kernel
/-- P5 and V170. -/
theorem test_attempt_fails :
    (after 0x00000021 (ready 0 0 (chip (List.replicate 40 [0x0F, 0x00])))).map
      (fun t => (statusWord t.status, outcome t, (sentOf t.history).length)) =
      some (0x0006F812#32, (.timeout, 0, 0, 25), 16) := by decide +kernel
/-- The answers of P6's chip to an attempt of `chunks` preamble chunks whose response capture is `raw`, in two equal bursts. -/
def answersP6 (chunks : Nat) (raw : List Byte) : List (List Byte) :=
  let half := raw.length / 2
  List.replicate (5 + chunks) [0x20] ++ List.replicate 7 [0x10] ++ [[0x10, 0x10]]
    ++ [[0x10, 0x08], [0x10, 1, 2, 3, 4, 5, 6, 7, 8]] ++ List.replicate 4 [0x10] ++ [[0x10, 0x00]]
    ++ [[0x10, BitVec.ofNat 8 half], 0x10 :: raw.take half, [0x10, BitVec.ofNat 8 half], 0x10 :: raw.drop half]
    ++ List.replicate 3 [0x10]

/-- The capture R of P6. -/
def captureP6 : List Byte := expandBits 4 (encodeCore bufferP3)

/-- The start of P6 under a configuration: FREQ_WORD as `setfreq 433.92` leaves it. -/
def startP6 (c : Cfg) (raw : List Byte) : State :=
  let s := ready 0 0 { Oracle.quiet with chip := answersP6 c.preChunks raw, gdo := [true, false] }
  { s with cfg := c, regs := { s.regs with freqWord := 0x10B071#24 } }

/-- A response of `n` zero bytes at OSR 1, sixty bytes of line code, after one preamble chunk. -/
def startZeros (n : Nat) : State :=
  let raw := encodeCore (List.replicate n 0) ++ List.replicate (60 - (10 * n + 7) / 8) 0xFF
  startP6 { resetCfg with preChunks := 1, respOsr := .x1, respRawLen := 60 } raw

/-- P6 and V175. -/
theorem test_attempt_succeeds :
    (nextOf (exec .attempt (startP6 resetCfg captureP6))).map (fun t => (statusWord t.status, outcome t,
      decide (publishesOf t.history = [(0x2710#32, 5#8, 36#8, 6#8, 18#8)]))) =
      some (0x00050902#32, (.ok, 1, 0x00F80031, 1675), true) := by decide +kernel
/-- R250, R268: 47 decoded bytes are MALFORMED, -/
theorem test_attempt_malformed :
    (nextOf (exec .attempt (startZeros 47))).map outcome = some (.malformed, 0, 0x003C002F, 155) := by decide +kernel
/-- and 48 zero bytes a ZERO_READING. -/
theorem test_attempt_zero_reading :
    (nextOf (exec .attempt (startZeros 48))).map outcome = some (.zeroReading, 0, 0x003C0030, 155) := by decide +kernel
/-- R261: the values of ATT_STATE in P5's attempt and in one that decodes. -/
theorem test_attempt_states :
    (attemptCore resetCfg).attWrites (ready 0 0 (chip (List.replicate 40 [0x0F, 0x00]))) = [.transmitting, .failed] ∧
    (attemptCore (startZeros 47).cfg).attWrites (startZeros 47) =
      [.transmitting, .waitingForAck, .waitingForResponse, .decoding, .failed] := by decide +kernel
/-- P7: the attempt at the first candidate fails at the TX wait, the one at the second succeeds. -/
def startP7 : State :=
  ready 0 0 { Oracle.quiet with
    chip := List.replicate 34 [0x0F, 0x00] ++ answersP6 resetCfg.preChunks captureP6, gdo := [true, false] }

theorem test_discover_succeeds :
    (nextOf (exec .discover startP7)).map (fun t => (outcome t, [t.regs.freqMhz, t.regs.cand, t.regs.freqWord.zeroExtend 32],
      t.history.drop (t.history.length - 3))) =
      some ((.ok, 0x43D8E99A, 2, 1706), [0x43D8E99A#32, 0x43D8E99A#32, 0x0010AF81#32],
        [.publish 10000 5 36 6 18, .store 0x43D8E99A#32, .done .ok 1706]) := by decide +kernel
/-- P7: no candidate succeeds. -/
def deafP7 : State := ready 0 0 (chip (List.replicate 60 [0x0F, 0x00]))

theorem test_discover_not_found :
    (after 0x00000022 deafP7).map
      (fun t => (outcome t, t.regs.freqMhz, storesOf t.history)) =
      some ((.notFound, 0, 2, 56), 0#32, []) := by decide +kernel
/-- V178. -/
theorem test_boot_stored :
    (after 0x00000023 { ready 0 0 { Oracle.quiet with chip := List.replicate 9 [0x0F, 0x0F], load := [some 0x43D8F5C3#32] } with
      cfg := { resetCfg with freqMin := 0x43D8E148#32, freqMax := 0x43D8F5C3#32 } }).map
      (fun t => (outcome t, t.regs.freqMhz, (sentOf t.history).length, storesOf t.history)) =
      some ((.ok, 0x43D8F5C3, 0, 3), 0x43D8F5C3#32, 9, []) :=
  by decide +kernel
/-- V180: a stored NaN. -/
theorem test_boot_discovers :
    (after 0x00000023 (ready 0 0 { Oracle.quiet with
      chip := List.replicate 60 [0x0F, 0x00], load := [some 0x7FC00000#32] })).map outcome =
      some (.notFound, 0, 0x00020001, 56) := by decide +kernel
/-! ### Host port, IRQ and reset -/

/-- A command running in the state P5 starts from. -/
def busy : State := (ready 0x19 0 (chip (List.replicate 20 [0x0F, 0x00]))).withFetchWord 32 0x206

/-- V26 to V29. -/
theorem test_port_bus_errors :
    [HostAccess.read 0x1800 .w32, .write 0x1FFC .w32 4, .read 0x0004 .w16, .read 0x1002 .w32].all
      (fun a => (move (.host a) State.reset) == some { State.reset with response := .busError }) = true :=
  by decide +kernel
/-- V30, V31 and a read back of each width. -/
theorem test_port_ram :
    (move (.host (.write 0x17FF .w8 0xAB)) State.reset).map (fun t => t.ram) = some [(0x7FF, 0xAB#8)] ∧
    (move (.host (.write 0x1100 .w32 0x44332211)) State.reset).map (fun t => t.ram) =
      some [(0x100, 0x11#8), (0x101, 0x22#8), (0x102, 0x33#8), (0x103, 0x44#8)] ∧
    (move (.host (.read 0x1102 .w16)) (withRam 0x100 [0x11, 0x22, 0x33, 0x44] State.reset)).map (fun t => t.response) =
      some (.data 0x4433#32) := by decide +kernel
/-- R31 to R42: what a host reads of each register, all of them distinct. -/
theorem test_port_reads :
    [(0x00C#13, 1#32), (0x010#13, 2#32), (0x014#13, 3#32), (0x018#13, 4#32), (0x01C#13, 5#32), (0x020#13, 0x00ABCDEF#32),
      (0x024#13, 6#32), (0x028#13, 7#32), (0x02C#13, 8#32), (0x030#13, 9#32), (0x034#13, 10#32), (0x008#13, 1#32)].all
      (fun e => (move (.host (.read e.1 .w32)) { State.reset with regs := { ie := true, arg0 := 1, arg1 := 2, res0 := 3, res1 := 4, freqMhz := 5, freqWord := 0xABCDEF, meterId := 6, rdIndex := 7, rdMisc := 8, now := 9, cand := 10 } }).map
        (fun t => t.response) == some (.data e.2)) = true := by decide +kernel
/-- V33, V37: ignored, REJ set, the command goes on. -/
theorem test_port_busy :
    (move (.host (.write 0x0000 .w32 0x21)) busy).map (fun t => (t.ctx, t.status.rej)) = some (busy.ctx, true) ∧
    (move (.host (.write 0x1000 .w32 1)) busy).map (fun t => (t.ram, t.status.rej)) = some ([], true) := by decide +kernel
/-- V34, V35, V36. -/
theorem test_port_w1c :
    (move (.host (.write 0x0004 .w32 4)) { busy with status := { busy.status with rej := true } }).map
        (fun t => t.status.rej) = some false ∧
    (move (.host (.write 0x0004 .w32 6)) { State.reset with
        status := { Status.reset with done := true, rej := true } }).map (fun t => statusWord t.status) = some 0#32 ∧
    (move (.host (.read 0x0000 .w32)) busy).map (fun t => t.response) = some (.data 0#32) := by decide +kernel
/-- V38 to V41. -/
theorem test_irq :
    (after 0x0A { State.reset with regs := { Regs.reset with ie := true } }).map irq = some true ∧
    (after 0x0A State.reset).map (fun t => (irq t, t.status.done)) = some (false, true) ∧
    irq (regWrite 0x004 2 { State.reset with
      status := { Status.reset with done := true }, regs := { Regs.reset with ie := true } }) = false ∧
    irq (regWrite 0x000 0x21 { State.reset with
      status := { Status.reset with done := true }, regs := { Regs.reset with ie := true } }) = false := by decide +kernel
/-- V181, V182: after block reset in the middle of a command. -/
theorem test_reset_word :
    (move .reset busy).map (fun t => (statusWord t.status, t.regs, t.ctx)) = some (0#32, Regs.reset, Ctx.idle) :=
  by decide +kernel
/-- V65 by single moves: a poll, one tick, a poll, with the same end as the run. -/
theorem test_single_moves :
    nextOf (runMoves ((List.replicate 4 .seq) ++ [.seq, .tick] ++ List.replicate 6 .seq)
        ((ready 1 0 (chip [[0x0F, 0], [0x0F, 0]])).withFetchWord 32 0x106)) =
      (after 0x106 (ready 1 0 (chip [[0x0F, 0], [0x0F, 0]]))).map (fun t => t) := by decide +kernel
/-- R13 holds of the reset configuration, and fails of an empty capture; nor is another layout taken, nor another step, nor a
burst above 127 bytes (log 6, log 24). -/
theorem test_reset_cfg_ok :
    cfgWf resetCfg = true ∧ cfgWf { resetCfg with ackRawLen := 0 } = false ∧ cfgWf { resetCfg with decCap := 255 } = false ∧
      cfgWf { resetCfg with fstepLo := 39674 } = false ∧ cfgWf { resetCfg with occMask := 0x80 } = false := by decide +kernel

/-! ### States and operands that meet the hypotheses of the statements -/

/-- A command with the operand words `a0` and `a1` at its first line. -/
def latched (a0 a1 : Word) : State := (ready a0 a1 .quiet).withFetchWord 32 0

/-- The reset machine with one move lined up. -/
def due (m : Move) : State := { State.reset with agenda := [m] }

/-- A host read lined up. -/
def rd (addr : BitVec 13) (width : Width) : Move := .host (.read addr width)

/-- A host write of 0xFFFFFFFF lined up. -/
def wr (addr : BitVec 13) (width : Width) : Move := .host (.write addr width 0xFFFFFFFF#32)

theorem witness_EncodeInvertsDecode : decode 0x0000030C#32 = some (.preset .txcfg) := by decide

theorem witness_StepRunsTheLatchedCommand : cfgWf busy.cfg = true ∧ busy.status.busy = true ∧
    decode busy.ctx.opw = some (.waitst 2#3) ∧ busy.agenda = [] ∧
    { busy with agenda := [.run, .tick] }.agenda = .run :: [.tick] := by decide +kernel

theorem witness_ReservedWordCompletesIllegal : [0x00000000, 0x0000000D, 0x00000311, 0x01000021].all (fun w =>
    let s := State.reset.withFetchWord 32 w
    cfgWf s.cfg && s.status.busy && !inOpcodeTable s.ctx.opw && s.agenda == []) = true := by decide +kernel

theorem witness_TickNeedsIdleOrDelay_idle :
    cfgWf (due .tick).cfg = true ∧ (due .tick).agenda = [.tick] ∧ (due .tick).status.busy = false := by decide +kernel

theorem witness_TickNeedsIdleOrDelay_running : [none, some 1, some 2, some 65535].all (fun d => decide (
      let s := { busy with agenda := [.tick], ctx := { busy.ctx with delayLeft := d } }
    cfgWf s.cfg = true ∧ s.agenda = .tick :: [] ∧ s.status.busy = true ∧
      (s.ctx.delayLeft = none ∨ s.ctx.delayLeft = some 1 ∨ s.ctx.delayLeft = some (0 + 2) ∨
        s.ctx.delayLeft = some (65533 + 2)))) = true := by decide +kernel

theorem resetCfg_wf : cfgWf resetCfg = true := by decide +kernel

theorem witness_IdleMovesKeepTheBlockIdle :
    [Move.seq, .run, .tick, rd 0x004 .w32, rd 0x1000 .w8, wr 0x004 .w32, wr 0x0000 .w8, wr 0x17FC .w32].all (fun m => decide (
      cfgWf (due m).cfg = true ∧ (due m).status.busy = false ∧ (due m).ctx = .idle ∧ (due m).agenda = m :: [] ∧
        m ≠ .reset)) = true ∧
    (∀ w, wr 0x004 .w32 ≠ .host (.write 0x0000#13 .w32 w)) ∧ (∀ w, wr 0x0000 .w8 ≠ .host (.write 0x0000#13 .w32 w)) := by
  refine ⟨by decide +kernel, ?_, ?_⟩ <;> · intro w h; cases h

theorem witness_AcceptanceLatchesOperands :
    let s := due (wr 0x0000 .w32)
    cfgWf s.cfg = true ∧ s.status.busy = false ∧ s.agenda = .host (.write 0x0000#13 .w32 0xFFFFFFFF#32) :: [] := by
  decide +kernel

theorem witness_WritesWhileBusyAreIgnored_registers :
    [0x000#13, 0x00C#13, 0x010#13, 0x01C#13, 0x024#13, 0x004#13, 0x008#13].all (fun addr => decide (
      let s := { busy with agenda := [wr addr .w32] }
    cfgWf s.cfg = true ∧ s.status.busy = true ∧ s.agenda = .host (.write addr .w32 0xFFFFFFFF#32) :: [])) = true :=
  by decide +kernel

theorem witness_WritesWhileBusyAreIgnored_ram :
    [(0x1000#13, Width.w32), (0x17FE#13, .w16), (0x17FF#13, .w8)].all (fun e => decide (
      let s := { busy with agenda := [wr e.1 e.2] }
    cfgWf s.cfg = true ∧ s.status.busy = true ∧ 0x1000 ≤ e.1.toNat ∧ e.1.toNat < 0x1800 ∧ e.1.toNat % e.2.bytes = 0 ∧
      s.agenda = .host (.write e.1 e.2 0xFFFFFFFF#32) :: [])) = true := by decide +kernel

theorem witness_WritesWhileBusyAreIgnored_reads :
    let s := { busy with agenda := [rd 0x1000 .w32] }
    cfgWf s.cfg = true ∧ s.status.busy = true ∧ s.agenda = .host (.read 0x1000 .w32) :: [] := by decide +kernel

theorem witness_BusErrorChangesNothing : [(0x1800#13, Width.w8), (0x1FFF#13, .w8), (0x0000#13, .w16), (0x0FFD#13, .w32),
      (0x1001#13, .w16), (0x17FE#13, .w32)].all (fun e => decide (
      let s := due (rd e.1 e.2)
    cfgWf s.cfg = true ∧ s.agenda = .host (.read e.1 e.2) :: [] ∧
      (0x1800 ≤ e.1.toNat ∨ (e.1.toNat < 0x1000 ∧ (e.2 ≠ .w32 ∨ e.1.toNat % 4 ≠ 0)) ∨
        (0x1000 ≤ e.1.toNat ∧ e.1.toNat < 0x1800 ∧ e.1.toNat % e.2.bytes ≠ 0)))) = true := by decide +kernel

theorem witness_BusErrorChangesNothing_reserved : [0x038#13, 0xFFC#13].all (fun addr => decide (
      let s := due (wr addr .w32)
    cfgWf s.cfg = true ∧ s.agenda = .host (.write addr .w32 0xFFFFFFFF#32) :: [] ∧ 0x038 ≤ addr.toNat ∧
      addr.toNat ≤ 0xFFC ∧ addr.toNat % 4 = 0)) = true := by decide +kernel

theorem witness_RamAccessesAreLittleEndian_write :
    [(0x1000#13, Width.w32), (0x17FC#13, .w32), (0x17FE#13, .w16), (0x17FF#13, .w8)].all (fun e => decide (
      let s := due (wr e.1 e.2)
    cfgWf s.cfg = true ∧ 0x1000 ≤ e.1.toNat ∧ e.1.toNat < 0x1800 ∧ e.1.toNat % e.2.bytes = 0 ∧ s.status.busy = false ∧
      s.agenda = .host (.write e.1 e.2 0xFFFFFFFF#32) :: [])) = true := by decide +kernel

theorem witness_RamAccessesAreLittleEndian_read :
    let s := withRam 0x7FC [0x11, 0x22, 0x33, 0x44] (due (rd 0x17FC .w32))
    cfgWf s.cfg = true ∧ s.agenda = .host (.read 0x17FC .w32) :: [] ∧
      ∀ k, k < Width.w32.bytes →
        s.ram.byte ((0x17FC#13).toNat - 0x1000 + k) = some ((0x44332211#32).extractLsb' (8 * k) 8) := by decide +kernel

theorem witness_ReservedSpaceReadsZero : [0x038#13, 0xFFC#13].all (fun addr => decide (
      cfgWf (due (rd addr .w32)).cfg = true ∧ 0x038 ≤ addr.toNat ∧ addr.toNat ≤ 0xFFC ∧ addr.toNat % 4 = 0 ∧
      (due (rd addr .w32)).agenda = .host (.read addr .w32) :: [] ∧
      (due (wr addr .w32)).agenda = .host (.write addr .w32 0xFFFFFFFF#32) :: [])) = true := by decide +kernel

theorem witness_RegisterWritesStoreOrAreIgnored :
    [0x00C#13, 0x010#13, 0x01C#13, 0x024#13, 0x008#13, 0x004#13, 0x014#13, 0x018#13, 0x020#13, 0x028#13, 0x02C#13, 0x030#13,
      0x034#13].all (fun addr => decide (
      cfgWf (due (wr addr .w32)).cfg = true ∧ (due (wr addr .w32)).status.busy = false ∧
        (due (wr addr .w32)).agenda = .host (.write addr .w32 0xFFFFFFFF#32) :: [])) = true := by decide +kernel

theorem witness_RegisterReadsAnswerTheirValues :
    [0x000#13, 0x004#13, 0x008#13, 0x00C#13, 0x010#13, 0x014#13, 0x018#13, 0x01C#13, 0x020#13, 0x024#13, 0x028#13, 0x02C#13,
      0x030#13, 0x034#13].all (fun addr => decide (
      cfgWf (due (rd addr .w32)).cfg = true ∧ (due (rd addr .w32)).agenda = .host (.read addr .w32) :: [])) = true := by
  decide +kernel

theorem witness_InterruptIsDoneAndEnabled :
    (0x2#32).getLsbD 1 = true ∧ State.reset.status.busy = false := by decide

theorem witness_BlockResetClearsEverything :
    cfgWf { busy with agenda := [.reset] }.cfg = true ∧ { busy with agenda := [.reset] }.agenda = .reset :: [] := by
  decide +kernel

/-- Of every statement whose only hypothesis on the state is that the command stands at its first line. -/
theorem witness_AtStart : AtStart (latched 0 0) := by decide

/-- Of the statements that also need a well-formed configuration. -/
theorem witness_AtStart_cfgWf (a0 a1 : Word) : cfgWf (latched a0 a1).cfg = true ∧ AtStart (latched a0 a1) :=
  ⟨resetCfg_wf, rfl, rfl⟩

/-- A command blocked in the first `Delay` of RRESET. -/
def blocked : State :=
  let s := State.reset.withFetchWord 32 0x0B
  { s with ctx := { s.ctx with answers := [.exchange 0x0F#8 []], delayLeft := some 1 } }

theorem witness_StepKeepsInvariantAndNeverStops_running : Machine.Inv busy :=
  ⟨by decide +kernel, by decide, nofun, fun _ => ⟨_, rfl, nofun⟩, fun _ => ⟨rfl, rfl⟩⟩

theorem witness_StepKeepsInvariantAndNeverStops_blocked : Machine.Inv blocked :=
  ⟨by decide +kernel, by decide, nofun,
    fun _ => ⟨_, rfl, fun _ h => ⟨1, _, rfl, (Option.some.inj h) ▸ Nat.le_refl 1, (Option.some.inj h) ▸ Nat.le_refl 1⟩⟩,
    fun _ => ⟨rfl, rfl⟩⟩

theorem witness_StepKeepsInvariantAndNeverStops_idle : Machine.Inv (withRam 0x7FF [1] (due (wr 0x1000 .w32))) :=
  ⟨by decide +kernel, by decide, fun _ => rfl, nofun, nofun⟩

theorem witness_SingleMovesReachTheSameCompletion :
    Machine.Inv busy ∧ busy.status.busy = true ∧ busy.agenda = [] ∧ ∃ t, step busy = .next t :=
  ⟨witness_StepKeepsInvariantAndNeverStops_running, rfl, rfl, _, rfl⟩

/-- The machine after one exchange. -/
def exchanged : State := (doXfer 0x3D#8 [] { State.reset with oracle := chip [[0x2F]] }).2

theorem witness_ChipStatusMirrorsLastExchange : ChipStatusMirrors exchanged ∧ ∃ t, step exchanged = .next t :=
  ⟨⟨0x2F#8, [], rfl, rfl, rfl, rfl⟩, _, rfl⟩

theorem witness_ExchangesStayBalanced : ExchangesBalanced exchanged ∧ ∃ t, step exchanged = .next t := by
  refine ⟨?_, _, rfl⟩
  intro out answer now h
  rw [show exchanged.history = [Event.xfer [0x3D#8] [0x2F#8] 0#32] from rfl, List.mem_singleton] at h
  cases h
  decide

theorem witness_StepKeepsConfigurationAndHistory :
    (∃ t, step (due .reset) = .next t) ∧ (due .reset).agenda.head? = some .reset ∧
      (∃ t, step busy = .next t) ∧ busy.agenda.head? ≠ some .reset := ⟨⟨_, rfl⟩, rfl, ⟨_, rfl⟩, by decide⟩

/-- The frame rules over a class of instructions: one instruction of the class, at its first line. -/
theorem witness_frame_rules : AtStart (latched 0 0) ∧ Instr.rssi 0 ≠ .discover ∧ Instr.rssi 0 ≠ .boot ∧
    Instr.rssi 0 ≠ .attempt ∧ Instr.rssi 0 ≠ .drain ∧ Instr.rssi 0 ≠ .rreset ∧ Instr.rssi 0 ≠ .rinit ∧
    Instr.rssi 0 ≠ .encode ∧ Instr.rssi 0 ≠ .buildreq :=
  ⟨by decide, by decide, by decide, by decide, by decide, by decide, by decide, by decide, by decide⟩

theorem witness_frame_rules_waits : (∀ t, Instr.rssi 0 ≠ .waitst t) ∧ (∀ l, Instr.rssi 0 ≠ .waitedge l) ∧
    (∀ a n, Instr.rssi 0 ≠ .rburst a n) ∧ ∀ o, Instr.rssi 0 ≠ .decode o :=
  ⟨nofun, nofun, nofun, nofun⟩

/-- The end of the RAM in every state `latched`, which the ranges of the next witnesses are held against. -/
theorem ramSize_latched (a0 a1 : Word) : (latched a0 a1).cfg.ramSize = 2048 := rfl

/-- An exchange of two bytes and its answer; an unwritten byte. -/
theorem witness_ExchangeRecordsAndSetsChipStatus : ([0x10#8] : List Byte).length = ([0x00#8] : List Byte).length ∧
    Memory.byte [] 0x7FF = none := by decide

theorem witness_WregAndStrobeMakeOneExchange : AtStart (latched 0 0) ∧ (latched 0 0).cfg.hdrReadBit = 7 ∧
    (latched 0 0).cfg.hdrBurstBit = 6 := by decide

/-- WBURST and RBURST: n = 0, a reserved bit, the range one past the RAM, and the range that ends at it. -/
theorem witness_bursts :
    (AtStart (latched 0x800 0) ∧ (latched 0x800 0).ctx.a0.extractLsb' 11 21 ≠ 0#21) ∧
    (AtStart (latched 0x7FF 0) ∧ (latched 0x7FF 0).ctx.a0.extractLsb' 11 21 = 0#21 ∧
      2048 < argOff (latched 0x7FF 0).ctx.a0 + (2#8).toNat ∧ argOff (latched 0x7FF 0).ctx.a0 + (1#8).toNat ≤ 2048) := by
  decide

/-- WAITST and WAITEDGE: a reserved bit, and the least and the greatest budget. -/
theorem witness_waits : (latched 0x00010000 0).ctx.a0.extractLsb' 16 16 ≠ 0#16 ∧
    (latched 0 0).ctx.a0.extractLsb' 16 16 = 0#16 ∧ (latched 0x0000FFFF 0).ctx.a0.extractLsb' 16 16 = 0#16 := by decide

/-- DRAIN: N = 0, N = 2049, a reserved bit; and the least and the greatest N. -/
theorem witness_DrainCapturesUntilTargetOrTimeout :
    (argLen (latched 0 0).ctx.a0 = 0 ∧ 2048 < argLen (latched 0x08010000 0).ctx.a0 ∧
      (latched 0x00010000 0x800).ctx.a1.extractLsb' 11 21 ≠ 0#21) ∧
    [0x00010000#32, 0x0800FFFF#32].all (fun a0 => decide (
      1 ≤ argLen (latched a0 0).ctx.a0 ∧
        argLen (latched a0 0).ctx.a0 ≤ 2048 ∧ (latched a0 0).ctx.a1.extractLsb' 11 21 = 0#21)) = true := by decide +kernel

/-- SETFREQ: the greatest value of the domain, -0, and the first value outside. -/
theorem witness_SetfreqWritesTheWord : f32InDomain (latched 0x45D00000 0).ctx.a0 = false ∧
    f32InDomain (latched 0x45CFFFFF 0).ctx.a0 = true ∧ f32InDomain (latched 0x80000000 0).ctx.a0 = true :=
  ⟨(by decide +kernel : f32InDomain 0x45D00000#32 = false), (by decide +kernel : f32InDomain 0x45CFFFFF#32 = true),
    (by decide +kernel : f32InDomain 0x80000000#32 = true)⟩

/-- A tie, an exact number, and the ends of the domain. -/
theorem witness_FrequencyWordByRepeatedSubtraction : (1 ≤ 24 ∧ 2 ^ (24 - 1 + 1) ≤ 2 ^ 24 + 1 ∧ 2 ^ 24 + 1 < 2 ^ (24 + 1)) ∧
    2 ^ 24 - 1 < 2 ^ 24 ∧ cfgWf resetCfg = true ∧ f32InDomain 0x00000000#32 = true ∧ f32InDomain 0x45CFFFFF#32 = true := by
  decide +kernel

theorem witness_RssiConvertsToDbm : AtStart (latched 0 0) ∧ 128 ≤ (128#8).toNat ∧ (127#8).toNat < 128 := by decide

theorem witness_PresetWritesTableInOrder :
    let s := { latched 0 0 with cfg := { resetCfg with txConfig := [] } }
    AtStart s ∧ tableOf s.cfg .txcfg = [] := by decide

/-- ENCODE: a reserved bit in ARG0 or ARG1; each range one past the RAM; both ranges at its end. -/
theorem witness_EncodeWritesTheEncoding :
    (latched 0x800 0).ctx.a0.extractLsb' 11 5 ≠ 0#5 ∧ (latched 0 0x800).ctx.a1.extractLsb' 11 21 ≠ 0#21 ∧
    2048 < argOff (latched 0x000207FF 0).ctx.a0 + argLen (latched 0x000207FF 0).ctx.a0 ∧
    2048 < argOff (latched 0x00040000 0x7FC).ctx.a1 + (10 * argLen (latched 0x00040000 0x7FC).ctx.a0 + 7) / 8 ∧
    (latched 0x000407FC 0x7FB).ctx.a0.extractLsb' 11 5 = 0#5 ∧ (latched 0x000407FC 0x7FB).ctx.a1.extractLsb' 11 21 = 0#21 ∧
    argOff (latched 0x000407FC 0x7FB).ctx.a0 + argLen (latched 0x000407FC 0x7FB).ctx.a0 ≤ 2048 ∧
    argOff (latched 0x000407FC 0x7FB).ctx.a1 + (10 * argLen (latched 0x000407FC 0x7FB).ctx.a0 + 7) / 8 ≤ 2048 := by
  decide +kernel

theorem witness_EncoderLengthAndFraming :
    ([1, 2, 3, 4] : List Byte).length % 4 = 0 ∧ 0 < ([0x13] : List Byte).length ∧
      10 * ([0x13] : List Byte).length ≤ 15 ∧ 15 < (unpack (encodeCore [0x13])).length := by decide

/-- DECODE: as ENCODE, with a zero capacity and both ranges at the end of the RAM. -/
theorem witness_DecodeWritesTheBytes :
    (latched 0 0x800).ctx.a1.extractLsb' 11 5 ≠ 0#5 ∧
    2048 < argOff (latched 0 0x010107FF).ctx.a1 + argLen (latched 0 0x010107FF).ctx.a1 ∧
    [0x00000000#32, 0x00040080#32, 0x010006FF#32, 0x000107FF#32].all (fun a1 => decide (
      (latched 0x000807F8 a1).ctx.a0.extractLsb' 11 5 = 0#5 ∧ (latched 0x000807F8 a1).ctx.a1.extractLsb' 11 5 = 0#5 ∧
        argOff (latched 0x000807F8 a1).ctx.a0 + argLen (latched 0x000807F8 a1).ctx.a0 ≤ 2048 ∧
        argOff (latched 0x000807F8 a1).ctx.a1 + argLen (latched 0x000807F8 a1).ctx.a1 ≤ 2048)) = true := by decide +kernel

theorem witness_DecoderInvertsEncoder :
    ([0x13, 0x10] : List Byte).length < 3 ∧ 2 = ([0x13, 0x10] : List Byte).length ∧ 0 = ([] : List Byte).length := by decide

theorem witness_SampleByteF0GivesOneZero :
    ([false] : List Bool).getLast? ≠ some true ∧ ([true] : List Bool).head? ≠ some false ∧
      ([] : List Bool).getLast? ≠ some true ∧ ([] : List Bool).head? ≠ some false := by decide

/-- CRC: a reserved bit, the range one past the RAM, the whole RAM, and no bytes at all. -/
theorem witness_CrcReturnsRegisterAndSwap :
    (latched 0x800 0).ctx.a0.extractLsb' 11 5 ≠ 0#5 ∧
    2048 < argOff (latched 0x08010000 0).ctx.a0 + argLen (latched 0x08010000 0).ctx.a0 ∧
    [0x08000000#32, 0x000007FF#32].all (fun a0 => decide (
      (latched a0 0).ctx.a0.extractLsb' 11 5 = 0#5 ∧
        argOff (latched a0 0).ctx.a0 + argLen (latched a0 0).ctx.a0 ≤ 2048)) = true := by decide +kernel

theorem witness_CrcIsLinearWithZeroResidue : ([0x01] : List Byte).length = ([0xFE] : List Byte).length := by decide

/-- BUILDREQ: a reserved bit, the frame one past the RAM, the frame at its end. -/
theorem witness_BuildreqWritesTheFrame :
    (latched 0 0x800).ctx.a1.extractLsb' 11 21 ≠ 0#21 ∧
    (latched 0 0x7E0).ctx.a1.extractLsb' 11 21 = 0#21 ∧ 2048 < argOff (latched 0 0x7E0).ctx.a1 + 33 ∧
    (latched 0 0x7DF).ctx.a1.extractLsb' 11 21 = 0#21 ∧
    argOff (latched 0 0x7DF).ctx.a1 + 33 ≤ 2048 := by decide +kernel

theorem witness_PayloadCarriesYearAndSerial :
    cfgWf resetCfg = true ∧ 16 ≠ resetCfg.yearPos ∧ 16 ≠ resetCfg.serialPos ∧ 16 ≠ resetCfg.serialPos + 1 ∧
      16 ≠ resetCfg.serialPos + 2 := by decide +kernel

/-- EXTRACT: a reserved bit; 47 bytes; 48 bytes with the 49 read one past the RAM; and with them at its end. -/
theorem witness_ExtractReadsTheFields :
    (latched 0x800 0).ctx.a0.extractLsb' 11 5 ≠ 0#5 ∧
    ((latched 0x002F07F0 0).ctx.a0.extractLsb' 11 5 = 0#5 ∧ argLen (latched 0x002F07F0 0).ctx.a0 < 48) ∧
    (48 ≤ argLen (latched 0x003007D0 0).ctx.a0 ∧ 2048 < argOff (latched 0x003007D0 0).ctx.a0 + 49) ∧
    (latched 0x003007CF 0).ctx.a0.extractLsb' 11 5 = 0#5 ∧ 48 ≤ argLen (latched 0x003007CF 0).ctx.a0 ∧
    argOff (latched 0x003007CF 0).ctx.a0 + 49 ≤ 2048 := by decide +kernel

/-- EXTRACT, the two ends: test_extract_ends (a zero reading) and test_extract (a nonzero one) run both; here the bytes. -/
theorem witness_ExtractReadsTheFields_bytes :
    (memRead 0x80 49 (withRam 0x80 (buffer []) (latched 0x00310080 0))).1.1.getD 18 0 = 0#8 ∧
    (memRead 0x80 49 (withRam 0x80 bufferP3 (latched 0x00310080 0))).1.1.getD 18 0 = 0x10#8 := by decide

theorem witness_RinitResetsAndTunes :
    f32InDomain State.reset.regs.freqMhz = true ∧
      f32InDomain { State.reset with regs := { Regs.reset with freqMhz := 0x7FC00000#32 } }.regs.freqMhz = false :=
  ⟨(by decide +kernel : f32InDomain 0#32 = true), (by decide +kernel : f32InDomain 0x7FC00000#32 = false)⟩

/-- A run that answers a next state with a known end. -/
theorem next_of {i : Instr} {s : State} {r : ResultCode × Nat × Nat × Nat}
    (h : (nextOf (exec i s)).map outcome = some r) : ∃ t, exec i s = .next t ∧ t.status.result = r.1 := by
  cases he : exec i s with
  | next t => rw [he] at h; exact ⟨t, rfl, congrArg Prod.fst (Option.some.inj h)⟩
  | fault f => rw [he] at h; cases h
  | refused f => rw [he] at h; cases h

/-- ATTEMPT: OK at 49 decoded bytes, MALFORMED at 47, ZERO_READING at 48. -/
theorem witness_AttemptDecodesTheCapture :
    (∃ t, cfgWf (startP6 resetCfg captureP6).cfg = true ∧ AtStart (startP6 resetCfg captureP6) ∧
      exec .attempt (startP6 resetCfg captureP6) = .next t ∧ t.status.result = .ok) ∧
    (∃ t, cfgWf (startZeros 47).cfg = true ∧ AtStart (startZeros 47) ∧
      exec .attempt (startZeros 47) = .next t ∧ t.status.result = .malformed) ∧
    (∃ t, cfgWf (startZeros 48).cfg = true ∧ AtStart (startZeros 48) ∧
      exec .attempt (startZeros 48) = .next t ∧ t.status.result = .zeroReading) := by
  refine ⟨?_, ?_, ?_⟩
  · obtain ⟨t, h, hr⟩ := next_of (r := (.ok, 1, 0x00F80031, 1675)) (by
      have := congrArg (Option.map fun p => p.2.1) test_attempt_succeeds
      rwa [Option.map_map] at this)
    exact ⟨t, by decide +kernel, by decide, h, hr⟩
  · obtain ⟨t, h, hr⟩ := next_of test_attempt_malformed
    exact ⟨t, by decide +kernel, by decide, h, hr⟩
  · obtain ⟨t, h, hr⟩ := next_of test_attempt_zero_reading
    exact ⟨t, by decide +kernel, by decide, h, hr⟩

/-- DISCOVER: P7 with a success at the second candidate, and with none; the readings of the two ends of an attempt. -/
theorem witness_DiscoverStoresTheFirstSuccess :
    (∃ t, cfgWf startP7.cfg = true ∧ AtStart startP7 ∧ exec .discover startP7 = .next t ∧ t.status.result = .ok) ∧
    (∃ t, cfgWf deafP7.cfg = true ∧ AtStart deafP7 ∧ exec .discover deafP7 = .next t ∧
      t.status.result = .notFound) ∧
    AttemptEnd.reading resetCfg (.response captureP6) = some (0x2710#32, 0x12062405#32) ∧
    AttemptEnd.reading resetCfg .noTx = none := by
  refine ⟨?_, ?_, by decide +kernel, rfl⟩
  · obtain ⟨t, h, hr⟩ := next_of (r := (.ok, 0x43D8E99A, 2, 1706)) (by
      have := congrArg (Option.map fun p => p.1) test_discover_succeeds
      rwa [Option.map_map] at this)
    exact ⟨t, by decide +kernel, by decide, h, hr⟩
  · obtain ⟨t, h, hr⟩ := next_of (i := .discover) (s := deafP7) (r := (.notFound, 0, 2, 56)) (by decide +kernel)
    exact ⟨t, by decide +kernel, by decide, h, hr⟩

/-- A storage answer lined up. -/
def stored (v : Option Word) : State := ready 0 0 { Oracle.quiet with load := [v] }

theorem witness_stored (v : Option Word) : cfgWf (stored v).cfg = true ∧ AtStart (stored v) ∧
    (drawLoad (stored v).oracle).1 = v := ⟨resetCfg_wf, ⟨rfl, rfl⟩, rfl⟩

/-- BOOT: a stored frequency at each end of the range, -/
theorem witness_BootUsesTheStoredFrequency : [0x43D8E8F6#32, 0x43D8EA3D#32].all (fun v => decide (
      f32NaN v = false ∧ f32Val resetCfg.freqMin ≤ f32Val v ∧ f32Val v ≤ f32Val resetCfg.freqMax)) = true :=
  by decide +kernel

/-- and just outside it, or NaN. -/
theorem witness_BootElseRunsDiscovery :
    [0x43D8E8F5#32, 0x43D8EA3E#32, 0x7FC00000#32].all (fun v => decide (
      freqValid resetCfg v = false)) = true := by decide +kernel

end Sys2Proof.Tests
end

section
/-! The host port: where an access goes and what it may do to the state, one lemma a case (spec/10_state.md R31 to R44,
R54; spec/20_memory.md R84 to R90), and the statements about accesses while a command runs and about reserved space. -/

namespace Sys2Proof.Machine

/-! ### The address map (R84, R85) -/

/-- An aligned word access below 0x1000 goes to the register at its address. -/
theorem hostTarget_reg {addr : BitVec 13} (h : addr.toNat < 0x1000) (ha : addr.toNat % 4 = 0) :
    hostTarget addr .w32 = .reg addr.toNat := by simp [hostTarget, h, ha]

/-- An aligned access of any width from 0x1000 up to 0x1800 goes to RAM. -/
theorem hostTarget_ram {addr : BitVec 13} {width : Width} (hlo : 0x1000 ≤ addr.toNat) (hhi : addr.toNat < 0x1800)
    (ha : addr.toNat % width.bytes = 0) : hostTarget addr width = .ram (addr.toNat - 0x1000) := by
  simp [hostTarget, Nat.not_lt.mpr hlo, hhi, ha]

/-! ### One access -/

/-- A step whose next move is a host access makes that access. -/
theorem step_host {s : State} {a : HostAccess} {rest : List Move} (hc : cfgWf s.cfg = true)
    (ha : s.agenda = .host a :: rest) : step s = .next (hostAccess a { s with agenda := rest }) := by
  simp [step, hc, ha, moveStep]

/-- A word write to the register window writes the register at its address. -/
theorem hostAccess_write_reg {addr : BitVec 13} (h : addr.toNat < 0x1000) (ha : addr.toNat % 4 = 0) (w : Word) (s : State) :
    hostAccess (.write addr .w32 w) s = respond .written (regWrite addr.toNat w s) := by
  simp [hostAccess, hostWrite, hostTarget_reg h ha]

/-- A word read in the register window answers the register at its address. -/
theorem hostAccess_read_reg {addr : BitVec 13} (h : addr.toNat < 0x1000) (ha : addr.toNat % 4 = 0) (s : State) :
    hostAccess (.read addr .w32) s = respond (.data (regRead addr.toNat s)) s := by
  simp [hostAccess, hostRead, hostTarget_reg h ha]

/-- An aligned write into the RAM window stores the low bytes of its word, where no command runs (R54, R87). -/
theorem hostAccess_write_ram {addr : BitVec 13} {width : Width} (hlo : 0x1000 ≤ addr.toNat) (hhi : addr.toNat < 0x1800)
    (ha : addr.toNat % width.bytes = 0) (w : Word) (s : State) :
    hostAccess (.write addr width w) s =
      respond .written (whenFree s (memWrite (addr.toNat - 0x1000) (leBytes width.bytes w) s)) := by
  simp [hostAccess, hostWrite, hostTarget_ram hlo hhi ha]

/-- A read takes free draws at most (R90, R81). -/
theorem hostAccess_read (addr : BitVec 13) (width : Width) (s : State) :
    ∃ r o, hostAccess (.read addr width) s = respond r { s with oracle := o } := by
  simp only [hostAccess, hostRead]
  cases hostTarget addr width with
  | reg off => exact ⟨_, s.oracle, rfl⟩
  | ram off => exact ⟨_, (readBytes s.ram off width.bytes s.oracle).2, rfl⟩
  | nowhere => exact ⟨_, s.oracle, rfl⟩

/-! ### BUSY and the guarded writes (R54) -/

theorem whenFree_busy {s : State} (h : s.status.busy = true) (t : State) :
    whenFree s t = { s with status := s.status.rejected } := by simp [whenFree, h]

theorem whenFree_free {s : State} (h : s.status.busy = false) (t : State) : whenFree s t = t := by simp [whenFree, h]

/-- While a command runs, a write to CMD, ARG0, ARG1, FREQ_MHZ or METER_ID only sets REJ. -/
theorem regWrite_busy {s : State} (h : s.status.busy = true) {off : Nat} (w : Word)
    (hoff : off = 0x000 ∨ off = 0x00C ∨ off = 0x010 ∨ off = 0x01C ∨ off = 0x024) :
    regWrite off w s = { s with status := s.status.rejected } := by
  rcases hoff with rfl | rfl | rfl | rfl | rfl <;> exact whenFree_busy h _

/-! ### Reserved offsets and fields (R43) -/

theorem regRead_reserved {off : Nat} (h : 0x038 ≤ off) (s : State) : regRead off s = 0#32 := by
  unfold regRead
  split
  case h_14 => rfl
  all_goals omega

theorem regWrite_reserved {off : Nat} (h : 0x038 ≤ off) (w : Word) (s : State) : regWrite off w s = s := by
  unfold regWrite
  split
  case h_8 => rfl
  all_goals omega

/-- STATUS has no field at bit 3, nor from bit 20 on (R33). -/
theorem statusWord_reserved {i : Nat} (h : i = 3 ∨ 20 ≤ i) (t : Status) : (statusWord t).getLsbD i = false := by
  change (0#12 ++ BitVec.ofBool t.disc ++ t.att.code ++ t.csFifo ++ BitVec.ofBool t.csValid ++ t.csState ++ t.result.code
    ++ 0#1 ++ BitVec.ofBool t.rej ++ BitVec.ofBool t.done ++ BitVec.ofBool t.busy
    : BitVec (12 + 1 + 3 + 4 + 1 + 3 + 4 + 1 + 1 + 1 + 1)).getLsbD i = false
  rcases h with rfl | h
  · simp only [BitVec.getLsbD_append]
    rfl
  · iterate 10 rw [BitVec.getLsbD_append, if_neg (by omega)]
    exact BitVec.getLsbD_zero

/-- Bits that are all 0 make a field that reads 0. -/
theorem extractLsb'_zero_of_bits {n off len : Nat} {x : BitVec n} (h : ∀ i, off ≤ i → x.getLsbD i = false) :
    x.extractLsb' off len = 0#len :=
  BitVec.eq_of_getLsbD_eq fun i hi => by simp [BitVec.getLsbD_extractLsb', h (off + i) (Nat.le_add_right off i)]

/-- The bits above a register's own field read 0. -/
theorem zeroExtend_high {n : Nat} (x : BitVec n) (len : Nat) : (x.zeroExtend 32).extractLsb' n len = 0#len :=
  extractLsb'_zero_of_bits fun i hi => by
    rw [BitVec.zeroExtend, BitVec.getLsbD_setWidth, BitVec.getLsbD_of_ge x i hi, Bool.and_false]

/-! ### The statements -/

/-- Settles O11: by the target of the access; the guarded writes meet `whenFree` with BUSY set. -/
theorem writesWhileBusyAreIgnored : Obligations.WritesWhileBusyAreIgnored := by
  intro s rest w hc hb
  have hb' : { s with agenda := rest }.status.busy = true := hb
  refine ⟨fun addr haddr ha => ?_, fun addr width hlo hhi hal ha => ?_, fun ha => ?_, fun ha => ?_, fun addr width ha => ?_⟩
  · have hoff : addr.toNat = 0x000 ∨ addr.toNat = 0x00C ∨ addr.toNat = 0x010 ∨ addr.toNat = 0x01C ∨ addr.toNat = 0x024 := by
      bv_omega
    rw [step_host hc ha, hostAccess_write_reg (by omega) (by omega), regWrite_busy hb' w hoff]
    rfl
  · rw [step_host hc ha, hostAccess_write_ram hlo hhi hal, whenFree_busy hb']
    rfl
  · rw [step_host hc ha, hostAccess_write_reg (by decide) (by decide)]
    rfl
  · rw [step_host hc ha, hostAccess_write_reg (by decide) (by decide)]
    rfl
  · obtain ⟨r, o, hr⟩ := hostAccess_read addr width { s with agenda := rest }
    exact ⟨r, o, by rw [step_host hc ha, hr]; rfl⟩

/-- Settles O14: a reserved offset is no case of the register map, and the reserved fields are the zero bits of the words
that STATUS, CTRL, FREQ_WORD and CMD are read as. -/
theorem reservedSpaceReadsZero : Obligations.ReservedSpaceReadsZero := by
  refine ⟨fun s rest addr hc hlo hhi hal => ⟨fun ha => ?_, fun w ha => ?_⟩, fun s => ?_⟩
  · rw [step_host hc ha, hostAccess_read_reg (by omega) hal, regRead_reserved hlo]
    rfl
  · rw [step_host hc ha, hostAccess_write_reg (by omega) hal, regWrite_reserved hlo]
    rfl
  · exact ⟨statusWord_reserved (.inl rfl) _, extractLsb'_zero_of_bits fun i hi => statusWord_reserved (.inr hi) _,
      zeroExtend_high _ 31, zeroExtend_high _ 8, rfl⟩

end Sys2Proof.Machine
end

section
/-! What a host access may do to the state, said once over all accesses, and ChipStatus as the mirror of the last exchange
(spec/10_state.md R47, R48). -/

namespace Sys2Proof.Machine

/-! ### The effects of a host access -/

/-- The states a host access may lead to, before its response is recorded (R31 to R43, R54, R86, R90). -/
inductive HostEffect (s : State) : State → Prop
  /-- a read, or a write that is ignored without REJ -/
  | draws (o : Oracle) : HostEffect s { s with oracle := o }
  /-- a guarded write while a command runs -/
  | rejects (busy : s.status.busy = true) : HostEffect s { s with status := s.status.rejected }
  /-- a write to CMD -/
  | issues (free : s.status.busy = false) (w : Word) : HostEffect s (accept w s)
  /-- a write to STATUS -/
  | clears (w : Word) : HostEffect s { s with status := statusW1C w s.status }
  /-- a write to CTRL -/
  | enables (b : Bool) : HostEffect s { s with regs := { s.regs with ie := b } }
  /-- a write to one of the host's other registers -/
  | operands (free : s.status.busy = false) (arg0 arg1 freqMhz meterId : Word) : HostEffect s
      { s with regs := { s.regs with arg0 := arg0, arg1 := arg1, freqMhz := freqMhz, meterId := meterId } }
  /-- a write into the RAM window -/
  | stores (free : s.status.busy = false) (off : Nat) (bytes : List Byte) : HostEffect s (memWrite off bytes s)

/-- A guarded write is rejected or takes effect. -/
theorem hostEffect_whenFree {s t : State} (h : s.status.busy = false → HostEffect s t) : HostEffect s (whenFree s t) := by
  cases hb : s.status.busy with
  | true => rw [whenFree_busy hb]; exact .rejects hb
  | false => rw [whenFree_free hb]; exact h hb

theorem regWrite_effect (off : Nat) (w : Word) (s : State) : HostEffect s (regWrite off w s) := by
  unfold regWrite
  split
  case h_1 => exact hostEffect_whenFree fun hb => .issues hb w
  case h_2 => exact .clears w
  case h_3 => exact .enables _
  case h_4 => exact hostEffect_whenFree fun hb => .operands hb w _ _ _
  case h_5 => exact hostEffect_whenFree fun hb => .operands hb _ w _ _
  case h_6 => exact hostEffect_whenFree fun hb => .operands hb _ _ w _
  case h_7 => exact hostEffect_whenFree fun hb => .operands hb _ _ _ w
  case h_8 => exact .draws s.oracle

/-- Every host access has one of the effects, and records a response. -/
theorem hostAccess_effect (a : HostAccess) (s : State) : ∃ r t, HostEffect s t ∧ hostAccess a s = respond r t := by
  cases a with
  | read addr width =>
    obtain ⟨r, o, h⟩ := hostAccess_read addr width s
    exact ⟨r, _, .draws o, h⟩
  | write addr width w =>
    simp only [hostAccess, hostWrite]
    cases hostTarget addr width with
    | reg off => exact ⟨_, _, regWrite_effect off w s, rfl⟩
    | ram off => exact ⟨_, _, hostEffect_whenFree fun hb => .stores hb off _, rfl⟩
    | nowhere => exact ⟨_, _, .draws s.oracle, rfl⟩

/-! ### The last exchange of a history -/

theorem lastXfer_append (a b : List Event) : lastXfer (a ++ b) = (lastXfer b).or (lastXfer a) := by
  induction a with
  | nil => simp [lastXfer]
  | cons e rest ih =>
    cases e with
    | xfer out answer now => cases hb : lastXfer b <;> cases hr : lastXfer rest <;> simp [lastXfer, ih, hb, hr]
    | _ => simpa [lastXfer] using ih

/-! ### ChipStatus (R47, R48) -/

/-- The mirror depends on the last exchange and on ChipStatus alone. -/
theorem ChipStatusMirrors.congr {s t : State} (h : ChipStatusMirrors s) (last : lastXfer t.history = lastXfer s.history)
    (state : t.status.csState = s.status.csState) (fifo : t.status.csFifo = s.status.csFifo)
    (valid : t.status.csValid = s.status.csValid) : ChipStatusMirrors t := by
  unfold ChipStatusMirrors
  rw [last, state, fifo, valid]
  exact h

/-- An exchange sets both sides of the mirror from its first answer byte. -/
theorem chipStatusMirrors_doXfer (hd : Byte) (tl : List Byte) (s : State) : ChipStatusMirrors (doXfer hd tl s).2 := by
  unfold ChipStatusMirrors
  rw [doXfer_history, lastXfer_append]
  exact ⟨_, _, rfl, rfl, rfl, rfl⟩

/-- An event that is no exchange leaves the last exchange as it was. -/
theorem lastXfer_note (h : List Event) (e : Note) (now : Word) : lastXfer (h ++ [e.event now]) = lastXfer h := by
  rw [lastXfer_append]
  cases e <;> rfl

theorem chipStatusMirrors_runPrim (p : Prim) (s : State) (h : ChipStatusMirrors s) : ChipStatusMirrors (runPrim p s).2 := by
  cases p with
  | xfer hd tl => exact chipStatusMirrors_doXfer hd tl s
  | write d =>
    exact h.congr (congrArg lastXfer (writeDst_history d s)) (writeDst_csState d s) (writeDst_csFifo d s)
      (writeDst_csValid d s)
  | note e => exact h.congr (lastXfer_note _ e _) rfl rfl rfl
  | _ => exact h

theorem chipStatusMirrors_complete (c : ResultCode) (s : State) (h : ChipStatusMirrors s) :
    ChipStatusMirrors (complete c s) :=
  h.congr (by rw [complete_history, lastXfer_append]; rfl) rfl rfl rfl

theorem chipStatusMirrors_hostAccess (a : HostAccess) (s : State) (h : ChipStatusMirrors s) :
    ChipStatusMirrors (hostAccess a s) := by
  obtain ⟨r, t, ht, he⟩ := hostAccess_effect a s
  rw [he]
  cases ht with
  | issues _ w => exact h.congr (by rw [respond_history, accept_history, lastXfer_append]; rfl) rfl rfl rfl
  | _ => exact h

/-- Settles O22: an exchange sets both sides of the mirror, block reset clears both, and nothing else touches either
(`step_keeps`). -/
theorem chipStatusMirrorsLastExchange : Obligations.ChipStatusMirrorsLastExchange := by
  refine ⟨fun c => ⟨rfl, rfl, rfl⟩, ?_⟩
  exact step_keeps (fun _ _ h => h) chipStatusMirrors_runPrim (fun _ _ h => h) chipStatusMirrors_complete
    (fun _ _ h => h) chipStatusMirrors_hostAccess (fun _ _ => ⟨rfl, rfl, rfl⟩)

end Sys2Proof.Machine
end

section
/-! The free draws: what the environment lines up is what the next draw gives, so every answer can come
(spec/00_scope.md R8; spec/20_memory.md R81; spec/40_radio_interface.md R140). -/

namespace Sys2Proof.Machine

/-! ### Lined-up answers -/

/-- A script as long as the answer is the whole answer, and no free value is drawn. -/
theorem drawAnswer_script (script : List Byte) (o : Oracle) :
    drawAnswer script.length script o = (⟨script, rfl⟩, o) := by
  induction script with
  | nil => rfl
  | cons b rest ih => simp only [List.length_cons, drawAnswer, ih]

/-- The bytes lined up for the next exchange are its answer. -/
theorem drawExchange_chip (st : Byte) (data : List Byte) (later : List (List Byte)) (o : Oracle) :
    drawExchange data.length { o with chip := (st :: data) :: later } = ((st, ⟨data, rfl⟩), { o with chip := later }) := by
  have h : drawAnswer (data.length + 1) (st :: data) { o with chip := later } =
      (⟨st :: data, rfl⟩, { o with chip := later }) := drawAnswer_script (st :: data) _
  simp only [drawExchange, List.headD_cons, List.tail_cons, h, List.head_cons]

/-- The exchange of the machine answers the bytes lined up for it. -/
theorem doXfer_chip (hd : Byte) {tl : List Byte} (s : State) (st : Byte) {data : List Byte} (h : data.length = tl.length)
    (later : List (List Byte)) (o : Oracle) :
    (doXfer hd tl { s with oracle := { o with chip := (st :: data) :: later } }).1 = (st, ⟨data, h⟩) := by
  change (drawExchange tl.length _).1 = _
  generalize tl.length = k at h
  subst h
  rw [drawExchange_chip]

/-- A read of a byte without a value gives what is lined up for it (R81). -/
theorem readByte_ram {m : Memory} {a : Nat} (h : m.byte a = none) (b : Byte) (later : List Byte) (o : Oracle) :
    readByte m a { o with ram := b :: later } = (b, { o with ram := later }) := by
  simp [readByte, h, drawRam]

/-! ### The statement -/

/-- Settles O30: an exchange is the draw, the event and ChipStatus by definition; each answer comes from the oracle that has
it lined up. -/
theorem exchangeRecordsAndSetsChipStatus : Obligations.ExchangeRecordsAndSetsChipStatus := by
  refine ⟨fun hd tl s => ?effect, fun hd tl s st data h => ?answer, fun s level => ?gdo, fun s ans => ?load,
    fun m a b h => ?ram⟩
  case effect =>
    exact ⟨(doXfer hd tl s).1.1, (doXfer hd tl s).1.2.1, (doXfer hd tl s).2.oracle, (doXfer hd tl s).1.2.2, rfl, rfl, rfl⟩
  case answer =>
    have answered := doXfer_chip hd s st h [] Oracle.quiet
    exact ⟨{ Oracle.quiet with chip := [st :: data] }, by rw [answered], by rw [answered]⟩
  case gdo => exact ⟨{ Oracle.quiet with gdo := [level] }, rfl⟩
  case load => exact ⟨{ Oracle.quiet with load := [ans] }, rfl⟩
  case ram => exact ⟨{ Oracle.quiet with ram := [b] }, by rw [readByte_ram h]⟩

end Sys2Proof.Machine
end

section
/-! The line codec: the padding of an encoding, the framing machine on whole frames, and the samples of repeated bits
(spec/41_line_codec.md R200 to R214). -/

namespace Sys2Proof.Machine

/-! ### Decoding an encoding (R208, R209, R213) -/

/-- Whole frames and idle bits, from HUNT: the bytes of the frames, stopped by the capacity or by the end of the input. -/
theorem decodeBits_lineBits (x : List Byte) (idle room : Nat) (hroom : 0 < room) (hx : x.length ≤ room) :
    decodeBits (lineBits x ++ List.replicate idle true) .hunt room = (x, if x.length = room then 2 else 0) := by
  induction x generalizing room with
  | nil => rw [List.length_nil, if_neg (Nat.ne_of_lt hroom)]; exact hunt_ones idle room
  | cons b rest ih =>
    rw [List.length_cons] at hx ⊢
    rw [lineBits_cons, List.append_assoc, frame_ok b _ room hroom]
    by_cases hlast : room ≤ 1
    · obtain rfl : rest = [] := List.length_eq_zero_iff.mp (by omega)
      rw [if_pos hlast, List.length_nil, if_pos (by omega)]
    · have hlen : rest.length = room - 1 ↔ rest.length + 1 = room := by omega
      rw [if_neg hlast, ih (room - 1) (by omega) (by omega)]
      simp only [hlen]

/-- Samples whose line bits are those of an encoding decode to the encoded bytes. -/
theorem decodeCore_of_lineBits {x samples : List Byte} {osr : Nat} (cap : Nat)
    (h : lineBitsOf osr (unpack samples) = padOnes (lineBits x)) (hx : x.length ≤ cap) :
    decodeCore samples osr cap = (x, if x.length = cap then 2 else 0) := by
  unfold decodeCore
  by_cases hcap : cap = 0
  · obtain rfl : x = [] := List.length_eq_zero_iff.mp (by omega)
    rw [if_pos hcap, List.length_nil, if_pos hcap.symm]
  · rw [if_neg hcap, h]
    exact decodeBits_lineBits x _ cap (by omega) hx

/-- The samples of bytes whose bits are each repeated. -/
theorem unpack_expandBits (r : Nat) (bytes : List Byte) :
    unpack (expandBits r bytes) = (unpack bytes).flatMap fun b => List.replicate r b := by
  refine unpack_pack (bytes.length * r) _ ?_
  simp [List.length_flatMap, length_unpack, Nat.mul_assoc]

theorem decodeCore_encodeCore {x : List Byte} {cap : Nat} (hx : x.length ≤ cap) :
    decodeCore (encodeCore x) 1 cap = (x, if x.length = cap then 2 else 0) :=
  decodeCore_of_lineBits cap (by rw [lineBitsOf_one, unpack_encodeCore]) hx

theorem decodeCore_expandBits {x : List Byte} {r cap : Nat} (hr : 0 < r) (hx : x.length ≤ cap) :
    decodeCore (expandBits r (encodeCore x)) r cap = (x, if x.length = cap then 2 else 0) :=
  decodeCore_of_lineBits cap (by rw [unpack_expandBits, lineBitsOf_expand r hr, unpack_encodeCore]) hx

/-- Settles O46: the line bits of either sample sequence are the frames and their padding, and the framing machine takes
them one frame at a time. -/
theorem decoderInvertsEncoder : Obligations.DecoderInvertsEncoder := by
  refine fun x cap => ⟨fun h => ?_, fun h => ?_, fun r hr => ⟨fun h => ?_, fun h => ?_⟩⟩
  · rw [decodeCore_encodeCore h.le, if_neg h.ne]
  · rw [decodeCore_encodeCore h.ge, if_pos h.symm]
  · rw [decodeCore_expandBits (by omega) h.le, if_neg h.ne]
  · rw [decodeCore_expandBits (by omega) h.ge, if_pos h.symm]

/-! ### Padding and framing (R201, R202, R204) -/

/-- Only the end of a sequence is padded. -/
theorem padOnes_append {a : List Bool} (h : a.length % 8 = 0) (b : List Bool) : padOnes (a ++ b) = a ++ padOnes b := by
  have hlen : (a ++ b).length % 8 = b.length % 8 := by rw [List.length_append]; omega
  rw [padOnes, hlen, List.append_assoc, padOnes]

/-- A sequence of whole bytes takes no padding. -/
theorem padOnes_of_whole {a : List Bool} (h : a.length % 8 = 0) : padOnes a = a := by simp [padOnes, h]

/-- Up to the padding, a padded sequence is the sequence itself. -/
theorem padOnes_getElem?_lt {bits : List Bool} {k : Nat} (h : k < bits.length) : (padOnes bits)[k]? = bits[k]? :=
  List.getElem?_append_left h

/-- The padding is 1 bits. -/
theorem padOnes_getElem?_ge {bits : List Bool} {k : Nat} (h : bits.length ≤ k) (hk : k < (padOnes bits).length) :
    (padOnes bits)[k]? = some true := by
  rw [padOnes, List.length_append, List.length_replicate] at hk
  rw [padOnes, List.getElem?_append_right h, List.getElem?_replicate_of_lt (by omega)]

/-- The encoding of whole groups of four bytes ends on a byte boundary, so what follows is encoded on its own. -/
theorem encodeCore_append {x : List Byte} (h : x.length % 4 = 0) (y : List Byte) :
    encodeCore (x ++ y) = encodeCore x ++ encodeCore y := by
  have hlen : (lineBits x).length = 8 * (10 * x.length / 8) := by rw [length_lineBits]; omega
  have hwhole : (lineBits x).length % 8 = 0 := by omega
  rw [encodeCore, lineBits_append, padOnes_append hwhole, pack_append _ _ _ hlen, encodeCore, padOnes_of_whole hwhole,
    encodeCore]

/-- Settles O44: the length counts ten bits a byte, whole groups need no padding, and the bits of an encoding are the
frames of its bytes and the padding. -/
theorem encoderLengthAndFraming : Obligations.EncoderLengthAndFraming := by
  refine ⟨fun b => ⟨length_encodeCore b, length_encodeCore_eq b⟩, rfl, fun x y h => encodeCore_append h y, fun x => ?_⟩
  rw [unpack_encodeCore]
  have hlen := length_lineBits x
  refine ⟨fun i hi => ?_, fun k hk hlt => padOnes_getElem?_ge (by omega) hlt⟩
  rw [padOnes_getElem?_lt (by omega), padOnes_getElem?_lt (by omega)]
  exact lineBits_get x i hi

/-! ### One sample byte (R206, R207, R214) -/

/-- The line bits of two sample sequences whose ends are not joined. -/
theorem lineBitsOf_append (osr : Nat) {a b : List Bool} (h : ∀ x, a.getLast? = some x → b.head? ≠ some x) :
    lineBitsOf osr (a ++ b) = lineBitsOf osr a ++ lineBitsOf osr b := by
  rw [lineBitsOf, runs_append a b h, List.flatMap_append, lineBitsOf, lineBitsOf]

/-- A byte F0 not joined to the samples around it adds its own line bits to theirs. -/
theorem lineBitsOf_between_f0 (osr : Nat) {pre post : List Bool} (hpre : pre.getLast? ≠ some true)
    (hpost : post.head? ≠ some false) :
    lineBitsOf osr (pre ++ unpack [0xF0#8] ++ post) =
      lineBitsOf osr pre ++ lineBitsOf osr (unpack [0xF0#8]) ++ lineBitsOf osr post := by
  have hfirst : (unpack [0xF0#8]).head? = some true := by decide
  have hlast : (pre ++ unpack [0xF0#8]).getLast? = some false := by
    rw [List.getLast?_append, show (unpack [0xF0#8]).getLast? = some false by decide, Option.some_or]
  rw [lineBitsOf_append osr fun x hx => ?right, lineBitsOf_append osr fun x hx => ?left]
  case right =>
    rw [hlast, Option.some.injEq] at hx
    exact hx ▸ hpost
  case left =>
    rw [hfirst]
    rintro ⟨rfl⟩
    exact hpre hx

/-- Settles O47: the byte is a run of four 1s and a run of four 0s, which stay whole between such samples; its line bits
at OSR 4 leave the framing machine inside a frame at the end of the input. -/
theorem sampleByteF0GivesOneZero : Obligations.SampleByteF0GivesOneZero := by
  refine ⟨fun pre post hpre hpost => ?_, fun cap hcap => ?_⟩
  · simp only [lineBitsOf_between_f0 _ hpre hpost]
    exact ⟨rfl, rfl, rfl⟩
  · rw [decodeCore, if_neg (by omega)]
    rfl

end Sys2Proof.Machine
end

section
/-! The command CRC: its values on no bytes and on zero bytes, its linearity, and its residue (spec/42_crc.md R230, R231,
R233). -/

namespace Sys2Proof.Machine

/-- The CRC of a sequence goes on from the register its front leaves. -/
theorem crcCore_append (x y : List Byte) : crcCore (x ++ y) = y.foldl crcByte (crcCore x) := List.foldl_append

/-- A zero byte leaves a zero register. -/
theorem crcByte_zero : crcByte 0#16 0x00#8 = 0#16 := by decide

theorem crcCore_replicate_zero (k : Nat) : crcCore (List.replicate k 0x00#8) = 0#16 := by
  induction k with
  | zero => rfl
  | succ k ih => rw [List.replicate_succ', crcCore_append, ih, List.foldl_cons, crcByte_zero, List.foldl_nil]

/-- The initial register is 0, so the linear register makes a linear CRC. -/
theorem crcCore_xor {x y : List Byte} (h : x.length = y.length) :
    crcCore (List.zipWith (· ^^^ ·) x y) = crcCore x ^^^ crcCore y :=
  crc_fold_xor x y h 0#16 0#16

theorem crcCore_append_crcBytes (p : List Byte) : crcCore (p ++ crcBytes (crcCore p)) = 0#16 := by
  rw [crcCore_append, crcBytes, List.foldl_cons, List.foldl_cons, List.foldl_nil, crc_res]

/-- Settles O49: zero bytes keep the initial register 0, each byte step is linear, and a register shifted out by its own
bytes, low byte first, is 0. -/
theorem crcIsLinearWithZeroResidue : Obligations.CrcIsLinearWithZeroResidue :=
  ⟨rfl, crcCore_replicate_zero, fun _ _ h => crcCore_xor h, crcCore_append_crcBytes⟩

end Sys2Proof.Machine
end

section
/-! The lengths of the request: payload, CRC, coded body and frame (spec/43_protocol_engine.md R242). -/

namespace Sys2Proof.Machine

@[simp] theorem length_crcBytes (r : BitVec 16) : (crcBytes r).length = 2 := rfl

/-- The bytes that are coded: the payload and its CRC. -/
theorem length_reqPayload_append_crcBytes (c : Cfg) (m : Word) (r : BitVec 16) :
    (reqPayload c m ++ crcBytes r).length = 19 := by
  rw [List.length_append, length_reqPayload, length_crcBytes]

/-- 19 bytes are 190 line bits, two short of a whole byte. -/
theorem padOnes_lineBits_of_length {bytes : List Byte} (h : bytes.length = 19) :
    padOnes (lineBits bytes) = lineBits bytes ++ [true, true] := by
  rw [padOnes, length_lineBits, h]
  rfl

/-- Settles O52: each length is the sum of its parts', and the coding takes 19 bytes to 190 line bits and 24 bytes. -/
theorem frameHasThirtyThreeBytes : Obligations.FrameHasThirtyThreeBytes := by
  intro c m
  have hbody := length_reqPayload_append_crcBytes c m (reqCrc c m)
  refine ⟨length_reqPayload c m, hbody, ?prefixed, ?coded, padOnes_lineBits_of_length hbody, length_reqFrame c m⟩
  case prefixed => rw [List.length_append, c.syncPrefix.2, hbody]
  case coded => rw [length_encodeCore, hbody]

end Sys2Proof.Machine
end

section
/-! Bus errors: which accesses have no target, and that such an access records its response alone (spec/60_exceptions.md
R302; spec/20_memory.md R84, R85). -/

namespace Sys2Proof.Machine

/-- The accesses R302 answers with a bus error: unmapped, in the register window but no aligned word, or in the RAM window
and not aligned for its width. -/
def BusErrorAccess (addr : BitVec 13) (width : Width) : Prop :=
  0x1800 ≤ addr.toNat ∨ (addr.toNat < 0x1000 ∧ (width ≠ .w32 ∨ addr.toNat % 4 ≠ 0)) ∨
    (0x1000 ≤ addr.toNat ∧ addr.toNat < 0x1800 ∧ addr.toNat % width.bytes ≠ 0)

/-- The address map sends exactly those accesses nowhere. -/
theorem hostTarget_eq_nowhere_iff (addr : BitVec 13) (width : Width) :
    hostTarget addr width = .nowhere ↔ BusErrorAccess addr width := by
  unfold hostTarget BusErrorAccess
  split_ifs with hreg hword hram hal
  · obtain ⟨rfl, hal⟩ := hword
    refine iff_of_false nofun ?_
    rintro (h | ⟨-, h | h⟩ | ⟨h, -⟩)
    · omega
    · exact h rfl
    · exact h hal
    · omega
  · exact iff_of_true rfl (.inr (.inl ⟨hreg, not_and_or.mp hword⟩))
  · exact iff_of_false nofun (by omega)
  · exact iff_of_true rfl (.inr (.inr ⟨Nat.not_lt.mp hreg, hram, hal⟩))
  · exact iff_of_true rfl (.inl (Nat.not_lt.mp hram))

/-- An access that goes nowhere, read or write, answers a bus error and does nothing else. -/
theorem hostAccess_nowhere {a : HostAccess} {addr : BitVec 13} {width : Width}
    (ha : a = .read addr width ∨ ∃ w, a = .write addr width w) (h : hostTarget addr width = .nowhere) (s : State) :
    hostAccess a s = respond .busError s := by
  obtain rfl | ⟨w, rfl⟩ := ha
  · simp only [hostAccess, hostRead, h]
  · simp only [hostAccess, hostWrite, h]

/-- Settles O12: an access of R302 has no target (`hostTarget_eq_nowhere_iff`), so its step records the bus error alone;
a word access to a reserved offset is performed, with the answer `reservedSpaceReadsZero` gives. -/
theorem busErrorChangesNothing : Obligations.BusErrorChangesNothing := by
  intro s rest a addr width hc hs ha
  refine ⟨fun hbus => ⟨_, ?_, rfl, rfl⟩, ?reserved⟩
  · rw [step_host hc hs, hostAccess_nowhere ha ((hostTarget_eq_nowhere_iff addr width).mpr hbus)]
    rfl
  case reserved =>
    rintro ⟨hlo, hhi, rfl, hal⟩
    obtain ⟨hread, hwrite⟩ := reservedSpaceReadsZero.1 s rest addr hc hlo hhi hal
    obtain rfl | ⟨w, rfl⟩ := ha
    · exact ⟨_, hread hs, nofun⟩
    · exact ⟨_, hwrite w hs, nofun⟩

end Sys2Proof.Machine
end

section
/-! Block reset, at any step (spec/70_reset_and_hazards.md R330, R332): the step it takes, and what its STATUS, IRQ and RAM
read as. -/

namespace Sys2Proof.Machine

/-- A step whose next move is a block reset makes it, whether or not a command runs. -/
theorem step_reset {s : State} {rest : List Move} (hc : cfgWf s.cfg = true) (ha : s.agenda = .reset :: rest) :
    step s = .next (blockReset { s with agenda := rest }) := by
  simp [step, hc, ha, moveStep]

@[simp] theorem statusWord_reset : statusWord .reset = 0#32 := by decide

@[simp] theorem irq_blockReset (s : State) : irq (blockReset s) = false := rfl

/-- A RAM that holds nothing has no byte with a value (R81). -/
@[simp] theorem byte_nil (a : Nat) : Memory.byte [] a = none := rfl

/-- Settles O18: the step is `blockReset`, whose STATUS word, IRQ and RAM read as zero and empty; its registers and hidden
state are `Regs.reset` and `Ctx.idle`, each field 0. -/
theorem blockResetClearsEverything : Obligations.BlockResetClearsEverything := by
  intro s rest hc ha
  refine ⟨_, step_reset hc ha, ?cleared⟩
  case cleared => simp [Regs.reset, Ctx.idle]

end Sys2Proof.Machine
end

section
/-! The command words (spec/30_encoding.md R110 to R120): operand bytes made of their fields and taken apart again, decode
and encode as inverses, and the rows of spec/opcode_table.json as conditions on the fields. -/

namespace Sys2Proof.Machine

/-! ### Operand bytes from their fields (R112) -/

theorem addrByte_fields (addr : ChipAddr) :
    (0#2 ++ addr : Byte).extractLsb' 6 2 = 0#2 ∧ (0#2 ++ addr : Byte).extractLsb' 0 6 = addr :=
  ⟨BitVec.extractLsb'_append_eq_left (a := 0#2), BitVec.extractLsb'_append_eq_right (a := 0#2)⟩

theorem burstAddrByte_fields (bst : Bool) (addr : ChipAddr) :
    (0#1 ++ BitVec.ofBool bst ++ addr : Byte).extractLsb' 7 1 = 0#1 ∧
      (0#1 ++ BitVec.ofBool bst ++ addr : Byte).extractLsb' 0 6 = addr ∧
      (0#1 ++ BitVec.ofBool bst ++ addr : Byte)[6] = bst := by
  refine ⟨?reserved, BitVec.extractLsb'_append_eq_right (a := 0#1 ++ BitVec.ofBool bst), ?bst⟩
  case reserved =>
    exact (BitVec.extractLsb'_append_eq_of_le (xhi := 0#1 ++ BitVec.ofBool bst) (xlo := addr) (by decide)).trans
      (BitVec.extractLsb'_append_eq_left (a := 0#1))
  case bst => exact (BitVec.getLsbD_append (x := 0#1 ++ BitVec.ofBool bst) (y := addr)).trans (by cases bst <;> rfl)

theorem stateByte_fields (target : BitVec 3) :
    (0#5 ++ target : Byte).extractLsb' 3 5 = 0#5 ∧ (0#5 ++ target : Byte).extractLsb' 0 3 = target :=
  ⟨BitVec.extractLsb'_append_eq_left (a := 0#5), BitVec.extractLsb'_append_eq_right (a := 0#5)⟩

/-- Settles O1: the word of an instruction is a command word of its opcode (`decode_commandWord`), whose operand bytes read
back field by field. -/
theorem decodeInvertsEncode : Obligations.DecodeInvertsEncode := by
  intro i
  cases i with
  | wreg addr bst value =>
    obtain ⟨reserved, haddr, hbst⟩ := burstAddrByte_fields bst addr
    exact (decode_commandWord _ _ _).trans (by simp [decodeFields, whenZero, reserved, haddr, hbst])
  | rreg addr bst =>
    obtain ⟨reserved, haddr, hbst⟩ := burstAddrByte_fields bst addr
    exact (decode_commandWord _ _ _).trans (by simp [decodeFields, whenZero, reserved, haddr, hbst])
  | wburst addr n | rburst addr n | strobe addr =>
    obtain ⟨reserved, haddr⟩ := addrByte_fields addr
    exact (decode_commandWord _ _ _).trans (by simp [decodeFields, whenZero, reserved, haddr])
  | waitst target =>
    obtain ⟨reserved, htarget⟩ := stateByte_fields target
    exact (decode_commandWord _ _ _).trans (by simp [decodeFields, whenZero, reserved, htarget])
  | waitedge level => cases level <;> rfl
  | preset id => cases id <;> rfl
  | decode osr => cases osr <;> rfl
  | rssi raw => exact decode_commandWord _ _ _
  | _ => rfl

/-- Settles O4: each word decodes by evaluation (a check on fixed words). -/
theorem workedWordsDecode : Obligations.WorkedWordsDecode := ⟨rfl, rfl, rfl, rfl, rfl, rfl⟩

/-! ### Operand bytes put together again (R115) -/

theorem addrByte_of_fields : ∀ a : Byte, a.extractLsb' 6 2 = 0#2 → 0#2 ++ a.extractLsb' 0 6 = a := by decide +kernel

theorem burstAddrByte_of_fields : ∀ a : Byte, a.extractLsb' 7 1 = 0#1 →
    0#1 ++ BitVec.ofBool (a.getLsbD 6) ++ a.extractLsb' 0 6 = a := by decide +kernel

theorem stateByte_of_fields : ∀ a : Byte, a.extractLsb' 3 5 = 0#5 → 0#5 ++ a.extractLsb' 0 3 = a := by decide +kernel

theorem levelByte_of_fields : ∀ a : Byte, a.extractLsb' 1 7 = 0#7 → 0#7 ++ BitVec.ofBool (a.getLsbD 0) = a := by
  decide +kernel

theorem presetByte_of_fields : ∀ a : Byte, a.extractLsb' 2 6 = 0#6 →
    0#6 ++ (presetOfCode (a.extractLsb' 0 2)).code = a := by decide +kernel

theorem osrByte_of_fields : ∀ a : Byte, a.extractLsb' 2 6 = 0#6 → ∀ osr ∈ osrOfCode (a.extractLsb' 0 2),
    0#6 ++ osr.code = a := by decide +kernel

/-- Fields that decode are the fields of the command's word: by opcode, the reserved bits being 0. -/
theorem encode_of_decodeFields {op a b : Byte} {i : Instr} (h : decodeFields op a b = some i) :
    encode i = commandWord op a b := by
  unfold decodeFields at h
  split at h
  case h_14 =>
    split at h
    case h_1 osr hosr =>
      obtain ⟨hz, rfl⟩ := whenZero_some h
      simp only [Bool.and_eq_true, beq_iff_eq] at hz
      rw [encode, osrByte_of_fields a hz.1 osr hosr, hz.2]
    case h_2 => cases h
  case h_22 => cases h
  all_goals
    obtain ⟨hz, rfl⟩ := whenZero_some h
    simp only [Bool.and_eq_true, beq_iff_eq] at hz
  case h_1 => rw [encode, burstAddrByte_of_fields a hz]
  case h_2 => rw [encode, burstAddrByte_of_fields a hz.1, hz.2]
  case h_3 | h_4 => rw [encode, addrByte_of_fields a hz]
  case h_5 => rw [encode, addrByte_of_fields a hz.1, hz.2]
  case h_6 => rw [encode, stateByte_of_fields a hz.1, hz.2]
  case h_7 => rw [encode, levelByte_of_fields a hz.1, hz.2]
  case h_10 => rw [encode, hz]
  case h_12 => rw [encode, presetByte_of_fields a hz.1, hz.2]
  all_goals rw [encode, hz.1, hz.2]

/-- Settles O2: a word that decodes has a zero C field, and the fields that decode are those of the command's word. -/
theorem encodeInvertsDecode : Obligations.EncodeInvertsDecode := by
  intro w i h
  unfold decode at h
  split at h
  case isTrue hc => rw [encode_of_decodeFields h, commandWord_fields w (by simpa using hc)]
  case isFalse => cases h

/-! ### The opcode table -/

/-- Two words with the same fields are the same: their difference is the command word of zero fields. -/
theorem word_eq_of_fields {x y : Word} (hc : cmdC x = cmdC y) (hop : cmdOp x = cmdOp y) (ha : cmdA x = cmdA y)
    (hb : cmdB x = cmdB y) : x = y := by
  have zero {off : Nat} (h : x.extractLsb' off 8 = y.extractLsb' off 8) : (x ^^^ y).extractLsb' off 8 = 0#8 := by
    rw [BitVec.extractLsb'_xor, h, BitVec.xor_self]
  have diff := commandWord_fields (x ^^^ y) (zero hc)
  rw [cmdOp, cmdA, cmdB, zero hop, zero ha, zero hb] at diff
  exact BitVec.xor_eq_zero_iff.mp diff.symm

/-- A word meets a mask and match where each of its fields does. -/
theorem masked_eq_iff_fields (w mask m : Word) : w &&& mask = m ↔
    cmdC w &&& cmdC mask = cmdC m ∧ cmdOp w &&& cmdOp mask = cmdOp m ∧
      cmdA w &&& cmdA mask = cmdA m ∧ cmdB w &&& cmdB mask = cmdB m := by
  have field {off : Nat} : (w &&& mask).extractLsb' off 8 = w.extractLsb' off 8 &&& mask.extractLsb' off 8 :=
    BitVec.extractLsb'_and
  constructor
  · rintro rfl
    exact ⟨field.symm, field.symm, field.symm, field.symm⟩
  · rintro ⟨hc, hop, ha, hb⟩
    exact word_eq_of_fields (field.trans hc) (field.trans hop) (field.trans ha) (field.trans hb)

theorem isSome_whenZero (r : Bool) (i : Instr) : (whenZero r i).isSome = r := by cases r <;> rfl

/-- The reserved high bits of an operand byte, as the table masks them. -/
theorem highBits_zero_iff : ∀ a : Byte,
    (a.extractLsb' 7 1 = 0#1 ↔ a &&& 0x80#8 = 0#8) ∧ (a.extractLsb' 6 2 = 0#2 ↔ a &&& 0xC0#8 = 0#8) ∧
    (a.extractLsb' 3 5 = 0#5 ↔ a &&& 0xF8#8 = 0#8) ∧ (a.extractLsb' 2 6 = 0#6 ↔ a &&& 0xFC#8 = 0#8) ∧
    (a.extractLsb' 1 7 = 0#7 ↔ a &&& 0xFE#8 = 0#8) := by decide +kernel

/-- DECODE's operand byte names a ratio where its row matches, but for the byte 3. -/
theorem osrByte_iff : ∀ a : Byte,
    (osrOfCode (a.extractLsb' 0 2)).isSome = true ∧ a.extractLsb' 2 6 = 0#6 ↔ a &&& 0xFC#8 = 0#8 ∧ a ≠ 3#8 := by
  decide +kernel

/-- Settles O3: the masks are conditions on the fields (`masked_eq_iff_fields`), and under each opcode they are the reserved
bits that the decoder checks. -/
theorem decoderAgreesWithOpcodeTable : Obligations.DecoderAgreesWithOpcodeTable := by
  intro w
  have full (x : Byte) : x &&& 0xFF#8 = x := BitVec.and_allOnes
  have osr3 : w = 0x311#32 ↔ cmdC w = 0#8 ∧ cmdOp w = 0x11#8 ∧ cmdA w = 3#8 ∧ cmdB w = 0#8 :=
    ⟨fun h => by rw [h]; decide, fun ⟨hc, hop, ha, hb⟩ => word_eq_of_fields hc hop ha hb⟩
  rw [Bool.eq_iff_iff]
  simp only [inOpcodeTable, opcodeTable, List.any_cons, List.any_nil, osrReserved, Bool.and_eq_true, Bool.or_eq_true,
    Bool.not_eq_true', beq_eq_false_iff_ne, ne_eq, beq_iff_eq, masked_eq_iff_fields, osr3]
  unfold decode
  generalize cmdC w = c, cmdOp w = op, cmdA w = a, cmdB w = b
  simp only [cmdC, cmdOp, cmdA, cmdB, BitVec.reduceExtractLsb', full, BitVec.and_zero]
  by_cases hc : c = 0#8
  case neg => simp [hc]
  case pos =>
    subst hc
    obtain ⟨h7, h6, h3, h2, h1⟩ := highBits_zero_iff a
    simp only [beq_self_eq_true, if_true]
    unfold decodeFields
    split
    case h_14 =>
      have hosr := osrByte_iff a
      cases h : osrOfCode (a.extractLsb' 0 2) <;> simp_all [isSome_whenZero]
    case h_22 => simp_all
    all_goals simp [isSome_whenZero, h7, h6, h3, h2, h1]

end Sys2Proof.Machine
end

section
/-! A step and its moves (spec/00_scope.md R8, R9), the register and RAM accesses of a host (spec/10_state.md R31 to R55;
spec/20_memory.md R82 to R87), IRQ (spec/60_exceptions.md R306), and the idle block (spec/70_reset_and_hazards.md R331). -/

namespace Sys2Proof.Machine

/-! ### One step -/

/-- A step makes the next move of the agenda. -/
theorem step_move {s : State} {m : Move} {rest : List Move} (hc : cfgWf s.cfg = true) (ha : s.agenda = m :: rest) :
    step s = moveStep m { s with agenda := rest } := by simp [step, hc, ha]

/-- With nothing lined up a running command runs on. -/
theorem step_quiet {s : State} (hc : cfgWf s.cfg = true) (hb : s.status.busy = true) (ha : s.agenda = []) :
    step s = runMove s := by simp [step, hc, ha, hb]

theorem runMove_running {s : State} {i : Instr} (hb : s.status.busy = true) (hi : decode s.ctx.opw = some i) :
    runMove s = exec i s := by simp [runMove, hb, hi]

theorem runMove_reserved {s : State} (hb : s.status.busy = true) (hi : decode s.ctx.opw = none) :
    runMove s = .next (complete .illegal s) := by simp [runMove, hb, hi, illegalCommand]

theorem runMove_idle {s : State} (hb : s.status.busy = false) : runMove s = .next s := by simp [runMove, hb]

theorem seqMove_running {s : State} {i : Instr} (hb : s.status.busy = true) (hi : decode s.ctx.opw = some i) :
    seqMove s = seqStep (program s.cfg s.ctx.a0 s.ctx.a1 i) s := by simp [seqMove, hb, hi]

theorem seqMove_reserved {s : State} (hb : s.status.busy = true) (hi : decode s.ctx.opw = none) :
    seqMove s = .next (complete .illegal s) := by simp [seqMove, hb, hi, illegalCommand]

theorem seqMove_idle {s : State} (hb : s.status.busy = false) : seqMove s = .next s := by simp [seqMove, hb]

/-- Settles O5: both moves are `runMove`, which executes the latched command. -/
theorem stepRunsTheLatchedCommand : Obligations.StepRunsTheLatchedCommand := by
  intro s i hc hb hi
  refine ⟨fun ha => ?_, fun rest ha => ?_⟩
  · rw [step_quiet hc hb ha, runMove_running hb hi]
  · rw [step_move hc ha]
    exact runMove_running (s := { s with agenda := rest }) hb hi

/-- Settles O6: a word outside the table does not decode (`decoderAgreesWithOpcodeTable`), and all three moves then complete
with ILLEGAL. -/
theorem reservedWordCompletesIllegal : Obligations.ReservedWordCompletesIllegal := by
  intro s hc hb ht ha
  have hi : decode s.ctx.opw = none := by
    rw [← Option.not_isSome_iff_eq_none, decoderAgreesWithOpcodeTable, ht]
    exact Bool.false_ne_true
  obtain ha | ha | ha := ha
  · rw [step_quiet hc hb ha, runMove_reserved hb hi, ← ha]
    rfl
  · rw [step_move hc ha]
    exact runMove_reserved (s := { s with agenda := [] }) hb hi
  · rw [step_move hc ha]
    exact seqMove_reserved (s := { s with agenda := [] }) hb hi

/-- Settles O8: the four branches of `tickStep`. -/
theorem tickNeedsIdleOrDelay : Obligations.TickNeedsIdleOrDelay := by
  intro s rest hc ha
  rw [step_move hc ha]
  refine ⟨fun hb => ?idle, fun hb hd => ?running, fun n hb hd => ?waiting, fun hb hd => ?last⟩
  case idle =>
    simp only [moveStep, tickStep, hb, Bool.false_eq_true, if_false]
    rfl
  case running => simp [moveStep, tickStep, hb, hd]
  case waiting =>
    simp only [moveStep, tickStep, hb, if_true, hd, if_neg (show ¬ n + 2 ≤ 1 by omega)]
    rfl
  case last =>
    simp only [moveStep, tickStep, hb, if_true, hd, Nat.le_refl]
    rfl

/-! ### The configuration check (R13) -/

theorem runCommand_ne_refused (p : Prog ResultCode) (s : State) (r : Refusal) : runCommand p s ≠ .refused r := by
  unfold runCommand
  split
  · nofun
  · split
    · nofun
    · split <;> nofun

theorem seqStep_ne_refused (p : Prog ResultCode) (s : State) (r : Refusal) : seqStep p s ≠ .refused r := by
  unfold seqStep
  split
  · nofun
  · split
    · nofun
    · nofun
    · split <;> nofun
    · nofun

theorem runMove_ne_refused (s : State) (r : Refusal) : runMove s ≠ .refused r := by
  cases hb : s.status.busy with
  | false => rw [runMove_idle hb]; nofun
  | true =>
    cases hi : decode s.ctx.opw with
    | none => rw [runMove_reserved hb hi]; nofun
    | some i => rw [runMove_running hb hi, exec_eq]; exact runCommand_ne_refused _ _ _

theorem seqMove_ne_refused (s : State) (r : Refusal) : seqMove s ≠ .refused r := by
  cases hb : s.status.busy with
  | false => rw [seqMove_idle hb]; nofun
  | true =>
    cases hi : decode s.ctx.opw with
    | none => rw [seqMove_reserved hb hi]; nofun
    | some i => rw [seqMove_running hb hi]; exact seqStep_ne_refused _ _ _

/-- Only the configuration check refuses. -/
theorem step_refused_iff (s : State) : step s = .refused .badConfig ↔ ¬ cfgWf s.cfg = true := by
  refine ⟨fun h hc => ?_, fun hc => if_neg hc⟩
  unfold step at h
  rw [if_pos hc] at h
  split at h
  case h_1 m rest _ =>
    cases m with
    | host | tick | reset => cases h
    | seq => exact seqMove_ne_refused _ _ h
    | run => exact runMove_ne_refused _ _ h
  case h_2 =>
    split at h
    · exact runMove_ne_refused _ _ h
    · cases h

theorem tableDistinct_iff (t : List (ChipAddr × Byte)) : tableDistinct t = true ↔ (t.map Prod.fst).Nodup := by
  induction t with
  | nil => simp [tableDistinct]
  | cons e rest ih =>
    have hhead : rest.any (fun f => f.1 == e.1) = true ↔ e.1 ∈ rest.map Prod.fst := by simp [List.any_eq_true]
    rw [tableDistinct, Bool.and_eq_true, Bool.not_eq_true', ← Bool.not_eq_true, hhead, ih, List.map_cons, List.nodup_cons]

theorem cfgTablesOk_iff (c : Cfg) : cfgTablesOk c = true ↔
    (∀ t, t = c.presetDefault ∨ t = c.presetSync ∨ t = c.presetData ∨ t = c.txConfig → (t.map Prod.fst).Nodup) ∧
    ((c.regSync1, 0x55#8) ∈ c.presetSync ∧ (c.regSync0, 0x50#8) ∈ c.presetSync ∧ (c.regPktlen, 0x01#8) ∈ c.presetSync) ∧
    ((c.regSync1, 0xFF#8) ∈ c.presetData ∧ (c.regSync0, 0xF0#8) ∈ c.presetData) := by
  simp only [cfgTablesOk, Bool.and_eq_true, tableDistinct_iff, List.contains_iff_mem, forall_eq_or_imp, forall_eq, and_assoc]

theorem cfgLengthsOk_iff (c : Cfg) : cfgLengthsOk c = true ↔
    1 ≤ c.ackRawLen ∧ c.ackRawLen ≤ c.rxrSize - 127 ∧ 1 ≤ c.respRawLen ∧ c.respRawLen ≤ c.rxrSize - 127 := by
  simp only [cfgLengthsOk, Bool.and_eq_true, decide_eq_true_eq, and_assoc]

theorem cfgFreqOk_iff (c : Cfg) : cfgFreqOk c = true ↔
    f32Finite c.freqMin = true ∧ f32Finite c.freqMax = true ∧ f32Finite c.freqStep = true ∧ 0 ≤ f32Val c.freqMin ∧
      f32Val c.freqMin ≤ f32Val c.freqMax ∧ f32Val c.freqMax < (mhz 6656 : Int) ∧ 0 < f32Val c.freqStep ∧
      (f32Ulp c.freqMax : Int) ≤ f32Val c.freqStep := by
  simp only [cfgFreqOk, Bool.and_eq_true, decide_eq_true_eq, and_assoc]

theorem cfgPositionsOk_iff (c : Cfg) : cfgPositionsOk c = true ↔
    c.yearPos ≤ 16 ∧ c.serialPos + 2 ≤ 16 ∧ c.yearPos ≠ c.serialPos ∧ c.yearPos ≠ c.serialPos + 1 ∧
      c.yearPos ≠ c.serialPos + 2 := by
  simp only [cfgPositionsOk, Bool.and_eq_true, Bool.or_eq_true, decide_eq_true_eq]
  omega

theorem cfgTimesOk_iff (c : Cfg) : cfgTimesOk c = true ↔
    (∀ t, t = c.statePollMs ∨ t = c.waitStateMs ∨ t = c.edgePollMs ∨ t = c.fifoPollMs ∨ t = c.settleMs ∨ t = c.prePaceMs ∨
      t = c.postPreMs ∨ t = c.frameHoldMs ∨ t = c.ackTmoMs ∨ t = c.respTmoMs → t ≤ 65535) ∧
    1 ≤ c.statePollMs ∧ 1 ≤ c.edgePollMs ∧ 1 ≤ c.fifoPollMs := by
  simp only [cfgTimesOk, Bool.and_eq_true, decide_eq_true_eq, List.all_eq_true, List.mem_cons, List.not_mem_nil, or_false,
    and_assoc]

theorem cfgLayoutOk_iff (c : Cfg) : cfgLayoutOk c = true ↔
    c.ramSize = 2048 ∧ c.txrBase = 0x000 ∧ c.txrSize = 128 ∧ c.decrBase = 0x080 ∧ c.decCap = 256 ∧ c.rxrBase = 0x180 ∧
      c.rxrSize = 1664 := by
  simp only [cfgLayoutOk, Bool.and_eq_true, decide_eq_true_eq, and_assoc]

theorem cfgStepsOk_iff (c : Cfg) : cfgStepsOk c = true ↔
    c.fstepHi = 2600000000 ∧ c.fstepMid = 10156250 ∧ c.fstepLo = 39675 := by
  simp only [cfgStepsOk, Bool.and_eq_true, decide_eq_true_eq, and_assoc]

/-- Settles O7: only the configuration check refuses, and each of its parts is the condition that R13 writes (or log 6, log
24). -/
theorem illFormedConfigurationIsRefused : Obligations.IllFormedConfigurationIsRefused := by
  intro s
  rw [step_refused_iff]
  refine not_congr ?_
  simp only [cfgWf, Bool.and_eq_true, cfgTablesOk_iff, cfgLengthsOk_iff, cfgFreqOk_iff, cfgPositionsOk_iff, cfgTimesOk_iff,
    cfgLayoutOk_iff, cfgStepsOk_iff, cfgBurstOk, decide_eq_true_eq, and_assoc]

/-- Settles O10: a write to CMD while idle is `accept`. -/
theorem acceptanceLatchesOperands : Obligations.AcceptanceLatchesOperands := by
  intro s w rest hc hb ha
  rw [step_host hc ha, hostAccess_write_reg (by decide) (by decide)]
  exact congrArg (Host.Outcome.next <| respond .written ·) (whenFree_free (s := { s with agenda := rest }) hb _)

/-! ### Register accesses -/

/-- Settles O15: each write is one case of `regWrite`. -/
theorem registerWritesStoreOrAreIgnored : Obligations.RegisterWritesStoreOrAreIgnored := by
  intro s rest addr w hc ha
  rw [step_host hc ha]
  have word (h : addr.toNat < 0x1000) (hal : addr.toNat % 4 = 0) :=
    hostAccess_write_reg h hal w { s with agenda := rest }
  refine ⟨fun hb => ⟨?arg0, ?arg1, ?freqMhz, ?meterId⟩, ?ctrl, ?status, ?ignored⟩
  case arg0 | arg1 | freqMhz | meterId =>
    rintro rfl
    rw [word (by decide) (by decide)]
    exact congrArg (Host.Outcome.next <| respond .written ·) (whenFree_free (s := { s with agenda := rest }) hb _)
  case ctrl | status =>
    rintro rfl
    rw [word (by decide) (by decide)]
    rfl
  case ignored =>
    rintro (rfl | rfl | rfl | rfl | rfl | rfl | rfl)
    all_goals
      rw [word (by decide) (by decide)]
      rfl

/-- The fields of STATUS stand at their places (R33). -/
theorem statusWord_fields (t : Status) :
    (statusWord t).getLsbD 0 = t.busy ∧ (statusWord t).getLsbD 1 = t.done ∧ (statusWord t).getLsbD 2 = t.rej ∧
    (statusWord t).extractLsb' 4 4 = t.result.code ∧ (statusWord t).extractLsb' 8 3 = t.csState ∧
    (statusWord t).getLsbD 11 = t.csValid ∧ (statusWord t).extractLsb' 12 4 = t.csFifo ∧
    (statusWord t).extractLsb' 16 3 = t.att.code ∧ (statusWord t).getLsbD 19 = t.disc := by
  let word : BitVec (12 + 1 + 3 + 4 + 1 + 3 + 4 + 1 + 1 + 1 + 1) := 0#12 ++ BitVec.ofBool t.disc ++ t.att.code ++
    t.csFifo ++ BitVec.ofBool t.csValid ++ t.csState ++ t.result.code ++ 0#1 ++ BitVec.ofBool t.rej ++
    BitVec.ofBool t.done ++ BitVec.ofBool t.busy
  have bit (i : Nat) : (statusWord t).getLsbD i = word.getLsbD i := rfl
  have field (off len : Nat) : (statusWord t).extractLsb' off len = word.extractLsb' off len := rfl
  simp only [bit, field, word]
  refine ⟨?_, ?_, ?_, ?_, ?_, ?_, ?_, ?_, ?_⟩
  case refine_4 | refine_5 | refine_7 | refine_8 =>
    repeat rw [BitVec.extractLsb'_append_eq_of_le (by decide)]
    exact BitVec.extractLsb'_append_eq_right
  all_goals simp only [BitVec.getLsbD_append, Nat.reduceLT, Nat.reduceSub, reduceIte, BitVec.getLsbD_ofBool,
    decide_true, Bool.true_and]

theorem zeroExtend_bit (b : BitVec 1) : b.zeroExtend 32 = 0#31 ++ b := BitVec.setWidth_eq_append (by decide)

theorem zeroExtend_freqWord (x : BitVec 24) : x.zeroExtend 32 = 0#8 ++ x := BitVec.setWidth_eq_append (by decide)

/-- Settles O16: each read is one case of `regRead`; the numbers of the codes are their definitions. -/
theorem registerReadsAnswerTheirValues : Obligations.RegisterReadsAnswerTheirValues := by
  refine ⟨fun s rest addr v hc ha h => ?reads, statusWord_fields, ⟨rfl, rfl, rfl, rfl, rfl, rfl, rfl, rfl⟩,
    ⟨rfl, rfl, rfl, rfl, rfl, rfl, rfl⟩⟩
  case reads =>
    rw [step_host hc ha]
    rcases h with ⟨rfl, rfl⟩ | ⟨rfl, rfl⟩ | ⟨rfl, rfl⟩ | ⟨rfl, rfl⟩ | ⟨rfl, rfl⟩ | ⟨rfl, rfl⟩ | ⟨rfl, rfl⟩ | ⟨rfl, rfl⟩ |
      ⟨rfl, rfl⟩ | ⟨rfl, rfl⟩ | ⟨rfl, rfl⟩ | ⟨rfl, rfl⟩ | ⟨rfl, rfl⟩ | ⟨rfl, rfl⟩
    on_goal 3 => rw [← zeroExtend_bit]
    on_goal 9 => rw [← zeroExtend_freqWord]
    all_goals
      rw [hostAccess_read_reg (by decide) (by decide)]
      rfl

/-- Settles O17: bits 1 of STATUS and 0 of CTRL are DONE and IE, and each of the events sets DONE as stated. -/
theorem interruptIsDoneAndEnabled : Obligations.InterruptIsDoneAndEnabled := by
  intro s
  refine ⟨?level, fun w hw => ?cleared, fun w hb => ?accepted, fun c => rfl⟩
  case level =>
    obtain ⟨-, done, -⟩ := statusWord_fields s.status
    rw [show regRead 0x004 s = statusWord s.status from rfl, done]
    cases hie : s.regs.ie <;> simp [irq, regRead, hie]
  case cleared => simp [irq, regWrite, statusW1C, hw]
  case accepted => simp [irq, regWrite, whenFree_free hb, accept, emit]

/-! ### RAM accesses (R82, R87) -/

theorem length_leBytes (n : Nat) (w : Word) : (leBytes n w).length = n := by
  induction n generalizing w with
  | zero => rfl
  | succ n ih => rw [leBytes, List.length_cons, ih]

/-- Byte `k` of a word, least significant first. -/
theorem leBytes_getElem (n : Nat) (w : Word) (k : Nat) (h : k < (leBytes n w).length) :
    (leBytes n w)[k] = w.extractLsb' (8 * k) 8 := by
  induction n generalizing w k with
  | zero => exact absurd h (Nat.not_lt_zero k)
  | succ n ih =>
    cases k with
    | zero => rfl
    | succ k =>
      refine (ih (w >>> 8) k (Nat.lt_of_succ_lt_succ h)).trans (BitVec.eq_of_getLsbD_eq fun i hi => ?_)
      simp only [BitVec.getLsbD_extractLsb', BitVec.getLsbD_ushiftRight]
      congr 2
      omega

/-- The low bytes of a word make the word of its low bits. -/
theorem leWord_leBytes_bit (n : Nat) (w : Word) (i : Nat) (hi : i < 32) :
    (leWord (leBytes n w)).getLsbD i = (decide (i < 8 * n) && w.getLsbD i) := by
  induction n generalizing w i with
  | zero => simp [leBytes, leWord]
  | succ n ih =>
    simp only [leBytes, leWord, BitVec.getLsbD_or, BitVec.getLsbD_shiftLeft, hi, decide_true, Bool.true_and, 
      BitVec.zeroExtend, BitVec.getLsbD_setWidth, BitVec.getLsbD_extractLsb', Nat.zero_add]
    by_cases h8 : i < 8
    · simp [h8, show i < 8 * (n + 1) by omega]
    · rw [ih _ _ (by omega)]
      simp [h8, show 8 + (i - 8) = i by omega, show i - 8 < 8 * n ↔ i < 8 * (n + 1) by omega]

theorem leWord_leBytes (n : Nat) (w : Word) : leWord (leBytes n w) = w &&& BitVec.ofNat 32 (2 ^ (8 * n) - 1) := by
  refine BitVec.eq_of_getLsbD_eq fun i hi => ?_
  rw [leWord_leBytes_bit n w i hi, BitVec.getLsbD_and, BitVec.getLsbD_ofNat, Nat.testBit_two_pow_sub_one]
  simp [hi, Bool.and_comm]

/-- Settles O13: a write stores the bytes of the word (`byte_write`), and a read of written bytes takes no draw
(`readBytes_written`) and makes the word of them. -/
theorem ramAccessesAreLittleEndian : Obligations.RamAccessesAreLittleEndian := by
  intro s rest addr width w hc hlo hhi hal
  refine ⟨fun hb ha => ?write, fun ha hram => ?read⟩
  case write =>
    have free := whenFree_free (s := { s with agenda := rest }) hb
    rw [step_host hc ha, hostAccess_write_ram hlo hhi hal, free]
    refine ⟨_, rfl, rfl, rfl, rfl, fun k hk => ?_, fun a hout => ?_⟩
    · have hk' : k < (leBytes width.bytes w).length := by rwa [length_leBytes]
      exact (byte_write_inside _ _ _ k hk').trans (congrArg some (leBytes_getElem _ _ k hk'))
    · exact byte_write_outside _ _ _ a (by rwa [length_leBytes])
  case read =>
    have hread := readBytes_written (m := s.ram) (addr.toNat - 0x1000) (leBytes width.bytes w)
      (fun k hk => by rw [leBytes_getElem]; exact hram k (by rwa [length_leBytes] at hk)) s.oracle
    rw [length_leBytes] at hread
    rw [step_host hc ha]
    simp only [hostAccess, hostRead, hostTarget_ram hlo hhi hal, memRead, hread, leWord_leBytes]
    rfl

/-! ### The idle block (R331) -/

/-- A RAM read asks neither the chip, nor the line, nor the store. -/
theorem readBytes_oracle (m : Memory) (off n : Nat) (o : Oracle) :
    (readBytes m off n o).2.chip = o.chip ∧ (readBytes m off n o).2.gdo = o.gdo ∧ (readBytes m off n o).2.load = o.load := by
  have byte (a : Nat) (o : Oracle) :
      (readByte m a o).2.chip = o.chip ∧ (readByte m a o).2.gdo = o.gdo ∧ (readByte m a o).2.load = o.load := by
    unfold readByte
    split
    · exact ⟨rfl, rfl, rfl⟩
    · unfold drawRam
      split <;> exact ⟨rfl, rfl, rfl⟩
  induction n generalizing off o with
  | zero => exact ⟨rfl, rfl, rfl⟩
  | succ n ih =>
    obtain ⟨h1, h2, h3⟩ := byte off o
    obtain ⟨g1, g2, g3⟩ := ih (off + 1) (readByte m off o).2
    exact ⟨g1.trans h1, g2.trans h2, g3.trans h3⟩

/-- What a move leaves of an idle block: no command runs, nothing is recorded and nothing outside is asked. -/
structure StaysIdle (s t : State) : Prop where
  busy : t.status.busy = s.status.busy
  ctx : t.ctx = s.ctx
  history : t.history = s.history
  cfg : t.cfg = s.cfg
  agenda : t.agenda = s.agenda
  chip : t.oracle.chip = s.oracle.chip
  gdo : t.oracle.gdo = s.oracle.gdo
  load : t.oracle.load = s.oracle.load
  now : t.regs.now = s.regs.now

theorem StaysIdle.refl (s : State) : StaysIdle s s := ⟨rfl, rfl, rfl, rfl, rfl, rfl, rfl, rfl, rfl⟩

/-- The port's answer is no state of the block. -/
theorem StaysIdle.respond {s t : State} (h : StaysIdle s t) (r : Response) : StaysIdle s (respond r t) :=
  ⟨h.busy, h.ctx, h.history, h.cfg, h.agenda, h.chip, h.gdo, h.load, h.now⟩

theorem staysIdle_memRead (off n : Nat) (s : State) : StaysIdle s (memRead off n s).2 := by
  obtain ⟨chip, gdo, load⟩ := readBytes_oracle s.ram off n s.oracle
  exact ⟨rfl, rfl, rfl, rfl, rfl, chip, gdo, load, rfl⟩

theorem staysIdle_memWrite (off : Nat) (bytes : List Byte) (s : State) : StaysIdle s (memWrite off bytes s) :=
  ⟨rfl, rfl, rfl, rfl, rfl, rfl, rfl, rfl, rfl⟩

theorem staysIdle_regWrite {s : State} (hb : s.status.busy = false) {off : Nat} (hoff : off ≠ 0) (w : Word) :
    StaysIdle s (regWrite off w s) := by
  unfold regWrite
  split
  case h_1 => exact absurd rfl hoff
  case h_2 | h_3 => exact ⟨rfl, rfl, rfl, rfl, rfl, rfl, rfl, rfl, rfl⟩
  case h_4 | h_5 | h_6 | h_7 => rw [whenFree_free hb]; exact ⟨rfl, rfl, rfl, rfl, rfl, rfl, rfl, rfl, rfl⟩
  case h_8 => exact .refl s

/-- An access that goes to a register is a word access at the register's address. -/
theorem hostTarget_eq_reg {addr : BitVec 13} {width : Width} {off : Nat} (h : hostTarget addr width = .reg off) :
    width = .w32 ∧ off = addr.toNat := by
  unfold hostTarget at h
  split_ifs at h with _ hword
  cases h
  exact ⟨hword.1, rfl⟩

/-- Of the accesses to an idle block only a word write to CMD does more than that. -/
theorem staysIdle_hostAccess {s : State} (hb : s.status.busy = false) (a : HostAccess)
    (ha : ∀ w, a ≠ .write 0x0000#13 .w32 w) : StaysIdle s (hostAccess a s) := by
  cases a with
  | read addr width =>
    unfold hostAccess hostRead
    dsimp only
    split
    case h_2 off _ => exact (staysIdle_memRead off _ s).respond _
    all_goals exact (StaysIdle.refl s).respond _
  | write addr width w =>
    unfold hostAccess hostWrite
    dsimp only
    split
    case h_1 off ht =>
      obtain ⟨rfl, rfl⟩ := hostTarget_eq_reg ht
      refine (staysIdle_regWrite hb (fun h0 => ha w ?_) w).respond _
      rw [show addr = 0x0000#13 from BitVec.eq_of_toNat_eq h0]
    case h_2 off _ =>
      rw [whenFree_free hb]
      exact (staysIdle_memWrite off _ s).respond _
    case h_3 => exact (StaysIdle.refl s).respond _

theorem tickStep_idle {s : State} (hb : s.status.busy = false) : tickStep s = elapse 1 s := by simp [tickStep, hb]

/-- Settles O9: a host access but CMD's leaves the block idle (`staysIdle_hostAccess`), the sequencer has nothing to do, and
a tick is one millisecond. -/
theorem idleMovesKeepTheBlockIdle : Obligations.IdleMovesKeepTheBlockIdle := by
  intro s m rest hc hb hx ha hreset hcmd
  have hb' : { s with agenda := rest }.status.busy = false := hb
  rw [step_move hc ha]
  cases m with
  | host a =>
    have h := staysIdle_hostAccess hb' a fun w hw => hcmd w (congrArg Move.host hw)
    exact ⟨_, rfl, h.busy.trans hb, h.ctx.trans hx, h.history, h.cfg, h.agenda, h.chip, h.gdo, h.load, nofun, nofun,
      fun _ => h.now⟩
  | seq =>
    exact ⟨_, seqMove_idle hb', hb, hx, rfl, rfl, rfl, rfl, rfl, rfl, fun _ => rfl, nofun, fun _ => rfl⟩
  | run =>
    exact ⟨_, runMove_idle hb', hb, hx, rfl, rfl, rfl, rfl, rfl, rfl, fun _ => rfl, nofun, fun _ => rfl⟩
  | tick =>
    refine ⟨_, rfl, ?_⟩
    rw [tickStep_idle hb']
    exact ⟨hb, hx, rfl, rfl, rfl, rfl, rfl, rfl, nofun, fun _ => rfl, fun h => absurd rfl h⟩
  | reset => exact absurd rfl hreset

end Sys2Proof.Machine
end

section
/-! What a step may do, and what it keeps: the machine invariant, from which no step stops (spec/20_memory.md R80, R82;
spec/10_state.md R45, R51), the balance of the exchanges (R140), the configuration and the history (R30, R52), and the
agreement of single moves with the coarse run (spec/00_scope.md R9). -/

namespace Sys2Proof.Machine

/-! ### The sequencer, case by case -/

theorem runCommand_of_after {m rest : Prog ResultCode} {s : State} (ha : m.after s.ctx.answers = some rest)
    (hd : s.ctx.delayLeft = none) : runCommand m s = .next (finish rest s) := by simp [runCommand, ha, hd]

/-- A pending `Delay` runs out before the rest is performed. -/
theorem runCommand_of_delay {m : Prog ResultCode} {s : State} {j n : Nat} {k : Unit → Prog ResultCode}
    (ha : m.after s.ctx.answers = some (.op (.delay j) k)) (hd : s.ctx.delayLeft = some n) :
    runCommand m s = .next (finish (k ()) (elapse n s)) := by simp [runCommand, ha, hd]

theorem seqStep_blocked {m : Prog ResultCode} {s : State} {n : Nat} (hd : s.ctx.delayLeft = some n) :
    seqStep m s = .next s := by simp [seqStep, hd]

theorem seqStep_end {m : Prog ResultCode} {s : State} {c : ResultCode} (ha : m.after s.ctx.answers = some (.pure c))
    (hd : s.ctx.delayLeft = none) : seqStep m s = .next (complete c s) := by simp [seqStep, ha, hd]

theorem seqStep_blocks {m : Prog ResultCode} {s : State} {n : Nat} {k : Unit → Prog ResultCode}
    (ha : m.after s.ctx.answers = some (.op (.delay n) k)) (hd : s.ctx.delayLeft = none) (hn : n ≠ 0) :
    seqStep m s = .next { s with ctx := { s.ctx with delayLeft := some n } } := by simp [seqStep, ha, hd, hn]

/-- Every other primitive, `Delay(0)` among them, is performed and its answer recorded. -/
theorem seqStep_performs {m : Prog ResultCode} {s : State} {p : Prim} {k : p.Res → Prog ResultCode}
    (ha : m.after s.ctx.answers = some (.op p k)) (hd : s.ctx.delayLeft = none) (hp : ∀ n, p = .delay n → n = 0) :
    seqStep m s = .next (recordAnswer (p.record (runPrim p s).1) (runPrim p s).2) := by
  cases p with
  | delay n =>
    obtain rfl := hp n rfl
    simp [seqStep, ha, hd, runPrim, elapse_zero, Prim.record]
  | _ => simp [seqStep, ha, hd]

/-- Where the sequencer's move answers a next state, it has done nothing, completed the command, blocked or unblocked it, or
performed one primitive. -/
theorem seqStep_cases {m : Prog ResultCode} {s t : State} (h : seqStep m s = .next t) :
    t = s ∨ (∃ c, t = complete c s) ∨ (∃ x, t = { s with ctx := x }) ∨ ∃ p x, t = { (runPrim p s).2 with ctx := x } := by
  unfold seqStep at h
  split at h
  · cases h; exact .inl rfl
  · split at h
    · cases h
    · cases h; exact .inr (.inl ⟨_, rfl⟩)
    · split at h
      · cases h; exact .inr (.inr (.inl ⟨_, rfl⟩))
      · cases h; exact .inr (.inr (.inl ⟨_, rfl⟩))
    · cases h; exact .inr (.inr (.inr ⟨_, _, rfl⟩))

/-! ### Positions (R45, R51) -/

@[simp] theorem Prog.after_nil {α : Type} (m : Prog α) : m.after [] = some m := by simp [Prog.after]

theorem positionOk_reserved {s : State} (hi : decode s.ctx.opw = none) : PositionOk s ↔ AtStart s := by
  unfold PositionOk
  rw [hi]

theorem positionOk_command {s : State} {i : Instr} (hi : decode s.ctx.opw = some i) : PositionOk s ↔
    ∃ rest, (program s.cfg s.ctx.a0 s.ctx.a1 i).after s.ctx.answers = some rest ∧
      ∀ n, s.ctx.delayLeft = some n → ∃ m k, rest = .op (.delay m) k ∧ 1 ≤ n ∧ n ≤ m := by
  unfold PositionOk
  rw [hi]

/-- The first line is a position of every command. -/
theorem positionOk_atStart {s : State} (h : AtStart s) : PositionOk s := by
  obtain ⟨ha, hd⟩ := h
  cases hi : decode s.ctx.opw with
  | none => exact (positionOk_reserved hi).mpr ⟨ha, hd⟩
  | some i => exact (positionOk_command hi).mpr ⟨_, by rw [ha, Prog.after_nil], fun n hn => by rw [hd] at hn; cases hn⟩

/-- A pending `Delay` with some of its ticks left is a position. -/
theorem positionOk_blocked {s : State} {i : Instr} {m : Nat} {k : Unit → Prog ResultCode} (hi : decode s.ctx.opw = some i)
    (ha : (program s.cfg s.ctx.a0 s.ctx.a1 i).after s.ctx.answers = some (.op (.delay m) k)) {n : Nat} (h1 : 1 ≤ n)
    (hm : n ≤ m) : PositionOk { s with ctx := { s.ctx with delayLeft := some n } } :=
  (positionOk_command (s := { s with ctx := { s.ctx with delayLeft := some n } }) hi).mpr
    ⟨_, ha, fun j hj => by cases hj; exact ⟨m, k, rfl, h1, hm⟩⟩

/-! ### The invariant -/

theorem inv_of_idle {s : State} (hc : cfgWf s.cfg = true) (hr : s.ram.wf = true) (hb : s.status.busy = false)
    (hx : s.ctx = .idle) : Inv s where
  cfg := hc
  ram := hr
  idle _ := hx
  running h := absurd (hb.symm.trans h) Bool.false_ne_true
  flags h := absurd (hb.symm.trans h) Bool.false_ne_true

/-- A running command at another position. -/
theorem inv_of_running {s : State} (hc : cfgWf s.cfg = true) (hr : s.ram.wf = true) (hb : s.status.busy = true)
    (hp : PositionOk s) (hf : s.status.done = false ∧ s.status.result = .ok) : Inv s where
  cfg := hc
  ram := hr
  idle h := absurd (h.symm.trans hb) Bool.false_ne_true
  running _ := hp
  flags _ := hf

/-- The invariant speaks of the configuration, the hidden state, the lifecycle flags and the form of the RAM alone. -/
theorem Inv.congr {s t : State} (h : Inv s) (cfg : t.cfg = s.cfg) (ctx : t.ctx = s.ctx)
    (busy : t.status.busy = s.status.busy) (done : s.status.done = false → t.status.done = false)
    (result : t.status.result = s.status.result) (ram : t.ram.wf = true) : Inv t where
  cfg := cfg ▸ h.cfg
  ram := ram
  idle hb := ctx.trans (h.idle (busy.symm.trans hb))
  running hb := by
    have hp := h.running (busy.symm.trans hb)
    unfold PositionOk AtStart at hp ⊢
    rw [cfg, ctx]
    exact hp
  flags hb := ⟨done (h.flags (busy.symm.trans hb)).1, result.trans (h.flags (busy.symm.trans hb)).2⟩

theorem inv_complete {s : State} (hc : cfgWf s.cfg = true) (hr : s.ram.wf = true) (c : ResultCode) : Inv (complete c s) :=
  inv_of_idle hc hr rfl rfl

theorem inv_accept {s : State} (h : Inv s) (w : Word) : Inv (accept w s) :=
  inv_of_running h.cfg h.ram rfl (positionOk_atStart ⟨rfl, rfl⟩) ⟨rfl, rfl⟩

theorem inv_blockReset {s : State} (h : Inv s) : Inv (blockReset s) := inv_of_idle h.cfg rfl rfl rfl

/-! ### Host accesses keep it -/

theorem hostTarget_ram_inside {addr : BitVec 13} {width : Width} {off : Nat} (h : hostTarget addr width = .ram off) :
    off + width.bytes ≤ ramSize := by
  unfold hostTarget at h
  split_ifs at h with hreg hword hram hal
  obtain rfl : addr.toNat - 0x1000 = off := Target.ram.inj h
  have hbytes : width.bytes = 1 ∨ width.bytes = 2 ∨ width.bytes = 4 := by cases width <;> simp [Width.bytes]
  rcases hbytes with hn | hn | hn <;> rw [hn] at hal ⊢ <;> simp only [ramSize] <;> omega

theorem regWrite_ram (off : Nat) (w : Word) (s : State) : (regWrite off w s).ram = s.ram := by
  have free (t : State) (ht : t.ram = s.ram) : (whenFree s t).ram = s.ram := by
    unfold whenFree
    split
    · rfl
    · exact ht
  unfold regWrite
  split
  case h_2 | h_3 | h_8 => rfl
  all_goals exact free _ rfl

/-- An aligned access stays inside the RAM. -/
theorem wf_hostAccess (a : HostAccess) {s : State} (hr : s.ram.wf = true) : (hostAccess a s).ram.wf = true := by
  cases a with
  | read addr width =>
    obtain ⟨r, o, h⟩ := hostAccess_read addr width s
    rw [h]
    exact hr
  | write addr width w =>
    simp only [hostAccess, hostWrite]
    split
    case h_1 off _ => exact (congrArg Memory.wf (regWrite_ram off w s)).trans hr
    case h_2 off ht =>
      rw [respond_ram]
      unfold whenFree
      split
      · exact hr
      · exact wf_write hr _ _ (by rw [length_leBytes]; exact hostTarget_ram_inside ht)
    case h_3 => exact hr

theorem inv_hostAccess {s : State} (h : Inv s) (a : HostAccess) : Inv (hostAccess a s) := by
  have hr := wf_hostAccess a h.ram
  obtain ⟨r, t, ht, he⟩ := hostAccess_effect a s
  rw [he] at hr ⊢
  cases ht with
  | issues _ w => exact (inv_accept h w).congr rfl rfl rfl id rfl hr
  | clears w => exact h.congr rfl rfl rfl (fun hd => by simp [statusW1C, hd]) rfl hr
  | _ => exact h.congr rfl rfl rfl id rfl hr

/-! ### The sequencer and the clock keep it -/

/-- The recorded answer of the next primitive makes the next position. -/
theorem inv_recordAnswer {s t : State} {i : Instr} (h : Inv s) (hb : s.status.busy = true)
    (hi : decode s.ctx.opw = some i) {p : Prim} {k : p.Res → Prog ResultCode}
    (ha : (program s.cfg s.ctx.a0 s.ctx.a1 i).after s.ctx.answers = some (.op p k)) (hin : Inside s t)
    (hr : t.ram.wf = true) (r : p.Res) : Inv (recordAnswer (p.record r) t) := by
  obtain ⟨hdone, hresult⟩ := h.flags hb
  refine inv_of_running (hin.cfg ▸ h.cfg) hr (hin.busy.trans hb) ?position ⟨hin.done.trans hdone, hin.result.trans hresult⟩
  case position =>
    have hopw : decode (recordAnswer (p.record r) t).ctx.opw = some i := by
      rw [recordAnswer_ctx, hin.ctx]
      exact hi
    refine (positionOk_command hopw).mpr ⟨k r, ?_, nofun⟩
    simp only [recordAnswer_ctx, recordAnswer_cfg, hin.ctx, hin.cfg]
    exact Prog.after_snoc r ha rfl

/-- A program stores inside the RAM (`program_may`). -/
theorem wf_runPrim {c : Cfg} (hc : cfgWf c = true) {a0 a1 : Word} {i : Instr} {p : Prim} (hp : i.may c a0 a1 p) {u : State}
    (hr : u.ram.wf = true) : (runPrim p u).2.ram.wf = true := by
  cases p with
  | memWrite off bytes => exact wf_write hr off bytes (stores_inside hc hp)
  | write d => exact (congrArg Memory.wf (writeDst_ram d u)).trans hr
  | _ => exact hr

theorem inv_finish {i : Instr} {m : Prog ResultCode} {u : State} {a0 a1 : Word} (hc : cfgWf u.cfg = true)
    (hr : u.ram.wf = true) (hm : m.All (i.may u.cfg a0 a1)) : Inv (finish m u) :=
  inv_complete ((m.inside u).cfg ▸ hc)
    (Prog.run_keeps (I := fun v => v.ram.wf = true) (fun _ _ hp hv => wf_runPrim hc hp hv) hm hr) _

theorem inv_tickStep {s : State} (h : Inv s) : Inv (tickStep s) := by
  cases hb : s.status.busy with
  | false =>
    rw [tickStep_idle hb]
    exact h.congr rfl rfl rfl id rfl h.ram
  | true =>
    cases hd : s.ctx.delayLeft with
    | none =>
      rw [show tickStep s = s by simp [tickStep, hb, hd]]
      exact h
    | some n =>
      cases hi : decode s.ctx.opw with
      | none =>
        obtain ⟨-, hnone⟩ := (positionOk_reserved hi).mp (h.running hb)
        cases hd.symm.trans hnone
      | some i =>
        obtain ⟨rest, ha, hdelay⟩ := (positionOk_command hi).mp (h.running hb)
        obtain ⟨m, k, rfl, h1, hm⟩ := hdelay n hd
        by_cases hn : n ≤ 1
        · rw [show tickStep s = recordAnswer .unit (elapse 1 s) by simp [tickStep, hb, hd, hn]]
          exact inv_recordAnswer h hb hi ha (inside_runPrim (.delay 1) s) h.ram ()
        · rw [show tickStep s = { elapse 1 s with ctx := { s.ctx with delayLeft := some (n - 1) } } by
            simp [tickStep, hb, hd, hn]]
          exact inv_of_running h.cfg h.ram hb (positionOk_blocked hi ha (by omega) (by omega)) (h.flags hb)

theorem inv_seqMove {s : State} (h : Inv s) : ∃ t, seqMove s = .next t ∧ Inv t := by
  cases hb : s.status.busy with
  | false => exact ⟨s, seqMove_idle hb, h⟩
  | true =>
    cases hi : decode s.ctx.opw with
    | none => exact ⟨_, seqMove_reserved hb hi, inv_complete h.cfg h.ram _⟩
    | some i =>
      rw [seqMove_running hb hi]
      obtain ⟨rest, ha, hdelay⟩ := (positionOk_command hi).mp (h.running hb)
      cases hd : s.ctx.delayLeft with
      | some n => exact ⟨s, seqStep_blocked hd, h⟩
      | none =>
        cases rest with
        | pure c => exact ⟨_, seqStep_end ha hd, inv_complete h.cfg h.ram c⟩
        | op p k =>
          by_cases hp : ∀ n, p = .delay n → n = 0
          · have hmay := (Prog.all_after (program_may _ _ _ i) ha).1
            exact ⟨_, seqStep_performs ha hd hp,
              inv_recordAnswer h hb hi ha (inside_runPrim p s) (wf_runPrim h.cfg hmay h.ram) _⟩
          · push Not at hp
            obtain ⟨n, rfl, hn⟩ := hp
            exact ⟨_, seqStep_blocks ha hd hn,
              inv_of_running h.cfg h.ram hb (positionOk_blocked hi ha (by omega) le_rfl) (h.flags hb)⟩

theorem inv_runMove {s : State} (h : Inv s) : ∃ t, runMove s = .next t ∧ Inv t := by
  cases hb : s.status.busy with
  | false => exact ⟨s, runMove_idle hb, h⟩
  | true =>
    cases hi : decode s.ctx.opw with
    | none => exact ⟨_, runMove_reserved hb hi, inv_complete h.cfg h.ram _⟩
    | some i =>
      rw [runMove_running hb hi, exec_eq]
      obtain ⟨rest, ha, hdelay⟩ := (positionOk_command hi).mp (h.running hb)
      have hmay := Prog.all_after (program_may _ _ _ i) ha
      cases hd : s.ctx.delayLeft with
      | none => exact ⟨_, runCommand_of_after ha hd, inv_finish h.cfg h.ram hmay⟩
      | some n =>
        obtain ⟨m, k, rfl, -, -⟩ := hdelay n hd
        exact ⟨_, runCommand_of_delay ha hd, inv_finish (u := elapse n s) h.cfg h.ram (hmay.2 ())⟩

/-- Settles O21: by the kind of move; each kind keeps the invariant, and a position of the program is always there for the
sequencer to go on from. -/
theorem stepKeepsInvariantAndNeverStops : Obligations.StepKeepsInvariantAndNeverStops := by
  intro s h
  cases ha : s.agenda with
  | nil =>
    cases hb : s.status.busy with
    | true => rw [step_quiet h.cfg hb ha]; exact inv_runMove h
    | false => exact ⟨tickStep s, by simp [step, h.cfg, ha, hb], inv_tickStep h⟩
  | cons m rest =>
    rw [step_move h.cfg ha]
    have h' : Inv { s with agenda := rest } := h.congr rfl rfl rfl id rfl h.ram
    cases m with
    | host a => exact ⟨_, rfl, inv_hostAccess h' a⟩
    | seq => exact inv_seqMove h'
    | tick => exact ⟨_, rfl, inv_tickStep h'⟩
    | run => exact inv_runMove h'
    | reset => exact ⟨_, rfl, inv_blockReset h'⟩

/-- Settles O20: after reset nothing runs and the RAM is empty. -/
theorem invariantHoldsAtReset : Obligations.InvariantHoldsAtReset := by
  have reset (c : Cfg) (hc : cfgWf c = true) : Inv (State.resetWith c) := inv_of_idle hc rfl rfl rfl
  exact ⟨reset, reset resetCfg (by decide +kernel)⟩

/-! ### The exchanges (R140) -/

/-- An exchange receives a status byte and as many bytes as it sends after the header; nothing else records exchanges. -/
theorem exchangesBalanced_runPrim (p : Prim) (s : State) (h : ExchangesBalanced s) : ExchangesBalanced (runPrim p s).2 := by
  intro out answer now hmem
  cases p with
  | xfer hd tl =>
    rw [show (runPrim (.xfer hd tl) s).2.history = _ from doXfer_history hd tl s, List.mem_append,
      List.mem_singleton] at hmem
    obtain hmem | hmem := hmem
    · exact h out answer now hmem
    · cases hmem
      exact ⟨Nat.le_add_left 1 _, congrArg (· + 1) (doXfer hd tl s).1.2.2⟩
  | write d => exact h out answer now ((congrArg (_ ∈ ·) (writeDst_history d s)).mp hmem)
  | note e =>
    rw [show (runPrim (.note e) s).2.history = s.history ++ [e.event s.regs.now] from rfl, List.mem_append,
      List.mem_singleton] at hmem
    obtain hmem | hmem := hmem
    · exact h out answer now hmem
    · cases e <;> cases hmem
  | _ => exact h out answer now hmem

theorem exchangesBalanced_hostAccess (a : HostAccess) (s : State) (h : ExchangesBalanced s) :
    ExchangesBalanced (hostAccess a s) := by
  obtain ⟨r, t, ht, he⟩ := hostAccess_effect a s
  rw [he]
  cases ht with
  | issues _ w =>
    intro out answer now hmem
    exact h out answer now (by simpa using hmem)
  | _ => exact h

/-- Settles O23: by the kind of step (`step_keeps`); acceptance and completion record no exchange. -/
theorem exchangesStayBalanced : Obligations.ExchangesStayBalanced := by
  refine ⟨fun c out answer now hmem => absurd hmem (by simp [State.resetWith]), ?_⟩
  refine step_keeps (fun _ _ h => h) exchangesBalanced_runPrim (fun _ _ h => h) (fun c s h => ?completed) (fun _ _ h => h)
    exchangesBalanced_hostAccess (fun s _ out answer now hmem => absurd hmem (by simp))
  case completed =>
    intro out answer now hmem
    exact h out answer now (by simpa using hmem)

/-! ### The configuration and the history (R30, R52) -/

/-- CFG stays and the history grows. -/
def Extends (s t : State) : Prop := t.cfg = s.cfg ∧ ∃ events, t.history = s.history ++ events

theorem Extends.refl (s : State) : Extends s s := ⟨rfl, [], (List.append_nil _).symm⟩

theorem extends_complete (c : ResultCode) (s : State) : Extends s (complete c s) := ⟨rfl, [_], rfl⟩

theorem extends_runPrim (p : Prim) (s : State) : Extends s (runPrim p s).2 := by
  obtain ⟨events, h, -⟩ := (inside_runPrim p s).history
  exact ⟨(inside_runPrim p s).cfg, events, h⟩

theorem extends_finish (m : Prog ResultCode) (s : State) : Extends s (finish m s) := by
  obtain ⟨events, h, -⟩ := (m.inside s).history
  exact ⟨(m.inside s).cfg, events ++ [_], by rw [← List.append_assoc, ← h]; rfl⟩

theorem extends_hostAccess (a : HostAccess) (s : State) : Extends s (hostAccess a s) := by
  obtain ⟨r, t, ht, he⟩ := hostAccess_effect a s
  rw [he]
  cases ht with
  | issues _ w => exact ⟨rfl, [_], rfl⟩
  | _ => exact .refl s

theorem extends_tickStep (s : State) : Extends s (tickStep s) := by
  unfold tickStep
  split
  · split
    · exact .refl s
    · split <;> exact .refl s
  · exact .refl s

theorem extends_runMove {s t : State} (h : runMove s = .next t) : Extends s t := by
  unfold runMove at h
  split at h
  · split at h
    · obtain ⟨m, u, hu, rfl⟩ := exec_cases _ s t h
      obtain rfl | ⟨n, rfl⟩ := hu
      · exact extends_finish m u
      · exact extends_finish m (elapse n s)
    · cases h; exact extends_complete _ s
  · cases h; exact .refl s

theorem extends_seqMove {s t : State} (h : seqMove s = .next t) : Extends s t := by
  unfold seqMove at h
  split at h
  · split at h
    · obtain rfl | ⟨c, rfl⟩ | ⟨x, rfl⟩ | ⟨p, x, rfl⟩ := seqStep_cases h
      · exact .refl t
      · exact extends_complete c s
      · exact .refl s
      · exact extends_runPrim p s
    · cases h; exact extends_complete _ s
  · cases h; exact .refl s

/-- Settles O24: every move but block reset extends the history and keeps CFG; block reset keeps CFG and empties it. -/
theorem stepKeepsConfigurationAndHistory : Obligations.StepKeepsConfigurationAndHistory := by
  have extended {s t : State} (h : Extends s t) (hr : s.agenda.head? ≠ some .reset) : t.cfg = s.cfg ∧
      (s.agenda.head? = some .reset → t.history = []) ∧
      (s.agenda.head? ≠ some .reset → ∃ events, t.history = s.history ++ events) :=
    ⟨h.1, fun h0 => absurd h0 hr, fun _ => h.2⟩
  intro s t h
  have hc : cfgWf s.cfg = true := by
    by_contra hc
    rw [(step_refused_iff s).mpr hc] at h
    cases h
  cases ha : s.agenda with
  | nil =>
    rw [← ha]
    refine extended ?_ (by simp [ha])
    cases hb : s.status.busy with
    | true => exact extends_runMove ((step_quiet hc hb ha).symm.trans h)
    | false =>
      rw [show step s = .next (tickStep s) by simp [step, hc, ha, hb]] at h
      cases h
      exact extends_tickStep s
  | cons m rest =>
    rw [step_move hc ha] at h
    rw [← ha]
    cases m with
    | reset =>
      cases h
      exact ⟨rfl, fun _ => rfl, fun h0 => absurd (by rw [ha]; rfl) h0⟩
    | host a =>
      cases h
      exact extended (extends_hostAccess a { s with agenda := rest }) (by simp [ha])
    | seq => exact extended (s := s) (extends_seqMove (s := { s with agenda := rest }) h) (by simp [ha])
    | tick =>
      cases h
      exact extended (extends_tickStep { s with agenda := rest }) (by simp [ha])
    | run => exact extended (s := s) (extends_runMove (s := { s with agenda := rest }) h) (by simp [ha])

/-! ### Single moves (R9, R89) -/

/-- Single sequencer moves and ticks, with nothing else lined up, lead from `s` to `t`. -/
def Reaches (s t : State) : Prop := ∃ moves : List Move, (∀ m ∈ moves, m = .seq ∨ m = .tick) ∧ runMoves moves s = .next t

theorem Reaches.refl (s : State) : Reaches s s := ⟨[], nofun, rfl⟩

/-- One more move before the others. -/
theorem Reaches.cons {s t u : State} {m : Move} (hc : cfgWf s.cfg = true) (hag : s.agenda = []) (hm : m = .seq ∨ m = .tick)
    (hstep : moveStep m s = .next t) (h : Reaches t u) : Reaches s u := by
  obtain ⟨moves, hmoves, hrun⟩ := h
  refine ⟨m :: moves, ?_, ?_⟩
  · rintro m' (_ | hmem)
    · exact hm
    · exact hmoves m' ‹_›
  · have hs : { s with agenda := [] } = s := by rw [← hag]
    rw [runMoves, step_move (s := { s with agenda := [m] }) hc rfl]
    simp only [hs, hstep, hrun]

/-- The ticks of a pending `Delay`, the last of which completes it. -/
theorem reaches_ticks (n : Nat) (s : State) (hc : cfgWf s.cfg = true) (hag : s.agenda = []) (hb : s.status.busy = true)
    (hd : s.ctx.delayLeft = some (n + 1)) {t : State} (h : Reaches (recordAnswer .unit (elapse (n + 1) s)) t) :
    Reaches s t := by
  induction n generalizing s with
  | zero => exact h.cons hc hag (.inr rfl) (by simp [moveStep, tickStep, hb, hd])
  | succ n ih =>
    have hstep : moveStep .tick s = .next { elapse 1 s with ctx := { s.ctx with delayLeft := some (n + 1) } } := by
      simp [moveStep, tickStep, hb, hd]
    rw [Nat.add_comm, ← elapse_elapse] at h
    exact (ih { elapse 1 s with ctx := { s.ctx with delayLeft := some (n + 1) } } hc hag hb rfl h).cons hc hag (.inr rfl) hstep

/-- From a position of its program, with no `Delay` pending, a command reaches the end of the rest of its program. -/
theorem reaches_finish {i : Instr} (rest : Prog ResultCode) (s : State) (hc : cfgWf s.cfg = true) (hag : s.agenda = [])
    (hb : s.status.busy = true) (hi : decode s.ctx.opw = some i)
    (ha : (program s.cfg s.ctx.a0 s.ctx.a1 i).after s.ctx.answers = some rest) (hd : s.ctx.delayLeft = none) :
    Reaches s (finish rest s) := by
  induction rest generalizing s with
  | pure c =>
    refine (Reaches.refl _).cons hc hag (.inl rfl) ?_
    exact (seqMove_running hb hi).trans (seqStep_end ha hd)
  | op p k ih =>
    -- the state after the primitive, its answer recorded, goes on as the induction says
    have next (t : State) (hin : Inside s t) (r : p.Res) :
        Reaches (recordAnswer (p.record r) t) (finish (k r) t) := by
      rw [← finish_recordAnswer _ (p.record r) t]
      refine ih r _ (hin.cfg ▸ hc) (hin.agenda.trans hag) (hin.busy.trans hb) ?_ ?_ rfl
      · rw [recordAnswer_ctx, hin.ctx]; exact hi
      · simp only [recordAnswer_ctx, recordAnswer_cfg, hin.ctx, hin.cfg]
        exact Prog.after_snoc r ha rfl
    by_cases hp : ∀ n, p = .delay n → n = 0
    · refine (next _ (inside_runPrim p s) _).cons hc hag (.inl rfl) ?_
      exact (seqMove_running hb hi).trans (seqStep_performs ha hd hp)
    · push Not at hp
      obtain ⟨n, rfl, hn⟩ := hp
      obtain ⟨n, rfl⟩ := Nat.exists_eq_succ_of_ne_zero hn
      have hstep := (seqMove_running hb hi).trans (seqStep_blocks ha hd hn)
      have hnext := next _ (inside_runPrim (.delay (n + 1)) s) ()
      exact (reaches_ticks n { s with ctx := { s.ctx with delayLeft := some (n + 1) } } hc hag hb rfl hnext).cons hc hag
        (.inl rfl) hstep

/-- Settles O25: from the present position, after the ticks of a pending `Delay`, the rest of the program is performed one
primitive at a time (`reaches_finish`). -/
theorem singleMovesReachTheSameCompletion : Obligations.SingleMovesReachTheSameCompletion := by
  intro s t h hb hag hstep
  rw [step_quiet h.cfg hb hag] at hstep
  cases hi : decode s.ctx.opw with
  | none =>
    rw [runMove_reserved hb hi] at hstep
    cases hstep
    exact (Reaches.refl _).cons h.cfg hag (.inl rfl) (seqMove_reserved hb hi)
  | some i =>
    rw [runMove_running hb hi, exec_eq] at hstep
    obtain ⟨rest, ha, hdelay⟩ := (positionOk_command hi).mp (h.running hb)
    cases hd : s.ctx.delayLeft with
    | none =>
      rw [runCommand_of_after ha hd] at hstep
      cases hstep
      exact reaches_finish rest s h.cfg hag hb hi ha hd
    | some n =>
      obtain ⟨m, k, rfl, h1, -⟩ := hdelay n hd
      obtain ⟨n, rfl⟩ := Nat.exists_eq_add_of_le' h1
      rw [runCommand_of_delay ha hd] at hstep
      cases hstep
      refine reaches_ticks n s h.cfg hag hb hd ?_
      rw [← finish_recordAnswer _ .unit]
      exact reaches_finish (k ()) (recordAnswer .unit (elapse (n + 1) s)) h.cfg hag hb hi
        (Prog.after_snoc (p := .delay m) () ha rfl) rfl

end Sys2Proof.Machine
end

section
/-! How a command ends and what each command leaves alone, from the primitives its program may perform (`program_may`;
spec/10_state.md R46, R55; spec/20_memory.md R99; spec/70_reset_and_hazards.md R351). -/

namespace Sys2Proof.Machine

/-! ### Completion (R55, R303) -/

/-- From its first line a command completes from a state that its program leads to, and keeps what all its primitives
keep. -/
theorem exec_completes {I : State → Prop} {i : Instr} {s : State} (h : AtStart s)
    (hprim : ∀ p u, i.may s.cfg s.ctx.a0 s.ctx.a1 p → I u → I (runPrim p u).2) (hs : I s) :
    ∃ c u, exec i s = .next (complete c u) ∧ Inside s u ∧ I u :=
  ⟨_, _, exec_atStart i s h, Prog.inside _ s, Prog.run_keeps hprim (program_may _ _ _ i) hs⟩

/-- Settles O19: the program changes nothing of a command's lifecycle (`Inside`), and then one completion follows. -/
theorem everyCommandCompletesOnce : Obligations.EveryCommandCompletesOnce := by
  intro i s h
  obtain ⟨c, u, hexec, hin, -⟩ := exec_completes (I := fun _ => True) (i := i) h (fun _ _ _ _ => trivial) trivial
  obtain ⟨events, hevents, hnone⟩ := hin.history
  exact ⟨_, events, hexec, by rw [complete_history, hevents]; rfl, hnone, rfl, rfl, rfl, hin.cfg, hin.rej, hin.ie, hin.arg0,
    hin.arg1, hin.meterId, hin.agenda, hin.response⟩

/-! ### The commands by what they may do -/

theorem scans_iff (i : Instr) : i.scans = true ↔ i = .discover ∨ i = .boot := by cases i <;> simp [Instr.scans]

theorem attempts_iff (i : Instr) : i.attempts = true ↔ i = .attempt ∨ i = .discover ∨ i = .boot := by
  cases i <;> simp [Instr.attempts]

theorem waits_iff (i : Instr) : i.waits = true ↔ (∃ t, i = .waitst t) ∨ (∃ l, i = .waitedge l) ∨ i = .drain ∨
    i = .rreset ∨ i = .rinit ∨ i = .attempt ∨ i = .discover ∨ i = .boot := by cases i <;> simp [Instr.waits]

theorem stores_cases {c : Cfg} {a0 a1 : Word} {i : Instr} {off len : Nat} (h : i.stores c a0 a1 off len) :
    (∃ a n, i = .rburst a n) ∨ i = .drain ∨ i = .encode ∨ (∃ o, i = .decode o) ∨ i = .buildreq ∨ i = .attempt ∨
      i = .discover ∨ i = .boot := by cases i <;> simp <;> exact h

/-! ### Frames -/

/-- Of the primitives, only those of a scan write FREQ_MHZ, CAND or DISC or record a STORE (R275). -/
theorem runPrim_keeps_scan {c : Cfg} {a0 a1 : Word} {i : Instr} (hi : ¬ i.scans = true) {p : Prim} (hp : i.may c a0 a1 p)
    (u : State) : (runPrim p u).2.regs.freqMhz = u.regs.freqMhz ∧ (runPrim p u).2.regs.cand = u.regs.cand ∧
      (runPrim p u).2.status.disc = u.status.disc ∧ storesOf (runPrim p u).2.history = storesOf u.history := by
  cases p with
  | xfer hd tl => exact ⟨rfl, rfl, rfl, by simp [runPrim, storesOf_append, storesOf_xfer, storesOf_nil]⟩
  | write d =>
    cases d with
    | freqMhz | cand | disc => exact absurd hp hi
    | _ => exact ⟨rfl, rfl, rfl, rfl⟩
  | note e =>
    refine ⟨rfl, rfl, rfl, ?_⟩
    cases e with
    | store => exact absurd hp hi
    | _ => exact (storesOf_append _ _).trans (List.append_nil _)
  | _ => exact ⟨rfl, rfl, rfl, rfl⟩

/-- Settles O26: the primitives of the other commands keep what only a scan writes (`runPrim_keeps_scan`). -/
theorem onlyDiscoveryAndBootWriteFreqMhz : Obligations.OnlyDiscoveryAndBootWriteFreqMhz := by
  intro i s h hdiscover hboot
  have hi : ¬ i.scans = true := by rw [scans_iff]; exact not_or.mpr ⟨hdiscover, hboot⟩
  obtain ⟨c, u, hexec, -, hfreq, hcand, hdisc, hstores⟩ := exec_completes (i := i) (s := s) h
    (I := fun u => u.regs.freqMhz = s.regs.freqMhz ∧ u.regs.cand = s.regs.cand ∧ u.status.disc = s.status.disc ∧
      storesOf u.history = storesOf s.history)
    (fun p u hp ⟨h1, h2, h3, h4⟩ =>
      have ⟨g1, g2, g3, g4⟩ := runPrim_keeps_scan hi hp u
      ⟨g1.trans h1, g2.trans h2, g3.trans h3, g4.trans h4⟩) ⟨rfl, rfl, rfl, rfl⟩
  exact ⟨_, hexec, hfreq, hcand, hdisc, by rw [complete_history, storesOf_append, hstores]; exact List.append_nil _⟩

/-- Only those of an attempt write ATT_STATE or publish (R261, R269). -/
theorem runPrim_keeps_att {c : Cfg} {a0 a1 : Word} {i : Instr} (hi : ¬ i.attempts = true) {p : Prim} (hp : i.may c a0 a1 p)
    (u : State) : (runPrim p u).2.status.att = u.status.att ∧
      publishesOf (runPrim p u).2.history = publishesOf u.history := by
  cases p with
  | xfer hd tl => exact ⟨rfl, by simp [runPrim, publishesOf_append, publishesOf_xfer, publishesOf_nil]⟩
  | write d =>
    cases d with
    | att => exact absurd hp hi
    | _ => exact ⟨rfl, rfl⟩
  | note e =>
    refine ⟨rfl, ?_⟩
    cases e with
    | publish => exact absurd hp hi
    | _ => exact (publishesOf_append _ _).trans (List.append_nil _)
  | _ => exact ⟨rfl, rfl⟩

/-- Settles O27: as O26, with `runPrim_keeps_att`. -/
theorem onlyAttemptsWriteAttState : Obligations.OnlyAttemptsWriteAttState := by
  intro i s h hattempt hdiscover hboot
  have hi : ¬ i.attempts = true := by
    rw [attempts_iff]
    exact not_or.mpr ⟨hattempt, not_or.mpr ⟨hdiscover, hboot⟩⟩
  obtain ⟨c, u, hexec, -, hatt, hpub⟩ := exec_completes (i := i) (s := s) h
    (I := fun u => u.status.att = s.status.att ∧ publishesOf u.history = publishesOf s.history)
    (fun p u hp ⟨h1, h2⟩ =>
      have ⟨g1, g2⟩ := runPrim_keeps_att hi hp u
      ⟨g1.trans h1, g2.trans h2⟩) ⟨rfl, rfl⟩
  exact ⟨_, hexec, hatt, by rw [complete_history, publishesOf_append, hpub]; exact List.append_nil _⟩

/-- Only a `Delay` advances NOW (R41). -/
theorem runPrim_keeps_now {c : Cfg} {a0 a1 : Word} {i : Instr} (hi : ¬ i.waits = true) {p : Prim} (hp : i.may c a0 a1 p)
    (u : State) : (runPrim p u).2.regs.now = u.regs.now := by
  cases p with
  | delay => exact absurd hp hi
  | write d => exact writeDst_now d u
  | _ => rfl

/-- Settles O28: the commands that R351 leaves out are those that may wait (`waits_iff`). -/
theorem undelayedCommandsTakeNoTime : Obligations.UndelayedCommandsTakeNoTime := by
  intro i s h hwaitst hwaitedge hdrain hrreset hrinit hattempt hdiscover hboot
  have hi : ¬ i.waits = true := by
    rw [waits_iff]
    rintro (⟨t, ht⟩ | ⟨l, hl⟩ | hi | hi | hi | hi | hi | hi)
    · exact hwaitst t ht
    · exact hwaitedge l hl
    all_goals contradiction
  obtain ⟨c, u, hexec, -, hnow⟩ := exec_completes (i := i) (s := s) h (I := fun u => u.regs.now = s.regs.now)
    (fun p u hp hu => (runPrim_keeps_now hi hp u).trans hu) rfl
  exact ⟨_, hexec, hnow⟩

/-- Only a `MemWrite` changes RAM (R99). -/
theorem runPrim_keeps_ram {c : Cfg} {a0 a1 : Word} {i : Instr} (hi : ∀ off len, ¬ i.stores c a0 a1 off len) {p : Prim}
    (hp : i.may c a0 a1 p) (u : State) : (runPrim p u).2.ram = u.ram := by
  cases p with
  | memWrite => exact absurd hp (hi _ _)
  | write d => exact writeDst_ram d u
  | _ => rfl

/-- Settles O29: the commands that R99 leaves out are those that may store (`stores_cases`). -/
theorem nonStoringCommandsLeaveRam : Obligations.NonStoringCommandsLeaveRam := by
  intro i s h hrburst hdrain hencode hdecode hbuildreq hattempt hdiscover hboot
  have hi (off len : Nat) : ¬ i.stores s.cfg s.ctx.a0 s.ctx.a1 off len := by
    intro hst
    obtain ⟨a, n, hi⟩ | hi | hi | ⟨o, hi⟩ | hi | hi | hi | hi := stores_cases hst
    · exact hrburst a n hi
    · exact hdrain hi
    · exact hencode hi
    · exact hdecode o hi
    all_goals contradiction
  obtain ⟨c, u, hexec, -, hram⟩ := exec_completes (i := i) (s := s) h (I := fun u => u.ram = s.ram)
    (fun p u hp hu => (runPrim_keeps_ram hi hp u).trans hu) rfl
  exact ⟨_, hexec, fun a => by rw [complete_ram, hram]⟩

end Sys2Proof.Machine
end

section
/-! The commands of one exchange or none: what each does, its dispatch checks included (spec/40_radio_interface.md R151 to
R155, R161; spec/41_line_codec.md R203, R212; spec/42_crc.md R232; spec/43_protocol_engine.md R240, R241, R251). -/

namespace Sys2Proof.Machine

/-! ### Dispatch checks (R115, R116) -/

theorem offReserved_iff (w : Word) : offReserved w = true ↔ w.extractLsb' 11 21 ≠ 0#21 := bne_iff_ne

theorem offLenReserved_iff (w : Word) : offLenReserved w = true ↔ w.extractLsb' 11 5 ≠ 0#5 := bne_iff_ne

theorem msReserved_iff (w : Word) : msReserved w = true ↔ w.extractLsb' 16 16 ≠ 0#16 := bne_iff_ne

theorem offReserved_false {w : Word} (h : w.extractLsb' 11 21 = 0#21) : offReserved w = false := by simp [offReserved, h]

theorem offLenReserved_false {w : Word} (h : w.extractLsb' 11 5 = 0#5) : offLenReserved w = false := by
  simp [offLenReserved, h]

theorem msReserved_false {w : Word} (h : w.extractLsb' 16 16 = 0#16) : msReserved w = false := by simp [msReserved, h]

section
variable {i : Instr} {s : State} {badArg alloc : Bool} {body : Prog ResultCode}

/-- A command whose operands have a reserved bit or value ends with BADARG and no other effect. -/
theorem exec_badArg (h : AtStart s) (hp : program s.cfg s.ctx.a0 s.ctx.a1 i = checked badArg alloc body)
    (hb : badArg = true) : exec i s = .next (complete .badArg s) := by
  rw [exec_atStart i s h, hp, checked_badArg hb, finish_pure]

/-- A command whose range passes the RAM ends with ALLOC and no other effect. -/
theorem exec_alloc (h : AtStart s) (hp : program s.cfg s.ctx.a0 s.ctx.a1 i = checked badArg alloc body)
    (hb : badArg = false) (ha : alloc = true) : exec i s = .next (complete .alloc s) := by
  rw [exec_atStart i s h, hp, checked_alloc hb ha, finish_pure]

/-- A command that passes the checks runs its body. -/
theorem exec_body (h : AtStart s) (hp : program s.cfg s.ctx.a0 s.ctx.a1 i = checked badArg alloc body)
    (hb : badArg = false) (ha : alloc = false) : exec i s = .next (finish body s) := by
  rw [exec_atStart i s h, hp, checked_body hb ha]

end

/-! ### Single exchanges (R151, R152, R155) -/

/-- Settles O31: each program is the one exchange, and a header without read and burst bit is the address. -/
theorem wregAndStrobeMakeOneExchange : Obligations.WregAndStrobeMakeOneExchange := by
  intro s h
  refine ⟨fun addr bst value => exec_atStart _ s h, fun code => ?_, hdr_eq⟩
  rw [exec_atStart _ s h, ← hdr_strobe]
  rfl

/-- Settles O32: the byte written to RES0 is the one `xr` answers (`run_xr_fst`). -/
theorem rregReturnsTheByteRead : Obligations.RregReturnsTheByteRead := fun s addr bst h =>
  ⟨_, run_xr_fst s.cfg addr bst s, exec_atStart _ s h⟩

/-! ### Bursts (R153, R154) -/

/-- Settles O33: by the dispatch checks; the body is the read and the one exchange. -/
theorem wburstSendsRamBytes : Obligations.WburstSendsRamBytes := by
  intro s addr n h
  refine ⟨fun hbad => exec_badArg h rfl ?_, fun hn hz => ?_⟩
  · simpa [offReserved_iff, or_comm] using hbad
  · have hbad : (offReserved s.ctx.a0 || n == 0#8) = false := by simp [offReserved_false hz, hn]
    exact ⟨fun hpast => exec_alloc h rfl hbad (pastRam_true hpast),
      fun hin => (exec_body h rfl hbad (pastRam_false hin)).trans rfl⟩

/-- Settles O34: as O33; the body is the one exchange and the write of its data. -/
theorem rburstStoresChipBytes : Obligations.RburstStoresChipBytes := by
  intro s addr n h
  refine ⟨fun hbad => exec_badArg h rfl ?_, fun hn hz => ?_⟩
  · simpa [offReserved_iff, or_comm] using hbad
  · have hbad : (offReserved s.ctx.a0 || n == 0#8) = false := by simp [offReserved_false hz, hn]
    refine ⟨fun hpast => exec_alloc h rfl hbad (pastRam_true hpast), fun hin => ?_⟩
    have hlen := (doXfer (hdr s.cfg true true addr) (List.replicate n.toNat 0x00#8) s).1.2.2.trans List.length_replicate
    exact ⟨_, _, hlen, rfl, exec_body h rfl hbad (pastRam_false hin), rfl, fun k hk => byte_write_inside _ _ _ k hk,
      fun a ha => byte_write_outside _ _ _ a (ha.imp_right (le_of_eq_of_le (congrArg (_ + ·) hlen) ·))⟩

/-! ### RSSI (R161) -/

/-- Settles O40: the two branches of `rssiDbm`. -/
theorem rssiConvertsToDbm : Obligations.RssiConvertsToDbm := fun s raw h =>
  ⟨rssiDbm s.cfg raw, exec_atStart _ s h, fun hraw => if_pos hraw, fun hraw => if_neg (Nat.not_le.mpr hraw)⟩

/-! ### The line codec's commands (R203, R212) -/

/-- The length of an encoding, as ENCODE checks it against the RAM. -/
theorem encodedLen_eq (n : Nat) : encodedLen n = (10 * n + 7) / 8 := by unfold encodedLen; omega

/-- Settles O43: by the dispatch checks; the encoding has the length that was checked (`length_encodeCore`). -/
theorem encodeWritesTheEncoding : Obligations.EncodeWritesTheEncoding := by
  intro s h
  refine ⟨fun hbad => exec_badArg h rfl ?_, fun h0 h1 => ?_⟩
  · simpa [offLenReserved_iff, offReserved_iff] using hbad
  · have hbad : (offLenReserved s.ctx.a0 || offReserved s.ctx.a1) = false := by
      simp [offLenReserved_false h0, offReserved_false h1]
    refine ⟨fun hpast => exec_alloc h rfl hbad ?_, fun hin hout => ?_⟩
    · simpa [pastRam, encodedLen_eq] using hpast
    · have hlen (input : Bytes (argLen s.ctx.a0)) : (encodeCore input.1).length = (10 * argLen s.ctx.a0 + 7) / 8 := by
        rw [length_encodeCore, input.2]
      have hpast : (pastRam s.cfg (argOff s.ctx.a0) (argLen s.ctx.a0) ||
          pastRam s.cfg (argOff s.ctx.a1) (encodedLen (argLen s.ctx.a0))) = false := by
        rw [encodedLen_eq, pastRam_false hin, pastRam_false hout]; rfl
      refine ⟨_, _, _, rfl, exec_body h rfl hbad hpast, ?_, fun a ha => byte_write_outside _ _ _ a (by rwa [hlen])⟩
      rw [← hlen (memRead (argOff s.ctx.a0) (argLen s.ctx.a0) s).1]
      rfl

/-- Settles O45: by the dispatch checks; the decoded bytes are no more than the region zero-filled before them
(`length_decodeCore_le`). -/
theorem decodeWritesTheBytes : Obligations.DecodeWritesTheBytes := by
  intro s osr h
  refine ⟨fun hbad => exec_badArg h rfl ?_, fun h0 h1 => ?_⟩
  · simpa [offLenReserved_iff] using hbad
  · have hbad : (offLenReserved s.ctx.a0 || offLenReserved s.ctx.a1) = false := by
      simp [offLenReserved_false h0, offLenReserved_false h1]
    refine ⟨fun hpast => exec_alloc h rfl hbad ?_, fun hin hout => ?_⟩
    · simpa [pastRam] using hpast
    · have hpast : (pastRam s.cfg (argOff s.ctx.a0) (argLen s.ctx.a0) ||
          pastRam s.cfg (argOff s.ctx.a1) (argLen s.ctx.a1)) = false := by rw [pastRam_false hin, pastRam_false hout]; rfl
      let input := (memRead (argOff s.ctx.a0) (argLen s.ctx.a0) s).1
      let r := decodeCore input.1 (osrFactor osr) (argLen s.ctx.a1)
      have hlen : r.1.length ≤ argLen s.ctx.a1 := length_decodeCore_le _ _ _
      refine ⟨_, input, _, r.1, r.2, rfl, by cases osr <;> rfl, exec_body h rfl hbad hpast, rfl, rfl, rfl, hlen,
        fun k hk => byte_write_inside _ _ _ k hk, fun k hk hcap => ?zeros, fun a ha => ?outside⟩
      case zeros =>
        refine (byte_write_outside _ _ _ _ (.inr (Nat.add_le_add_left hk _))).trans ?_
        refine (byte_write_inside _ _ _ k (by rwa [List.length_replicate])).trans ?_
        rw [List.getElem_replicate]
      case outside =>
        refine (byte_write_outside _ _ r.1 a (by omega)).trans (byte_write_outside _ _ _ a ?_)
        rwa [List.length_replicate]

/-! ### CRC (R232) -/

/-- Settles O48: by the dispatch checks; the two result words are the register and its swap, zero-extended (`z16`). -/
theorem crcReturnsRegisterAndSwap : Obligations.CrcReturnsRegisterAndSwap := by
  intro s h
  refine ⟨fun hbad => exec_badArg h rfl ((offLenReserved_iff _).mpr hbad), fun hz => ?_⟩
  have hbad := offLenReserved_false hz
  refine ⟨fun hpast => exec_alloc h rfl hbad (pastRam_true hpast), fun hin => ⟨_, _, rfl, ?_⟩⟩
  rw [exec_body h rfl hbad (pastRam_false hin), ← z16, ← z16]
  rfl

/-! ### The request frame (R240, R241) -/

/-- Settles O50: by the dispatch check; the frame has the 33 bytes that were checked (`length_reqFrame`). -/
theorem buildreqWritesTheFrame : Obligations.BuildreqWritesTheFrame := by
  intro s h
  refine ⟨fun hbad => exec_badArg h rfl ((offReserved_iff _).mpr hbad),
    fun hz hpast => exec_alloc h rfl (offReserved_false hz) (pastRam_true hpast), fun hz hin => ?_⟩
  refine ⟨_, _, rfl, exec_body h rfl (offReserved_false hz) (pastRam_false hin), ?_, fun a ha => ?_⟩
  · rw [← z16]
    rfl
  · exact byte_write_outside _ _ _ a (by rwa [length_reqFrame])

/-- Settles O51: the four positions are distinct offsets in the 17 bytes (R13 f), and each `set` writes one of them. -/
theorem payloadCarriesYearAndSerial : Obligations.PayloadCarriesYearAndSerial := by
  intro c m hc
  have hpos : cfgPositionsOk c = true := by
    simp only [cfgWf, Bool.and_eq_true] at hc
    exact hc.2.2.2.1
  obtain ⟨hyear, hserial, h0, h1, h2⟩ := (cfgPositionsOk_iff c).mp hpos
  have hlen := c.reqTemplate.2
  unfold reqPayload
  refine ⟨?year, ?serial0, ?serial1, ?serial2, fun k k0 k1 k2 k3 => ?template⟩
  case year =>
    rw [List.getElem?_set_ne (by omega), List.getElem?_set_ne (by omega), List.getElem?_set_ne (by omega),
      List.getElem?_set_self (by omega)]
  case serial0 =>
    rw [List.getElem?_set_ne (by omega), List.getElem?_set_ne (by omega),
      List.getElem?_set_self (by rw [List.length_set]; omega)]
  case serial1 =>
    rw [List.getElem?_set_ne (by omega), List.getElem?_set_self (by rw [List.length_set, List.length_set]; omega)]
  case serial2 =>
    rw [List.getElem?_set_self (by rw [List.length_set, List.length_set, List.length_set]; omega)]
  case template =>
    rw [List.getElem?_set_ne (by omega), List.getElem?_set_ne (by omega), List.getElem?_set_ne (by omega),
      List.getElem?_set_ne (by omega)]

/-! ### Field extraction (R251) -/

/-- Settles O53: by the dispatch checks, and then as `ExtractCore` ends (`run_extract_short`, `run_extract`). -/
theorem extractReadsTheFields : Obligations.ExtractReadsTheFields := by
  intro s h
  refine ⟨fun hbad => exec_badArg h rfl ((offLenReserved_iff _).mpr hbad), fun hz hd => ?short, fun hz hd hpast => ?alloc,
    fun hz hd hin => ?fields⟩
  case short =>
    rw [exec_body h rfl (offLenReserved_false hz) (by simp [hd])]
    simp only [finish, Prog.run_bind, run_extract_short _ _ _ s hd]
    rfl
  case alloc => exact exec_alloc h rfl (offLenReserved_false hz) (by simp [hd, pastRam_true hpast])
  case fields =>
    obtain ⟨b, o, hread, hrun⟩ := run_extract s.cfg (argOff s.ctx.a0) (argLen s.ctx.a0) s hd
    refine ⟨b, o, indexAt s.cfg b.1, miscAt s.cfg b.1, hread, rfl, rfl, fun hzero => ?zero, fun hne => ?ok⟩
    all_goals
      rw [exec_body h rfl (offLenReserved_false hz) (by simp [pastRam_false hin])]
      simp only [finish, Prog.run_bind, hrun, if_true, readingZero, run_pRead, readSrc, Prog.run_pure]
    case zero =>
      obtain ⟨hindex, hmisc⟩ := hzero
      rw [hindex, hmisc]
      rfl
    case ok =>
      have hne' : (indexAt s.cfg b.1 == 0#32 && miscAt s.cfg b.1 == 0#32) = false := by
        simpa [← not_and_or] using hne
      rw [hne']
      rfl

end Sys2Proof.Machine
end

section
/-! The commands of the radio interface that tune the chip, write its tables, wait for it and drain its FIFO
(spec/40_radio_interface.md R144 to R163; spec/43_protocol_engine.md R260). -/

namespace Sys2Proof.Machine

/-! ### Exchanges and a completion -/

/-- The exchanges up to a completion. -/
theorem Sends.xfersOf_complete {l : List (List Byte × Word)} {s u v : State} (h : Sends l s u)
    (hv : v.history = u.history) (c : ResultCode) : xfersOf (complete c v).history = xfersOf s.history ++ l := by
  obtain ⟨events, hh, hx, -⟩ := h
  rw [complete_history, hv, hh, xfersOf_append, xfersOf_append, hx]
  exact List.append_nil _

/-! ### Reset, frequency and tables (R147 to R150, R160 to R163, R260) -/

/-- Settles O41: `run_reset`, and then the completion. -/
theorem rresetStrobesAndSettles : Obligations.RresetStrobesAndSettles := by
  intro s h
  obtain ⟨u, hrun, hsends, hregs, hram, hatt, -⟩ := run_reset s.cfg s
  have hexec : exec .rreset s = .next (complete .ok u) := by
    rw [exec_atStart _ s h]
    simp [finish, program, progRreset, hrun]
  exact ⟨_, hexec, rfl, hsends.xfersOf_complete rfl _, hregs, hram, hatt⟩

/-- Settles O38: by the domain check; inside the domain `run_setFreq`, and then RES0 is FREQ_WORD read back. -/
theorem setfreqWritesTheWord : Obligations.SetfreqWritesTheWord := by
  intro s h
  refine ⟨fun hbad => exec_badArg h rfl (by simp [hbad]), fun hin => ?_⟩
  obtain ⟨u, hrun, hsends, hregs, hram, hatt, -⟩ := run_setFreq s.cfg s.ctx.a0 s
  have hexec : exec .setfreq s = .next (complete .ok (writeDst (.res0 (u.regs.freqWord.zeroExtend 32)) u)) := by
    rw [exec_body h rfl (by simp [hin]) rfl]
    simp [finish, hrun, readSrc]
  exact ⟨_, hexec, rfl, by simp [writeDst, hregs], hsends.xfersOf_complete rfl _, hram, hatt⟩

/-- Settles O54: by the domain check; inside the domain `run_rinit`, and then RES0 is FREQ_WORD read back. -/
theorem rinitResetsAndTunes : Obligations.RinitResetsAndTunes := by
  intro s h
  have hexec : exec .rinit s = .next (finish (checked (!f32InDomain s.regs.freqMhz) false
      ((rinitCore s.cfg s.regs.freqMhz).andThen <|
        (pRead .freqWord).bind fun w => (pWrite (.res0 w)).andThen (.pure .ok))) s) := exec_atStart _ s h
  refine ⟨fun hbad => ?_, fun hin => ?_⟩
  · rw [hexec, checked_badArg (by simp [hbad]), finish_pure]
  · obtain ⟨u, order, hrun, hperm, hsorted, hsends, hregs, hram, hatt, -⟩ := run_rinit s.cfg s.regs.freqMhz s
    have hexec' : exec .rinit s = .next (complete .ok (writeDst (.res0 (u.regs.freqWord.zeroExtend 32)) u)) := by
      rw [hexec, checked_body (by simp [hin]) rfl]
      simp [finish, hrun, readSrc]
    exact ⟨_, order, hexec', rfl, hperm, hsorted, hsends.xfersOf_complete rfl _,
      by simp [writeDst, hregs, zeroExtend_freqWord], hram, hatt⟩

/-- A word of the frequency, its bytes as `subst` takes them. -/
theorem substFreq_zeroExtend (c : Cfg) (w : BitVec 24) (a : ChipAddr) (v : Byte) : substFreq c (w.zeroExtend 32) a v =
    if a = c.regFreq2 then w.extractLsb' 16 8 else if a = c.regFreq1 then w.extractLsb' 8 8
    else if a = c.regFreq0 then w.extractLsb' 0 8 else v := by
  have byte (off : Nat) (h : off + 8 ≤ 24) : (w.zeroExtend 32).extractLsb' off 8 = w.extractLsb' off 8 := by
    refine BitVec.eq_of_getLsbD_eq fun i hi => ?_
    simp [hi, show off + i < 32 by omega]
  simp only [substFreq, byte 16 (by omega), byte 8 (by omega), byte 0 (by omega)]

/-- Settles O42: `run_table`; an empty table has no entry to write. -/
theorem presetWritesTableInOrder : Obligations.PresetWritesTableInOrder := by
  intro s id h
  obtain ⟨u, order, hrun, hperm, hsorted, hsends, hregs, hram, hatt, -⟩ := run_table s.cfg (tableOf s.cfg id) s
  have hexec : exec (.preset id) s = .next (complete .ok u) := by
    rw [exec_atStart _ s h]
    simp [finish, program, progPreset, hrun]
  simp only [substFreq_zeroExtend] at hsends
  refine ⟨_, order, hexec, rfl, hperm, hsorted, hsends.xfersOf_complete rfl _, hregs, hram, hatt, fun hempty => ?_⟩
  rw [hempty] at hrun
  cases hrun
  rfl

/-- Settles O59: a valid answer of the store, and then `run_rinit`. -/
theorem bootUsesTheStoredFrequency : Obligations.BootUsesTheStoredFrequency := by
  intro s v h hload hnan hmin hmax
  have hvalid : freqValid s.cfg v = true := by simp [freqValid, hnan, hmin, hmax]
  let s1 := emit (.load (some v)) { s with oracle := (drawLoad s.oracle).2 }
  obtain ⟨u, order, hrun, hperm, hsorted, ⟨events, hh, hx, honly⟩, hregs, hram, hatt, -⟩ :=
    run_rinit s.cfg v (writeDst (.freqMhz v) s1)
  have hexec : exec .boot s = .next (complete .ok (writeDst (.res1 0#32) (writeDst (.res0 v) u))) := by
    rw [exec_atStart _ s h]
    simp only [finish, program, progBoot, Prog.run_bind, run_pLoad, doLoad, hload, Prog.run_andThen, run_pNote, hvalid,
      if_true, run_pWrite, Prog.run_pure, Note.event]
    rw [show emit (.load (some v)) { s with oracle := (drawLoad s.oracle).2 } = s1 from rfl, hrun]
  refine ⟨_, events, order, hexec, ?_, rfl, honly, hperm, hsorted, hx, by simp [writeDst, hregs, s1], hram, hatt⟩
  change u.history ++ [_] = _
  rw [hh]
  rfl

/-! ### The frequency word (R150) -/

/-- Settles O39: rounding by `roundSig_nearest`, the counts by `freqLoop_value`, and 433.92 MHz by evaluation. -/
theorem frequencyWordByRepeatedSubtraction : Obligations.FrequencyWordByRepeatedSubtraction := by
  refine ⟨fun p k n hp hlo hhi => roundSig_nearest hp hlo hhi, fun p n h => roundSig_exact (fits_of_lt h), ?word, ?sample⟩
  case word =>
    intro c f hc hf
    obtain ⟨hHi, hMid, hLo⟩ := wf_steps hc
    have hmag : f32Mag f < mhz 6656 := by
      simp only [f32InDomain, Bool.and_eq_true, decide_eq_true_eq] at hf
      have := f32Val_nonneg hf.1.2
      omega
    obtain ⟨l, low, -, h0, hsteps, hend, hloop⟩ := freqLoop_value (fits_f32Mag f) hmag
    refine ⟨cHi, cMid, cLo, _, _, l, low, rfl, rfl, by decide +kernel, rfl, rfl, h0, hsteps, hend, freqWordCore_of hc (hloop 0),
      fun extra => ?_⟩
    rw [hHi, hMid, hLo]
    exact hloop extra
  case sample =>
    intro c hc
    obtain ⟨hHi, hMid, hLo⟩ := wf_steps hc
    rw [freqWordCore, hHi, hMid, hLo]
    decide +kernel

/-! ### Waits (R144 to R146, R156, R157) -/

/-- A wait's answer and its last state come from its last evaluation of the predicate, and the elapsed time it answers is
the time that has passed. -/
theorem run_pollUntil_last (pred : Prog Bool) (i t : Nat) (hi : 1 ≤ i) (ht : t < 2 ^ 32) (s : State)
    (hnow : ∀ u, (pred.run u).2.regs.now = u.regs.now) :
    ∃ u, (pollUntil pred i t).run s =
      (((pred.run u).1, (pred.run u).2.regs.now - s.regs.now), (pred.run u).2) := by
  obtain ⟨e, u, -, -, hu, hrun, -⟩ := run_pollUntil pred i t hi ht (fun _ _ => True) s trivial hnow
    (fun _ _ _ _ _ => trivial)
  exact ⟨u, by rw [hrun, hnow, hu, elapsed_eq]⟩

/-- What polling leaves alone: every register but NOW, the RAM, ATT_STATE and DISC. -/
structure Polled (s u : State) : Prop where
  regs : u.regs = { s.regs with now := u.regs.now }
  ram : u.ram = s.ram
  att : u.status.att = s.status.att
  disc : u.status.disc = s.status.disc

/-- The registers after a wait has written its results. -/
theorem Polled.waited {s u : State} (h : Polled s u) (c : ResultCode) (w e : Word) :
    (complete c (writeDst (.res1 e) (writeDst (.res0 w) u))).regs = { s.regs with res0 := w, res1 := e, now := u.regs.now } := by
  simp only [complete_regs, writeDst]
  rw [h.regs]

/-- The primitives of the waits: exchanges, samples and their record, register reads and delays. -/
def Prim.ofWait : Prim → Prop
  | .xfer _ _ | .gdo | .read _ | .delay _ | .note _ => True
  | _ => False

theorem Polled.of_all {α : Type} {m : Prog α} (hm : m.All Prim.ofWait) (s : State) : Polled s (m.run s).2 := by
  refine Prog.run_rel (R := Polled) (fun _ => ⟨rfl, rfl, rfl, rfl⟩)
    (fun h g => ⟨by rw [g.regs, h.regs], g.ram.trans h.ram, g.att.trans h.att, g.disc.trans h.disc⟩)
    (fun p s hp => ?_) hm s
  cases p with
  | memRead | memWrite | load | write => exact hp.elim
  | _ => exact ⟨rfl, rfl, rfl, rfl⟩

theorem polled_waitState (c : Cfg) (target : BitVec 3) (t : Nat) (s : State) :
    Polled s ((waitStateCore c target t).run s).2 :=
  .of_all (all_waitStateCore (fun _ _ => trivial) (fun _ => trivial) (fun _ => trivial) c target t) s

theorem polled_waitEdge (c : Cfg) (level : Bool) (t : Nat) (s : State) : Polled s ((waitEdgeCore c level t).run s).2 :=
  .of_all (all_waitEdgeCore trivial (fun _ => trivial) (fun _ => trivial) (fun _ => trivial) c level t) s

/-- Samples leave STATUS. -/
theorem status_waitEdge (c : Cfg) (level : Bool) (t : Nat) (s : State) :
    ((waitEdgeCore c level t).run s).2.status = s.status :=
  Prog.run_keeps (I := fun u => u.status = s.status) (P := fun p => ∀ u, (runPrim p u).2.status = u.status)
    (fun _ u hp hu => (hp u).trans hu)
    (all_waitEdgeCore (fun _ => rfl) (fun _ _ => rfl) (fun _ _ => rfl) (fun _ _ => rfl) c level t) rfl

/-- The round at which a wait times out stands at exactly T. -/
theorem min_lastRound {i : Nat} (hi : 1 ≤ i) (T : Nat) : min (lastRound i T * i) T = T := by
  by_contra h
  have := (lastRound_spec hi (lastRound i T) T).2 (by omega)
  omega

/-- The budget of a wait, a 16-bit field. -/
theorem argMs_lt (w : Word) : argMs w < 2 ^ 32 := Nat.lt_trans (BitVec.isLt _) (by decide)

/-- The state that the status byte of an exchange names (R47). -/
def Event.chipState : Event → BitVec 3
  | .xfer _ (st :: _) _ => st.extractLsb' 4 3
  | _ => 0#3

/-- The state after a wait for an operating state, from its program: RES0 and RES1 written, completed. -/
theorem exec_waitst {s : State} {target : BitVec 3} (h : AtStart s) (hz : s.ctx.a0.extractLsb' 16 16 = 0#16) {r : Bool × Word}
    {u : State} (hrun : (waitStateCore s.cfg target (argMs s.ctx.a0)).run s = (r, u)) :
    exec (.waitst target) s = .next (complete (if r.1 then .ok else .timeout)
      (writeDst (.res1 r.2) (writeDst (.res0 (if r.1 then 1#32 else 0#32)) u))) := by
  rw [exec_body h rfl (msReserved_false hz) rfl]
  simp [finish, hrun, waitResult]

theorem exec_waitedge {s : State} {level : Bool} (h : AtStart s) (hz : s.ctx.a0.extractLsb' 16 16 = 0#16) {r : Bool × Word}
    {u : State} (hrun : (waitEdgeCore s.cfg level (argMs s.ctx.a0)).run s = (r, u)) :
    exec (.waitedge level) s = .next (complete (if r.1 then .ok else .timeout)
      (writeDst (.res1 r.2) (writeDst (.res0 (if r.1 then 1#32 else 0#32)) u))) := by
  rw [exec_body h rfl (msReserved_false hz) rfl]
  simp [finish, hrun, waitResult]

/-- A state wait ends with an exchange, so ChipStatus is what its last poll read; it is reached where that names the
target. -/
theorem waitState_last (c : Cfg) (target : BitVec 3) (t : Nat) (hi : 1 ≤ c.statePollMs) (ht : t < 2 ^ 32) (s : State) :
    ∃ u, ChipStatusMirrors u ∧ (waitStateCore c target t).run s =
      ((u.status.csState == target, u.regs.now - s.regs.now), u) := by
  obtain ⟨u, hu⟩ := run_pollUntil_last (statePoll c target) c.statePollMs t hi ht s fun u => by
    rw [run_statePoll, doXfer_regs]
  rw [run_statePoll] at hu
  exact ⟨_, chipStatusMirrors_doXfer _ _ u, hu⟩

theorem append_of_getElem?_last {α : Type} {l : List α} {n : Nat} {e : α} (hlen : l.length = n + 1) (h : l[n]? = some e) :
    l = l.dropLast ++ [e] := by
  refine (List.dropLast_append_getLast? e ?_).symm
  rw [List.getLast?_eq_getElem?, hlen]
  exact h

/-- Settles O35: the polls are those of `did_polls`, the rest of the state is `Polled`, and ChipStatus mirrors the last
poll. -/
theorem waitstPollsUntilStateOrTimeout : Obligations.WaitstPollsUntilStateOrTimeout := by
  intro s target hc h
  refine ⟨fun hbad => exec_badArg h rfl ((msReserved_iff _).mpr hbad), fun hz => ?_⟩
  obtain ⟨-, -, -, -, -, -, hi, -, -⟩ := wf_times hc
  have hT := argMs_lt s.ctx.a0
  obtain ⟨u, hmirror, hrun⟩ := waitState_last s.cfg target (argMs s.ctx.a0) hi hT s
  have hpolled := polled_waitState s.cfg target (argMs s.ctx.a0) s
  have hinside := Prog.inside (waitStateCore s.cfg target (argMs s.ctx.a0)) s
  obtain ⟨polls, hh, n, hlen, hn, hlast, hnow, hpoll⟩ := did_polls s.cfg target (argMs s.ctx.a0) hi hT s
  simp only [hrun] at hpolled hinside hh hlast hnow hpoll
  have hel : u.regs.now - s.regs.now = BitVec.ofNat 32 (min (n * s.cfg.statePollMs) (argMs s.ctx.a0)) := by
    rw [hnow, elapsed_eq]
  -- the last poll is the exchange that ChipStatus mirrors
  obtain ⟨st, v, hevent, hreached⟩ := hpoll n le_rfl
  have hst : u.status.csState = st.extractLsb' 4 3 := by
    rw [ChipStatusMirrors, hh, append_of_getElem?_last hlen hevent, ← List.append_assoc, lastXfer_append] at hmirror
    obtain ⟨st', rest, hrest, hcs, -, -⟩ := hmirror
    cases hrest
    exact hcs
  have hstate (k : Nat) (hk : k ≤ n) : ∃ st v, polls[k]? = some (.xfer [hdr s.cfg true true s.cfg.regStatePoll, 0x00#8]
        [st, v] (s.regs.now + BitVec.ofNat 32 (min (k * s.cfg.statePollMs) (argMs s.ctx.a0)))) ∧
      (polls.map Event.chipState)[k]? = some (st.extractLsb' 4 3) := by
    obtain ⟨st, v, hk, -⟩ := hpoll k hk
    exact ⟨st, v, hk, by rw [List.getElem?_map, hk]; rfl⟩
  refine ⟨_, polls, polls.map Event.chipState, n, exec_waitst h hz hrun, ?history, hlen, by rw [List.length_map, hlen],
    hstate, fun k hk => ?before, ?last, ?result, hn, ?regs, hpolled.ram, hinside.cfg, hinside.rej, hpolled.att, hpolled.disc⟩
  case history =>
    change u.history ++ [_] = _
    rw [hh]
    rfl
  case before =>
    obtain ⟨st, v, hk', hiff⟩ := hpoll k hk.le
    rw [List.getElem?_map, hk']
    exact fun heq => hk.ne (hiff.mp (Option.some.inj heq)).1
  case last =>
    rw [List.getElem?_map, hevent]
    exact congrArg some hst.symm
  case result =>
    by_cases htarget : u.status.csState = target
    · simp only [beq_iff_eq.mpr htarget]
      exact .inl ⟨rfl, htarget, rfl⟩
    · have hmiss := beq_eq_false_iff_ne.mpr htarget
      have hn' := hlast hmiss
      rw [hn', min_lastRound hi] at hel
      simp only [hmiss]
      exact .inr ⟨rfl, htarget, rfl, hn', hel⟩
  case regs =>
    rw [hpolled.waited, hel, hnow]

/-- The samples before the last are of the other level. -/
theorem samples_eq {c : Cfg} {level : Bool} {T n : Nat} {reached : Bool} {t : Word} {l : List Event} (hlen : l.length = n + 1)
    (h : ∀ k, k ≤ n → ∃ g, l[k]? = some (.gdo g (t + BitVec.ofNat 32 (min (k * c.edgePollMs) T))) ∧
      (g = level ↔ k = n ∧ reached = true)) :
    l = (List.range n).map (fun k => Event.gdo (!level) (t + BitVec.ofNat 32 (min (k * c.edgePollMs) T))) ++
      [.gdo (if reached then level else !level) (t + BitVec.ofNat 32 (min (n * c.edgePollMs) T))] := by
  have other {g : Bool} (hg : g ≠ level) : g = !level := by cases g <;> cases level <;> simp_all
  refine List.ext_getElem? fun k => ?_
  by_cases hk : k < n
  · obtain ⟨g, hg, hiff⟩ := h k hk.le
    rw [hg, other fun heq => hk.ne (hiff.mp heq).1, List.getElem?_append_left (by simpa using hk)]
    simp [hk]
  · by_cases hkn : k = n
    · subst hkn
      obtain ⟨g, hg, hiff⟩ := h k le_rfl
      rw [hg, List.getElem?_append_right (by simp)]
      cases reached with
      | true => simp [hiff.mpr ⟨rfl, rfl⟩]
      | false => simp [other fun heq => Bool.false_ne_true (hiff.mp heq).2]
    · rw [List.getElem?_eq_none (by omega), List.getElem?_eq_none (by simp; omega)]

/-- Settles O36: the samples are those of `did_samples`, and the rest of the state is `Polled`. -/
theorem waitedgeSamplesUntilLevelOrTimeout : Obligations.WaitedgeSamplesUntilLevelOrTimeout := by
  intro s level hc h
  refine ⟨fun hbad => exec_badArg h rfl ((msReserved_iff _).mpr hbad), fun hz => ?_⟩
  obtain ⟨-, -, -, -, -, -, -, hi, -⟩ := wf_times hc
  have hT := argMs_lt s.ctx.a0
  obtain ⟨v, hrun⟩ := run_pollUntil_last (edgePoll level) s.cfg.edgePollMs (argMs s.ctx.a0) hi hT s fun _ => rfl
  rw [← waitEdgeCore] at hrun
  have hpolled := polled_waitEdge s.cfg level (argMs s.ctx.a0) s
  have hinside := Prog.inside (waitEdgeCore s.cfg level (argMs s.ctx.a0)) s
  obtain ⟨l, hh, n, hlen, hn, hlast, hnow, hsample⟩ := did_samples s.cfg level (argMs s.ctx.a0) hi hT s
  generalize ((edgePoll level).run v).1 = reached, ((edgePoll level).run v).2 = u at hrun
  have hstatus := status_waitEdge s.cfg level (argMs s.ctx.a0) s
  simp only [hrun] at hpolled hinside hh hlast hnow hsample hstatus
  have hel : u.regs.now - s.regs.now = BitVec.ofNat 32 (min (n * s.cfg.edgePollMs) (argMs s.ctx.a0)) := by
    rw [hnow, elapsed_eq]
  refine ⟨_, n, if reached then level else !level, exec_waitedge h hz hrun, ?history, ?result, hn, ?regs, ?status,
    hpolled.ram, hinside.cfg⟩
  case history =>
    change u.history ++ [_] = _
    rw [hh, samples_eq hlen hsample, ← hnow]
    simp
  case result =>
    cases reached with
    | true => exact .inl ⟨rfl, rfl, rfl⟩
    | false =>
      rw [hlast rfl, min_lastRound hi] at hel
      exact .inr ⟨rfl, rfl, rfl, hlast rfl, hel⟩
  case regs =>
    rw [hpolled.waited, hel, hnow]
  case status =>
    change Status.completed _ u.status = _
    rw [hstatus]
    rfl

/-! ### The FIFO drain (R158, R159) -/

/-- DRAIN carried out: its drain, then the counts to RES0 and RES1. -/
theorem exec_drain {s u : State} {r : Drained} (h : AtStart s) (hn : argLen s.ctx.a0 ≠ 0)
    (hram : argLen s.ctx.a0 ≤ s.cfg.ramSize) (hz : s.ctx.a1.extractLsb' 11 21 = 0#21)
    (hrun : (drainCore s.cfg (argMs s.ctx.a0) (argLen s.ctx.a0) (argOff s.ctx.a1)).run s = (r, u)) :
    exec .drain s = .next (complete r.code
      (writeDst (.res1 (BitVec.ofNat 32 r.count)) (writeDst (.res0 (BitVec.ofNat 32 r.ret)) u))) := by
  rw [exec_body h rfl (by simp [offReserved_false hz, hn, hram]) rfl]
  simp [finish, hrun]

/-- What a drain has done, once its results are written and the command is completed. -/
theorem DrainedTo.completed {c : Cfg} {n off e : Nat} {rounds : List DrainRound} {events : List Event} {s u : State}
    (h : DrainedTo c n off rounds e events s u) (hoff : off ≤ c.ramSize) (code : ResultCode) (w : Word) {t : State}
    (ht : t = complete code (writeDst (.res1 (BitVec.ofNat 32 (captured rounds).length)) (writeDst (.res0 w) u))) :
    t.history = s.history ++ events ++ [.done code (s.regs.now + BitVec.ofNat 32 e)] ∧
    t.regs.now = s.regs.now + BitVec.ofNat 32 e ∧
    t.regs = { s.regs with
      res0 := w
      res1 := BitVec.ofNat 32 (captured rounds).length
      now := s.regs.now + BitVec.ofNat 32 e } ∧
    off + (captured rounds).length ≤ c.ramSize ∧
    (∀ k (h : k < (captured rounds).length), t.ram.byte (off + k) = some (captured rounds)[k]) ∧
    (∀ a, (a < off ∨ off + (captured rounds).length ≤ a) → t.ram.byte a = s.ram.byte a) ∧
    t.status.att = s.status.att ∧ t.status.disc = s.status.disc := by
  subst ht
  have hram : (complete code (writeDst (.res1 (BitVec.ofNat 32 (captured rounds).length)) (writeDst (.res0 w) u))).ram =
      s.ram.write off (captured rounds) := h.ram
  refine ⟨?_, ?_, ?_, ?_, fun k hk => by rw [hram]; exact byte_write_inside _ _ _ k hk,
    fun a ha => by rw [hram]; exact byte_write_outside _ _ _ a ha, h.att, h.disc⟩
  · simp [h.history, h.regs, writeDst]
  · simp [h.regs]
  · simp [h.regs, writeDst]
  · obtain hnone | hin := h.inside
    · simpa [hnone] using hoff
    · exact hin

/-- Settles O37: the three ends of `run_drain`; each leaves the state as `DrainedTo` says. -/
theorem drainCapturesUntilTargetOrTimeout : Obligations.DrainCapturesUntilTargetOrTimeout := by
  intro s hc h
  refine ⟨fun hbad => exec_badArg h rfl ?_, fun hn hram hz => ?_⟩
  · simpa [offReserved_iff, or_comm, or_assoc, or_left_comm] using hbad
  obtain ⟨-, -, -, -, -, -, -, -, hi⟩ := wf_times hc
  obtain ⟨hsize, -⟩ := wf_layout hc
  have hoff : argOff s.ctx.a1 ≤ s.cfg.ramSize := by
    have : argOff s.ctx.a1 < 2 ^ 11 := BitVec.isLt _
    omega
  obtain ⟨rounds, r, u, hrun, hcount, hend⟩ := run_drain s.cfg (argMs s.ctx.a0) (argLen s.ctx.a0) (argOff s.ctx.a1) hi hn
    (argMs_lt _) s
  have hexec := exec_drain h (by omega) hram hz hrun
  have hinside := Prog.inside (drainCore s.cfg (argMs s.ctx.a0) (argLen s.ctx.a0) (argOff s.ctx.a1)) s
  rw [hrun] at hinside
  rw [hcount] at hexec
  rcases hend with ⟨hcode, hret, hreached, hover, hbound, hd⟩ | ⟨hcode, hret, hshort, hbound, hd⟩ |
    ⟨hcode, hret, hshort, hbound, st, v, hpast, hd⟩ <;> rw [hcode, hret] at hexec
  · obtain ⟨hhist, hnow, hregs, hfits, hstored, hkept, hatt, hdisc⟩ := hd.completed hoff .ok _ rfl
    exact ⟨_, rounds, captured rounds, _, hexec, rfl, ⟨hd.counts, hd.short, hbound⟩,
      .inl ⟨rfl, hreached, hover, by rw [hregs], rfl, by rw [hhist, hnow]⟩,
      by rw [hregs], hfits, hstored, hkept, hinside.cfg, hinside.rej, hatt, hdisc⟩
  · obtain ⟨hhist, hnow, hregs, hfits, hstored, hkept, hatt, hdisc⟩ := hd.completed hoff .timeout _ rfl
    exact ⟨_, rounds, captured rounds, _, hexec, rfl, ⟨hd.counts, hd.short, hbound.le⟩,
      .inr (.inl ⟨rfl, hshort, by rw [hregs], hbound, rfl, by rw [hhist, hnow]⟩),
      by rw [hregs], hfits, hstored, hkept, hinside.cfg, hinside.rej, hatt, hdisc⟩
  · obtain ⟨hhist, hnow, hregs, hfits, hstored, hkept, hatt, hdisc⟩ := hd.completed hoff .alloc _ rfl
    exact ⟨_, rounds, captured rounds, _, hexec, rfl, ⟨hd.counts, hd.short, hbound.trans (Nat.le_succ _)⟩,
      .inr (.inr ⟨rfl, hshort, by rw [hregs], hbound, rfl, st, v, hpast, by rw [hhist, hnow]; simp⟩),
      by rw [hregs], hfits, hstored, hkept, hinside.cfg, hinside.rej, hatt, hdisc⟩

end Sys2Proof.Machine
end

section
/-! ATTEMPT (spec/43_protocol_engine.md section 4): what the command answers is what `attempt_phase` says of the attempt, with
RES0, RES1 and the completion put after it. -/

namespace Sys2Proof.Machine

/-- The state in which ATTEMPT completes, its attempt having answered `a` and left `u` (R262). -/
def attemptDone (a : Attempt) (u : State) : State :=
  complete a.code (writeDst (.res1 (attemptRes1 a.nr a.d)) (writeDst (.res0 (if a.code = .ok then 1#32 else 0#32)) u))

@[simp] theorem attemptDone_status (a : Attempt) (u : State) : (attemptDone a u).status = u.status.completed a.code := rfl
@[simp] theorem attemptDone_ram (a : Attempt) (u : State) : (attemptDone a u).ram = u.ram := rfl
@[simp] theorem attemptDone_regs (a : Attempt) (u : State) : (attemptDone a u).regs =
    { u.regs with res0 := if a.code = .ok then 1#32 else 0#32, res1 := attemptRes1 a.nr a.d } := rfl
@[simp] theorem attemptDone_history (a : Attempt) (u : State) :
    (attemptDone a u).history = u.history ++ [.done a.code u.regs.now] := rfl

/-- ATTEMPT from its first line: the attempt of `attempt_phase`, then its results. -/
theorem attempt_completes {s : State} (hc : cfgWf s.cfg = true) (h : AtStart s) :
    ∃ u a ending, exec .attempt s = .next (attemptDone a u) ∧
      (program s.cfg s.ctx.a0 s.ctx.a1 .attempt).attWrites s = attemptStates ending (decide (a.code = .ok)) ∧
      Ended s.cfg (fun x => x < 33 ∨ span s.cfg x) (budget s.cfg)
        (attemptTrace s.cfg s.regs.freqWord (reqFrame s.cfg s.regs.meterId)) ending s u a ∧
      (ending ≠ .noTx → Holds 0 (reqFrame s.cfg s.regs.meterId) u) := by
  obtain ⟨u, a, ending, hrun, hwrites, hend, hframe⟩ := attempt_phase hc s
  refine ⟨u, a, ending, ?_, ?_, hend, hframe⟩
  · rw [exec_atStart _ s h]
    simp [finish, program, progAttempt, hrun, attemptDone]
  · rw [← hwrites]
    exact (Prog.attWrites_bind _ _ s).trans (List.append_nil _)

/-- An attempt fails before Decoding, or decodes the response. -/
theorem Final.cases {c : Cfg} {ending : AttemptEnd} {v u : State} {a : Attempt} (h : Final c ending v u a) :
    ((∀ raw, ending ≠ .response raw) ∧ Failed v u a) ∨
      ∃ raw out, ending = .response raw ∧ c.respRawLen ≤ raw.length ∧ Dec c raw v u a out := by
  cases ending with
  | response raw =>
    obtain ⟨hlen, out, hdec⟩ := h
    exact .inr ⟨raw, out, rfl, hlen, hdec⟩
  | _ => exact .inl ⟨by simp, h⟩

/-- The end itself takes no time. -/
theorem Final.now_eq {c : Cfg} {ending : AttemptEnd} {v u : State} {a : Attempt} (h : Final c ending v u a) :
    u.regs.now = v.regs.now := by
  obtain ⟨-, hf⟩ | ⟨_, _, -, -, hdec⟩ := h.cases
  · rw [hf.regs]
  · rw [hdec.regs]

/-- The result code of a decoded response says how many bytes there are (R268). -/
theorem Dec.code_cases {c : Cfg} {raw out : List Byte} {s u : State} {a : Attempt} (h : Dec c raw s u a out) :
    (a.code = .ok ∧ c.minDecoded ≤ out.length) ∨ (a.code = .malformed ∧ out.length < c.minDecoded) ∨
      (a.code = .zeroReading ∧ c.minDecoded ≤ out.length) := by
  rcases h.fin with ⟨hcode, _, hlen, _⟩ | ⟨hcode, _, hlen, _⟩ | ⟨hcode, _, hlen, _⟩
  · exact .inl ⟨hcode, hlen⟩
  · exact .inr (.inl ⟨hcode, hlen⟩)
  · exact .inr (.inr ⟨hcode, hlen⟩)

theorem Dec.length_le {c : Cfg} {raw out : List Byte} {s u : State} {a : Attempt} (h : Dec c raw s u a out) :
    out.length ≤ 256 := by
  rw [h.hout]
  exact length_decodeCore_le _ _ _

/-- A reading has a field that is not 0. -/
theorem AttemptEnd.reading_ne_zero {c : Cfg} {ending : AttemptEnd} {index misc : Word}
    (h : ending.reading c = some (index, misc)) : index ≠ 0#32 ∨ misc ≠ 0#32 := by
  cases ending with
  | response raw =>
    simp only [AttemptEnd.reading, Option.ite_none_right_eq_some, Option.some.injEq, Prod.mk.injEq] at h
    obtain ⟨⟨-, hne⟩, rfl, rfl⟩ := h
    exact hne
  | _ => cases h

/-- Settles O57: the delays and budgets of `Ended`, since the end itself takes no time. -/
theorem attemptTimeIsBounded : Obligations.AttemptTimeIsBounded := by
  intro s hc h
  obtain ⟨u, a, ending, hexec, -, ⟨e, v, he, hmid, -, hfin⟩, -⟩ := attempt_completes hc h
  refine ⟨_, e, hexec, ?_, he⟩
  rw [attemptDone_regs, hfin.now_eq, hmid.regs]

/-- Settles O55: the trace and the frame by `Ended.summary`, the counts by the two kinds of ending. -/
theorem attemptSucceedsOrFails : Obligations.AttemptSucceedsOrFails := by
  intro s hc h
  obtain ⟨u, a, ending, hexec, hwrites, hend, -⟩ := attempt_completes hc h
  obtain ⟨hregs, hdisc, hstores, hram, hok, v, ⟨events, hhist, htrace⟩, hnow, hread⟩ := hend.summary hc
  obtain ⟨-, w, -, -, -, hfin⟩ := hend
  refine ⟨_, events, ending, hexec, ?trace, hwrites, ?response, ?timeout, ?ok, ?notOk, ?stores, by rw [attemptDone_regs, hregs],
    by rw [attemptDone_regs, hregs], by rw [attemptDone_regs, hregs], hdisc,
    fun x _ hhi => hram x (by unfold span; omega) (.inl hhi),
    fun x _ => hram x (by unfold span; omega) (.inr (by omega))⟩
  case trace => rwa [attemptDone_regs, ← hnow]
  case response =>
    rintro raw rfl
    obtain ⟨hno, -⟩ | ⟨_, out, hraw, hlen, hdec⟩ := hfin.cases
    · exact absurd rfl (hno raw)
    · cases hraw
      exact ⟨hlen, out.length, hdec.length_le, by simp [attemptRes1, hdec.nr, hdec.d], hdec.code_cases⟩
  case timeout =>
    intro hno
    obtain ⟨-, hf⟩ | ⟨raw, _, hraw, -⟩ := hfin.cases
    · rw [hf.ret]
      exact ⟨rfl, rfl⟩
    · exact absurd hraw (hno raw)
  case ok =>
    intro hcode
    have hcode : a.code = .ok := hcode
    obtain ⟨⟨index, misc⟩, hreading⟩ := Option.isSome_iff_exists.mp (hok.mp hcode)
    rw [hreading] at hread
    obtain ⟨hatt, hindex, hmisc, -, hpub⟩ := hread
    refine ⟨hatt, by simp [hcode], ?_, ?_⟩
    · rw [attemptDone_regs, hindex, hmisc]
      exact AttemptEnd.reading_ne_zero hreading
    · simp [hpub, hhist, hindex, hmisc, hcode, publication]
  case notOk =>
    intro hcode
    have hcode : a.code ≠ .ok := hcode
    rw [Option.not_isSome_iff_eq_none.mp (mt hok.mpr hcode)] at hread
    obtain ⟨hatt, hindex, hmisc, -, hsame⟩ := hread
    refine ⟨hatt, by simp [hcode], hindex, hmisc, ?_⟩
    rw [attemptDone_history, hsame, hhist]
    rfl
  case stores => rw [attemptDone_history, storesOf_append, storesOf_done, storesOf_nil, List.append_nil, hstores]

/-- Settles O56: an attempt with one of the three results is one that decodes, and `Dec` says what it leaves. -/
theorem attemptDecodesTheCapture : Obligations.AttemptDecodesTheCapture := by
  intro s t hc h ht hresult
  obtain ⟨u, a, ending, hexec, -, ⟨e, v, -, hmid, ⟨events, hhist, htrace⟩, hfin⟩, hframe⟩ := attempt_completes hc h
  cases ht.symm.trans hexec
  have hnow := hfin.now_eq
  obtain ⟨-, hf⟩ | ⟨raw, out, rfl, -, hdec⟩ := hfin.cases
  · rw [hf.ret] at hresult
    simp [Status.completed] at hresult
  have hgrown : ∃ rest, u.history = v.history ++ rest := by
    rcases hdec.fin with ⟨_, _, _, _, _, _, hh⟩ | ⟨_, _, _, _, _, hh⟩ | ⟨_, _, _, _, _, _, _, hh⟩
    · exact ⟨_, hh⟩
    · exact ⟨[], by simp [hh]⟩
    · exact ⟨[], by simp [hh]⟩
  obtain ⟨rest, hrest⟩ := hgrown
  have hlen := hdec.length_le
  refine ⟨raw, out, indexAt s.cfg out, miscAt s.cfg out, events, rest ++ [.done a.code u.regs.now], ?history, ?trace, ?out,
    by simp [attemptRes1, hdec.nr, hdec.d], hdec.hr, fun k hk => ?decoded, fun k hk => ?frame, rfl, rfl, ?_⟩
  case history => simp [hrest, hhist]
  case trace => rwa [attemptDone_regs, hnow]
  case out =>
    rw [hdec.hout]
    cases s.cfg.respOsr <;> rfl
  case decoded =>
    have hk' : k < (out ++ List.replicate (256 - out.length) 0x00#8).length := by simp; omega
    rw [attemptDone_ram, hdec.hd k hk', ← getD_pad out (256 - out.length) k, List.getD_eq_getElem _ _ hk']
  case frame =>
    have hk' : k < (reqFrame s.cfg s.regs.meterId).length := by rwa [length_reqFrame]
    have := hframe (by simp) k hk'
    rw [Nat.zero_add] at this
    rw [attemptDone_ram, this, List.getD_eq_getElem _ _ hk']
  rcases hdec.fin with ⟨hcode, -, hmin, hne, hindex, hmisc, -⟩ | ⟨hcode, -, hmin, -⟩ | ⟨hcode, -, hmin, hi, hm, -⟩
  · simpa [hcode, Status.completed, hindex, hmisc, hmin, hne] using not_and.mp (not_and_or.mpr hne)
  · simp [hcode, Status.completed, hmin, show ¬ s.cfg.minDecoded ≤ out.length by omega]
  · simp [hcode, Status.completed, hi, hm, hmin]

end Sys2Proof.Machine
end

section
/-! DISCOVER and BOOT's discovery (spec/43_protocol_engine.md sections 5 and 6): both are the one scan of `discoverCore_phase`
with their results put after it. -/

namespace Sys2Proof.Machine

/-- The state in which a discovery completes, its scan having found `found` and left `u`, and RES1 being `w` (R275, R281). -/
def discoveryDone (found : Option Word) (w : Word) (u : State) : State :=
  complete (if found.isSome then .ok else .notFound) (writeDst (.res0 (found.getD 0#32)) (writeDst (.res1 w) u))

theorem finish_discoverResult (found : Option Word) (w : Word) (u : State) :
    finish ((pWrite (.res1 w)).andThen (discoverResult found)) u = discoveryDone found w u := by
  cases found <;> rfl

/-- DISCOVER is its scan, then its results. -/
theorem finish_discover {c : Cfg} {s u : State} {r : Discovery} (h : (discoverCore c).run s = (r, u)) :
    finish (progDiscover c) s = discoveryDone r.found (BitVec.ofNat 32 r.tried) u := by
  rw [← finish_discoverResult]
  simp [finish, progDiscover, h]

/-- BOOT's discovery is the same scan with the same results, but for RES1. -/
theorem finish_bootDiscover {c : Cfg} {s u : State} {r : Discovery} (h : (discoverCore c).run s = (r, u)) :
    finish (bootDiscover c) s = discoveryDone r.found (1#32 ||| (BitVec.ofNat 32 r.tried <<< 16)) u := by
  rw [← finish_discoverResult]
  simp [finish, bootDiscover, h]

/-- RES1 is written and read by nothing else of a discovery's end. -/
theorem discoveryDone_res1 (found : Option Word) (w x : Word) (u : State) :
    discoveryDone found x u =
      { discoveryDone found w u with regs := { (discoveryDone found w u).regs with res1 := x } } := rfl

/-- The state after BOOT has asked the store (R281). -/
def loaded (s : State) : State := emit (.load (drawLoad s.oracle).1) { s with oracle := (drawLoad s.oracle).2 }

/-- BOOT where the store answers nothing, or a value that is not valid (R281, R282). -/
theorem finish_boot_invalid (c : Cfg) (s : State) (h : ∀ v, (drawLoad s.oracle).1 = some v → freqValid c v = false) :
    finish (progBoot c) s = finish (bootDiscover c) (loaded s) := by
  simp only [finish, progBoot, Prog.run_bind, run_pLoad, doLoad, Prog.run_andThen, run_pNote, Note.event, loaded]
  cases hload : (drawLoad s.oracle).1 with
  | none => rfl
  | some v => simp only [h v hload, Bool.false_eq_true, if_false]

/-- Settles O60: both commands end with the same scan. -/
theorem bootElseRunsDiscovery : Obligations.BootElseRunsDiscovery := by
  intro s _ h hload
  obtain ⟨r, u, hrun⟩ : ∃ r u, (discoverCore s.cfg).run (loaded s) = (r, u) := ⟨_, _, rfl⟩
  have hboot : exec .boot s = .next (discoveryDone r.found (1#32 ||| (BitVec.ofNat 32 r.tried <<< 16)) u) := by
    rw [exec_atStart _ s h]
    exact congrArg _ ((finish_boot_invalid s.cfg s hload).trans (finish_bootDiscover hrun))
  have hdiscover : exec .discover (loaded s) = .next (discoveryDone r.found (BitVec.ofNat 32 r.tried) u) := by
    rw [exec_atStart _ (loaded s) h]
    exact congrArg _ (finish_discover hrun)
  exact ⟨_, _, hdiscover, hboot, discoveryDone_res1 _ _ _ u⟩

/-- Settles O58: `discoverCore_phase` says what the scan leaves; the command then writes RES0 and RES1 and completes. -/
theorem discoverStoresTheFirstSuccess : Obligations.DiscoverStoresTheFirstSuccess := by
  intro s hc h
  obtain ⟨u, r, k, failed, last, writes, hrun, hwrites, hscan⟩ := discoverCore_phase hc s
  have hexec : exec .discover s = .next (discoveryDone r.found (BitVec.ofNat 32 r.tried) u) := by
    rw [exec_atStart _ s h]
    exact congrArg _ (finish_discover hrun)
  have hprog : (program s.cfg s.ctx.a0 s.ctx.a1 .discover).scanWrites s = .disc true :: writes := by
    rw [← hwrites]
    refine (Prog.scanWrites_bind _ _ s).trans ?_
    rw [hrun]
    cases r.found <;> exact List.append_nil _
  have hinside := Prog.inside (discoverCore s.cfg) s
  rw [hrun] at hinside
  obtain ⟨v, ⟨events, hhist, htrace⟩, hnow, hstores, hpubs, hfin⟩ := hscan.fin
  refine ⟨_, k, failed, last, events, hexec, by simpa using hscan.count, hscan.none,
    fun j hj => hscan.inRange j (Nat.zero_le j) hj, ?trace, ?ends, hscan.disc, hinside.rej, hinside.cfg,
    fun x _ hhi => hscan.ram x (by unfold span; omega) (.inl hhi),
    fun x _ => hscan.ram x (by unfold span; omega) (.inr (by omega))⟩
  case trace => exact hnow ▸ htrace
  case ends =>
    rw [hhist] at hstores hpubs
    cases hreading : last.reading s.cfg with
    | some reading =>
      obtain ⟨index, misc⟩ := reading
      rw [hreading] at hfin
      obtain ⟨hfound, hatt, hgrown, rfl, hregs⟩ := hfin
      have hh : (discoveryDone r.found (BitVec.ofNat 32 r.tried) u).history = s.history ++ events ++
          [publication index misc, .store (candidate s.cfg k), .done .ok u.regs.now] := by
        simp [discoveryDone, hfound, writeDst, hgrown, hhist]
      refine ⟨by rw [hfound]; rfl, hatt, hh, ?_, ?_, hprog, ?_⟩
      · rw [hh, storesOf_append, hstores]; rfl
      · rw [hh, publishesOf_append, hpubs]; rfl
      · simp only [discoveryDone, complete_regs, writeDst, hscan.tried, hfound]
        rw [hregs]
        rfl
    | none =>
      rw [hreading] at hfin
      obtain ⟨hfound, hatt, hpast, hgrown, rfl, hregs⟩ := hfin
      have hh : (discoveryDone r.found (BitVec.ofNat 32 r.tried) u).history = s.history ++ events ++
          [.done .notFound u.regs.now] := by
        simp [discoveryDone, hfound, writeDst, hgrown, hhist]
      refine ⟨by rw [hfound]; rfl, hatt, hpast, hh, ?_, ?_, hprog, ?_⟩
      · rw [hh, storesOf_append, hstores]; exact List.append_nil _
      · rw [hh, publishesOf_append, hpubs]; exact List.append_nil _
      · simp only [discoveryDone, complete_regs, writeDst, hscan.tried, hfound]
        rw [hregs]
        rfl

end Sys2Proof.Machine
end
